-- ==== Sys2Proof/Word.lean ====
section
/-! DEFINITION. The word types of the block (R6, R7): every quantity is unsigned, bit 0 is the least significant. -/

namespace Sys2Proof

/-- A command word, a response value, a counter, a status word: 16 bits (R6). -/
abbrev Word := BitVec 16

/-- A byte of one of the storage spaces: 8 bits (R50). -/
abbrev Byte := BitVec 8

end Sys2Proof
end

