-- ==== Sys2Proof/Syntax.lean ====
section
/-! DEFINITION. The commands of the block (R71), its two ports (D2), and the causes a word can be refused for (R160). -/

namespace Sys2Proof

/-- The two command ports (D2): P of the producer, C of the consumer. -/
inductive Port where
  | P
  | C
  deriving DecidableEq, Repr

/-- The fault causes of R160. -/
inductive Cause where
  | illegal
  | wrongPort
  | idxRange
  | noFrame
  deriving DecidableEq, Repr

/-- The six commands of R71, one constructor per row of spec/opcode_table.json. `imm8` is the data byte of format P8 (R72);
`ch` and `sel` are the unsigned numbers of formats C5 and S4 (R74, R75, R76). -/
inductive Instr where
  | push (imm8 : Byte)
  | pop
  | len
  | poll
  | decode (ch : Nat)
  | rdstat (sel : Nat)
  deriving DecidableEq, Repr

end Sys2Proof
end

