-- ==== Sys2Proof/WellFormed.lean ====
section
/-! DEFINITION. Which commands are well formed: an operand fits its field (R85). `imm8` fits by its type. -/

namespace Sys2Proof

/-- R85: ch is 0..31 and sel is 0..15; an operand that does not fit is an assembler error, not a word. -/
def Instr.wf : Instr → Bool
  | .push _     => true
  | .pop        => true
  | .len        => true
  | .poll       => true
  | .decode ch  => ch < 32
  | .rdstat sel => sel < 16

end Sys2Proof
end

