-- ==== Sys2Proof/Decode.lean ====
section
/-! DEFINITION. From words to commands and back: R70 to R79, R83. Decoding is total over all words and both ports. -/

namespace Sys2Proof

/-- The four formats (R70). -/
inductive Format where
  | p8
  | n
  | c5
  | s4
  deriving DecidableEq, Repr

/-- The opcode field `w[15:12]` (R70). -/
def opcode (w : Word) : Nat := (w.extractLsb' 12 4).toNat

/-- The opcode map (R71): the format and the admitting port of an assigned opcode; none for 0x0 and 0x7..0xF (R77). -/
def opcodeRow : Nat → Option (Format × Port)
  | 1 => some (.p8, .P)
  | 2 => some (.n, .C)
  | 3 => some (.n, .C)
  | 4 => some (.n, .C)
  | 5 => some (.c5, .C)
  | 6 => some (.s4, .C)
  | _ => none

/-- The reserved bits of a format: P8 `w[11:8]`, N `w[11:0]`, C5 `w[11:5]`, S4 `w[11:4]` (R72 to R75). -/
def reservedBits (f : Format) (w : Word) : Nat :=
  match f with
  | .p8 => (w.extractLsb' 8 4).toNat
  | .n  => (w.extractLsb' 0 12).toNat
  | .c5 => (w.extractLsb' 5 7).toNat
  | .s4 => (w.extractLsb' 4 8).toNat

/-- The command an assigned opcode names, with its operand taken unchanged from its bits (R76). -/
def operandForm (w : Word) : Option Instr :=
  match opcode w with
  | 1 => some (.push (w.extractLsb' 0 8))
  | 2 => some .pop
  | 3 => some .len
  | 4 => some .poll
  | 5 => some (.decode (w.extractLsb' 0 5).toNat)
  | 6 => some (.rdstat (w.extractLsb' 0 4).toNat)
  | _ => none

/-- R83: the decode of word `w` on port `p`. The checks stand in the order of R162: unassigned opcode, port, reserved bits. -/
def decodeAt (p : Port) (w : Word) : Except Cause Instr :=
  match opcodeRow (opcode w), operandForm w with
  | some (fmt, admits), some i =>
    if p ≠ admits then .error .wrongPort
    else if reservedBits fmt w ≠ 0 then .error .illegal
    else .ok i
  | _, _ => .error .illegal

/-- The port that admits a word's opcode (R79). An unassigned opcode is illegal on either port (R77): C stands for it here,
and nothing depends on which. -/
def admittingPort (w : Word) : Port :=
  match opcodeRow (opcode w) with
  | some (_, p) => p
  | none => .C

/-- The decode of a word on the port that admits its opcode. -/
def decodeWord (w : Word) : Except Cause Instr := decodeAt (admittingPort w) w

/-- The port that admits a command (R79). -/
def Instr.port : Instr → Port
  | .push _   => .P
  | .pop      => .C
  | .len      => .C
  | .poll     => .C
  | .decode _ => .C
  | .rdstat _ => .C

/-- The opcode of a command (R71). -/
def Instr.op : Instr → Nat
  | .push _   => 0x1
  | .pop      => 0x2
  | .len      => 0x3
  | .poll     => 0x4
  | .decode _ => 0x5
  | .rdstat _ => 0x6

/-- The operand of a command, 0 for format N (R72 to R75). -/
def Instr.operand : Instr → Nat
  | .push b   => b.toNat
  | .pop      => 0
  | .len      => 0
  | .poll     => 0
  | .decode c => c
  | .rdstat s => s

/-- The word of a well-formed command: `(op << 12) | operand` (R85). -/
def encode (i : Instr) : Word := (BitVec.ofNat 16 i.op <<< 12) ||| BitVec.ofNat 16 i.operand

/-- The decoder as the host asks for it: the low `nbits` bits of `w` are the word, every bit above them is 0. No command is
longer than 16 bits (R84), so a longer one is refused. DESIGN CHOICE (log 10): R84 says nothing of a longer word. -/
def decodeTableWord (nbits w : Nat) : Option Instr :=
  if nbits ≤ 16 then
    match decodeWord (BitVec.ofNat 16 (w % 2 ^ nbits)) with
    | .ok i => some i
    | .error _ => none
  else none

end Sys2Proof
end

