-- ==== Sys2Proof/Config.lean ====
section
/-! DEFINITION. The parameters of the block (R2, R3, R4, R35), which no step writes, and the two free values of the model. -/

namespace Sys2Proof

/-- SYNC_MODE (R3): whether a view follows its index in separate synchronizer steps or in the step that writes the index. -/
inductive SyncMode where
  | deferred
  | immediate
  deriving DecidableEq, Repr

/-- CH_WINDOW (R4): how many frame bits the channel decoder reads before it shifts and masks. -/
inductive ChWindow where
  | w24
  | w16
  deriving DecidableEq, Repr

/-- The configuration of a block (R35): K = RB_ADDR_BITS (R2), SYNC_MODE (R3), CH_WINDOW (R4). -/
structure Config where
  k        : Nat
  syncMode : SyncMode
  chWindow : ChWindow
  deriving DecidableEq, Repr

/-- The ring buffer has N = 2^K slots (R2). -/
def Config.n (c : Config) : Nat := 2 ^ c.k

/-- R2: 1 <= K <= 16. -/
abbrev Config.wf (c : Config) : Prop := 1 ≤ c.k ∧ c.k ≤ 16

/-- The configuration of `State.reset`: SYNC_MODE and CH_WINDOW at the defaults of R3 and R4.
DESIGN CHOICE (log 7): the spec fixes no K (R2, N1); 3 is the K of most of its vectors (D5). -/
def Config.shipped : Config := { k := 3, syncMode := .deferred, chWindow := .w24 }

/-- Which of its own enabled steps the block takes when no turn is left, as a number drawn with a counter.
DESIGN CHOICE (log 5): the order is open (R23, I3), so it has no body and no proof can see a value of it. -/
opaque Config.freeChoice : Nat → Nat

/-- The byte an address of a space holds while nothing has been written there since a reset: any value (R40, I9), drawn anew with
each reset. DESIGN CHOICE (log 6): it has no body, so no proof can see a value of it. -/
opaque Config.freeByte : (draw space addr : Nat) → Byte

end Sys2Proof
end

