-- ==== Sys2Proof/Machine/State.lean ====
section
/-! DEFINITION. The state of the block (10_state.md, R40's table), the turns that drive it, and the reasons it can stop. -/

namespace Sys2Proof.Machine

/-- One storage space: the bytes written in it since reset, as (address, byte) pairs. An address with no pair holds any value,
as reset leaves it (R24, R29, R31, R40): a free byte (log 6). -/
abbrev Memory := List Host.Cell

/-- The canonical form of a space: addresses strictly rising. -/
def Memory.wf : Memory → Bool
  | [] => true
  | [_] => true
  | c :: d :: m => decide (c.1 < d.1) && Memory.wf (d :: m)

/-- The three byte-addressed storage spaces of R50: ring buffer slots, partial frame, valid frame. -/
inductive Space where
  | rb
  | fb
  | vf
  deriving DecidableEq, Repr

/-- `asm_st` (R28): 0 IDLE, 1 FILLING. -/
inductive AsmSt where
  | idle
  | filling
  deriving DecidableEq, Repr

/-- The statuses a response can carry (R82): OK, EMPTY, FULL, NEW, NONE, BAD, FAULT. The codes 0x6..0xE have no constructor:
they are never produced. -/
inductive Status where
  | ok
  | empty
  | full
  | new
  | none
  | bad
  | fault
  deriving DecidableEq, Repr

/-- A response (R81): a status and a 16-bit value, to the port the command came from. -/
structure Response where
  port   : Port
  status : Status
  value  : Word
  deriving DecidableEq, Repr

/-- Whose turn it is (R20, R23). A list of turns is one schedule of the agents; every schedule is some list (log 1). -/
inductive Turn where
  /-- The agent on port `p` issues word `w` (R21). -/
  | command (p : Port) (w : Word)
  /-- The consumer goes on with its poll (R121). -/
  | microStep
  /-- The synchronizer carries `head` (R103). -/
  | syncH
  /-- The synchronizer carries `tail` (R104). -/
  | syncT
  /-- The reset agent resets the block (R180). -/
  | reset
  deriving DecidableEq, Repr

/-- Why a step stops. The spec's own faults (R160) are no stop: they are recorded and the block goes on (R164). -/
inductive Fault where
  /-- Raised by an access to an address outside `space`. The spec says it is never formed (R50). Safe (log 9). -/
  | outside (space : Space) (addr : Nat)
  /-- Raised by the meaning of a consumer command executed while a poll is in progress: R21 gives the consumer no command
  step there, and `step` never executes one (it waits, R186). Safe (log 4). -/
  | consumerBusy
  deriving DecidableEq, Repr

/-- Why a step is refused. -/
inductive Refusal where
  /-- Raised by `exec` for a command that has no meaning yet; no arm does. Safe. -/
  | notModelled (mnemonic : String)
  deriving DecidableEq, Repr

/-- The state of the block: R40's table element by element, then the model's own four fields. -/
structure State where
  /-- K, SYNC_MODE, CH_WINDOW (R35): no step writes them. -/
  cfg        : Config
  /-- `slot[0..N-1]`, the ring buffer's storage (R24). -/
  slot       : Memory
  /-- The next slot PUSH writes (R26): a K-bit number. -/
  head       : Nat
  /-- The next slot POP or a poll micro-step reads (R26): a K-bit number. -/
  tail       : Nat
  /-- `head_c`, the consumer's view of `head` (R27). -/
  headC      : Nat
  /-- `tail_p`, the producer's view of `tail` (R27). -/
  tailP      : Nat
  /-- `asm_st` (R28). -/
  asmSt      : AsmSt
  /-- `asm_cnt`, 5 bits (R28). -/
  asmCnt     : BitVec 5
  /-- `fbuf[0..24]`, the partial frame (R29). -/
  fbuf       : Memory
  /-- `vframe[0..24]`, the last valid frame (R31). -/
  vframe     : Memory
  /-- A frame has passed validation since reset (R31). -/
  vvalid     : Bool
  /-- `poll_rem`: the bytes the poll has still to drain, 0 when there is no poll (R32). -/
  pollRem    : Word
  /-- `poll_len`: the snapshot of the current or last poll (R32). -/
  pollLen    : Word
  /-- `poll_new` (R32). -/
  pollNew    : Bool
  /-- `poll_bad` (R32). -/
  pollBad    : Bool
  /-- `cnt_ovf`: PUSHes answered FULL (R33). -/
  cntOvf     : Word
  /-- `cnt_resync`: bytes discarded in IDLE (R33). -/
  cntResync  : Word
  /-- `cnt_enderr`: frames failing the end-marker check (R33). -/
  cntEnderr  : Word
  /-- `cnt_sumerr`: frames failing the checksum check (R33). -/
  cntSumerr  : Word
  /-- `cnt_frame`: frames that passed validation (R33). -/
  cntFrame   : Word
  /-- `fault_cause`: one sticky bit per cause (R34). -/
  faultCause : BitVec 4
  /-- `fault_word`: the word of the first fault since reset (R34). -/
  faultWord  : Word
  /-- `fault_port`: its port, 0 = P, 1 = C (R34). -/
  faultPort  : Port
  /-- The model's own: the response the last step delivered, if any (R9; log 2). -/
  response   : Option Response
  /-- The model's own: the turns to come, next first (R23; log 1). -/
  turns      : List Turn
  /-- The model's own: the counter `Config.freeChoice` is drawn with (log 5). -/
  freeCount  : Nat
  /-- The model's own: the counter `Config.freeByte` is drawn with, one up with each reset (log 6). -/
  storageDraw : Nat
  deriving DecidableEq, Repr

/-- The state after the reset step (R40) of a block with configuration `c`, with no turn to come. Storage holds any value:
nothing is written in it yet, so each of its bytes is a free byte (log 6). -/
def State.resetOf (c : Config) : State where
  cfg := c
  slot := []
  head := 0
  tail := 0
  headC := 0
  tailP := 0
  asmSt := .idle
  asmCnt := 0
  fbuf := []
  vframe := []
  vvalid := false
  pollRem := 0
  pollLen := 0
  pollNew := false
  pollBad := false
  cntOvf := 0
  cntResync := 0
  cntEnderr := 0
  cntSumerr := 0
  cntFrame := 0
  faultCause := 0
  faultWord := 0
  faultPort := .P
  response := none
  turns := []
  freeCount := 0
  storageDraw := 0

/-- The machine right after reset (R40), in the configuration log 7 names. -/
def State.reset : State := State.resetOf Config.shipped

/-- The three outcomes of a step of this machine. -/
abbrev Result := Host.Outcome State Fault Refusal

end Sys2Proof.Machine
end

