-- ==== Sys2Proof/Machine/Ops.lean ====
section
/-! DEFINITION. The named operations over storage, indices, responses and the fault record that the meanings share. -/

namespace Sys2Proof.Machine

/-! The protocol's constants (R5). -/

/-- START_MARKER (R5). -/
def startMarker : Byte := 0x0F

/-- END_MARKER (R5). -/
def endMarker : Byte := 0x00

/-- FRAME_LEN (R5). -/
def frameLen : Nat := 25

/-- How many bytes the checksum covers; it is stored in the byte after them (R5). -/
def sumLen : Nat := 23

/-! Storage (R50, R51). -/

/-- The byte listed at address `a`, if any. -/
def Memory.read : Memory → Nat → Option Byte
  | [], _ => none
  | (k, v) :: m, a => if k = a then some v else Memory.read m a

/-- `m` with byte `v` at address `a`, in canonical form. -/
def Memory.write : Memory → Nat → Byte → Memory
  | [], a, v => [(a, v)]
  | (k, u) :: m, a, v =>
    if a < k then (a, v) :: (k, u) :: m
    else if k = a then (a, v) :: m
    else (k, u) :: Memory.write m a v

/-- How many bytes a space has (R50). -/
def Space.size (c : Config) : Space → Nat
  | .rb => c.n
  | .fb => frameLen
  | .vf => frameLen

/-- The storage of a space. -/
def State.space (s : State) : Space → Memory
  | .rb => s.slot
  | .fb => s.fbuf
  | .vf => s.vframe

/-- The state with another storage in a space. -/
def State.setSpace (s : State) (sp : Space) (m : Memory) : State :=
  match sp with
  | .rb => { s with slot := m }
  | .fb => { s with fbuf := m }
  | .vf => { s with vframe := m }

/-- The byte at address `a` of a space, if one was written since reset. -/
def State.byteAt (s : State) (sp : Space) (a : Nat) : Option Byte := Memory.read (s.space sp) a

/-- The number a free byte of the space is drawn with. -/
def Space.number : Space → Nat
  | .rb => 0
  | .fb => 1
  | .vf => 2

/-- The byte address `a` of a space holds: the one last written there, or any value while nothing has been written there since
reset (R40, R51; log 6). -/
def State.cell (s : State) (sp : Space) (a : Nat) : Byte :=
  match s.byteAt sp a with
  | some v => v
  | none => Config.freeByte s.storageDraw sp.number a

/-- `MemRead(S, a, 1)` (R8, R51). -/
def memRead (sp : Space) (a : Nat) (s : State) : Except Fault Byte :=
  if a < sp.size s.cfg then .ok (s.cell sp a) else .error (.outside sp a)

/-- `MemWrite(S, a, 1, v)` (R8, R51). -/
def memWrite (sp : Space) (a : Nat) (v : Byte) (s : State) : Except Fault State :=
  if a < sp.size s.cfg then .ok (s.setSpace sp (Memory.write (s.space sp) a v))
  else .error (.outside sp a)

/-- The `n` bytes from address `a` on, read one at a time (R51). -/
def readRun (sp : Space) : Nat → Nat → State → Except Fault (List Byte)
  | _, 0, _ => .ok []
  | a, n + 1, s =>
    match memRead sp a s with
    | .error f => .error f
    | .ok v =>
      match readRun sp (a + 1) n s with
      | .error f => .error f
      | .ok vs => .ok (v :: vs)

/-- The bytes written one after the other from address `a` on (R51). -/
def writeRun (sp : Space) : Nat → List Byte → State → Except Fault State
  | _, [], s => .ok s
  | a, v :: vs, s =>
    match memWrite sp a v s with
    | .error f => .error f
    | .ok t => writeRun sp (a + 1) vs t

/-! Index arithmetic, modulo N (R2, R7). -/

/-- `(i + 1) mod N`. -/
def nextIndex (c : Config) (i : Nat) : Nat := (i + 1) % c.n

/-- `(a - b) mod N`: the number in 0..N-1 congruent to `a - b` (R7). -/
def indexSub (c : Config) (a b : Nat) : Nat := (a + (c.n - b % c.n)) % c.n

/-- The occupancy `(head - tail) mod N` (R26). -/
def State.occupancy (s : State) : Nat := indexSub s.cfg s.head s.tail

/-- `occ_c`: the bytes the consumer can see (R106). -/
def State.visible (s : State) : Nat := indexSub s.cfg s.headC s.tail

/-- `occ_p`: the producer's view of the occupancy (R106). -/
def State.producerView (s : State) : Nat := indexSub s.cfg s.head s.tailP

/-- `lag_h`: how far the consumer's view is behind `head` (R106). -/
def State.lagH (s : State) : Nat := indexSub s.cfg s.head s.headC

/-- `lag_t`: how far the producer's view is behind `tail` (R106). -/
def State.lagT (s : State) : Nat := indexSub s.cfg s.tail s.tailP

/-- `head` moves on; in IMMEDIATE mode its view moves in the same step (R100). -/
def advanceHead (s : State) : State :=
  { s with
    head := nextIndex s.cfg s.head
    headC := if s.cfg.syncMode = .immediate then nextIndex s.cfg s.head else s.headC }

/-- `tail` moves on; in IMMEDIATE mode its view moves in the same step (R101, R121). -/
def advanceTail (s : State) : State :=
  { s with
    tail := nextIndex s.cfg s.tail
    tailP := if s.cfg.syncMode = .immediate then nextIndex s.cfg s.tail else s.tailP }

/-- Read `slot[tail]` and advance `tail`, in one step (R56, R101, R121). -/
def takeByte (s : State) : Except Fault (Byte × State) :=
  match memRead .rb s.tail s with
  | .error f => .error f
  | .ok b => .ok (b, advanceTail s)

/-! Responses (R81). -/

/-- `respond(port, status, value)` (R8). -/
def respond (p : Port) (st : Status) (v : Word) (s : State) : State :=
  { s with response := some { port := p, status := st, value := v } }

/-- The step delivers no response. -/
def noResponse (s : State) : State := { s with response := none }

/-! Faults (R160, R161). -/

/-- The code of a cause (R160). -/
def Cause.code : Cause → Nat
  | .illegal   => 1
  | .wrongPort => 2
  | .idxRange  => 3
  | .noFrame   => 4

/-- The bit of a cause in `fault_cause`: `1 << (cause - 1)` (R161). -/
def Cause.bit (c : Cause) : BitVec 4 := 1#4 <<< (Cause.code c - 1)

/-- The fault record of R161: the cause bit is set; the word and the port are kept only from the first fault since reset. -/
def recordFault (p : Port) (w : Word) (c : Cause) (s : State) : State :=
  { s with
    faultWord := if s.faultCause = 0 then w else s.faultWord
    faultPort := if s.faultCause = 0 then p else s.faultPort
    faultCause := s.faultCause ||| Cause.bit c }

/-- `raise Fault(cause)` in a command step of port `p` with word `w` (R161): TAKING A FAULT. It records, answers
(FAULT, cause) and writes nothing else (R163). There is no entry, no handler and no return (R164, R165). -/
def raiseFault (p : Port) (w : Word) (c : Cause) (s : State) : State :=
  respond p .fault (BitVec.ofNat 16 (Cause.code c)) (recordFault p w c s)

/-- The output level `fault_o` (R34). -/
def State.faultO (s : State) : Bool := s.faultCause != 0

/-! Enabledness (R21, R22). -/

/-- A poll is in progress (R32). -/
def State.polling (s : State) : Bool := s.pollRem != 0

/-- SYNC_H is enabled (R103). -/
def State.syncHEnabled (s : State) : Bool := decide (s.cfg.syncMode = .deferred) && decide (s.headC ≠ s.head)

/-- SYNC_T is enabled (R104). -/
def State.syncTEnabled (s : State) : Bool := decide (s.cfg.syncMode = .deferred) && decide (s.tailP ≠ s.tail)

/-- The frame of a consumer command: it is executed only while no poll is in progress (R21). `step` never executes one
otherwise (R186; log 4). -/
def whenNotPolling (s : State) (r : Result) : Result :=
  if s.polling then .fault .consumerBusy else r

/-- A step that either writes a state or stops. -/
def toResult : Except Fault State → Result
  | .ok s => .next s
  | .error f => .fault f

end Sys2Proof.Machine
end

