-- ==== Sys2Proof/Machine/Operands.lean ====
section
/-! DEFINITION. The operand of DECODE turned into frame bytes and bits (42_channel_decoder.md §2, 20_memory.md R52, R58). -/

namespace Sys2Proof.Machine

/-- `bo = 1 + (p >> 3)` with `p = 11 * ch` (R141). -/
def byteOffset (ch : Nat) : Nat := 1 + (11 * ch) / 8

/-- `sh = p & 7` (R141). -/
def bitOffset (ch : Nat) : Nat := (11 * ch) % 8

/-- The 24-bit little-endian window (R141, R52). -/
def window24 (b0 b1 b2 : Byte) : BitVec 24 :=
  b0.setWidth 24 ||| (b1.setWidth 24 <<< 8) ||| (b2.setWidth 24 <<< 16)

/-- The 16-bit little-endian window (R142, R52). -/
def window16 (b0 b1 : Byte) : BitVec 16 := b0.setWidth 16 ||| (b1.setWidth 16 <<< 8)

/-- Extract24(ch) from its three bytes, zero-extended (R141). -/
def field24 (ch : Nat) (b0 b1 b2 : Byte) : Word :=
  ((window24 b0 b1 b2 >>> bitOffset ch) &&& 0x7FF#24).setWidth 16

/-- Extract16(ch) from its two bytes, zero-extended (R142). -/
def field16 (ch : Nat) (b0 b1 : Byte) : Word := (window16 b0 b1 >>> bitOffset ch) &&& 0x7FF#16

/-- Extract24(ch) (R141): the bytes at `bo`, `bo + 1`, `bo + 2` of `vframe`. -/
def extract24 (ch : Nat) (s : State) : Except Fault Word :=
  match memRead .vf (byteOffset ch) s, memRead .vf (byteOffset ch + 1) s, memRead .vf (byteOffset ch + 2) s with
  | .ok b0, .ok b1, .ok b2 => .ok (field24 ch b0 b1 b2)
  | .error f, _, _ => .error f
  | _, .error f, _ => .error f
  | _, _, .error f => .error f

/-- Extract16(ch) (R142): the bytes at `bo` and `bo + 1` of `vframe`. -/
def extract16 (ch : Nat) (s : State) : Except Fault Word :=
  match memRead .vf (byteOffset ch) s, memRead .vf (byteOffset ch + 1) s with
  | .ok b0, .ok b1 => .ok (field16 ch b0 b1)
  | .error f, _ => .error f
  | _, .error f => .error f

/-- The extraction CH_WINDOW selects (R4, R140). -/
def extract (ch : Nat) (s : State) : Except Fault Word :=
  match s.cfg.chWindow with
  | .w24 => extract24 ch s
  | .w16 => extract16 ch s

end Sys2Proof.Machine
end

