-- ==== Sys2Proof/Machine/ChannelDecoder.lean ====
section
/-! DEFINITION. The channel unpacker (42_channel_decoder.md): DECODE. -/

namespace Sys2Proof.Machine

/-- DECODE ch (R140): the range check comes before the frame check. -/
def execDecode (ch : Nat) (s : State) : Result :=
  whenNotPolling s <|
    if ch > 15 then .next (raiseFault .C (encode (.decode ch)) .idxRange s)
    else if s.vvalid = false then .next (raiseFault .C (encode (.decode ch)) .noFrame s)
    else
      match extract ch s with
      | .error f => .fault f
      | .ok v => .next (respond .C .ok v s)

end Sys2Proof.Machine
end

