-- ==== Sys2Proof/Machine/Flags.lean ====
section
/-! DEFINITION. The status code of a response, the completion status of a poll, and the status words RDSTAT reads
(30_encoding.md R82, 41_frame_assembler.md R122, 43_status.md R151 to R154). The block has no flags register (R38). -/

namespace Sys2Proof.Machine

/-- The 4-bit code of a status (R82). -/
def Status.code : Status → BitVec 4
  | .ok    => 0x0
  | .empty => 0x1
  | .full  => 0x2
  | .new   => 0x3
  | .none  => 0x4
  | .bad   => 0x5
  | .fault => 0xF

/-- `status(nw, bd)` (R122): NEW before BAD before NONE. -/
def pollStatus (nw bd : Bool) : Status :=
  if nw then .new else if bd then .bad else .none

/-- The bit of `asm_st` (R28). -/
def AsmSt.bit : AsmSt → BitVec 1
  | .idle    => 0
  | .filling => 1

/-- The bit of a port in the fault word (R34): 0 P, 1 C. -/
def portBit : Port → BitVec 1
  | .P => 0
  | .C => 1

/-- The bit of SYNC_MODE in the configuration word (R153). -/
def syncBit : SyncMode → BitVec 1
  | .deferred  => 0
  | .immediate => 1

/-- The bit of CH_WINDOW in the configuration word (R153). -/
def windowBit : ChWindow → BitVec 1
  | .w24 => 0
  | .w16 => 1

/-- A field `v` of a status word whose lowest bit is bit `lo`; every other bit is 0. -/
def fieldAt (lo : Nat) {n : Nat} (v : BitVec n) : Word := v.setWidth 16 <<< lo

/-- The ASM word (R152): ASM_CNT 4:0, ASM_ST 5, VVALID 6. -/
def asmWord (s : State) : Word :=
  fieldAt 0 s.asmCnt ||| fieldAt 5 (AsmSt.bit s.asmSt) ||| fieldAt 6 (BitVec.ofBool s.vvalid)

/-- The CONFIG word (R153): K 4:0, SYNC 8, WIN16 9. -/
def configWord (c : Config) : Word :=
  fieldAt 0 (BitVec.ofNat 5 c.k) ||| fieldAt 8 (syncBit c.syncMode) ||| fieldAt 9 (windowBit c.chWindow)

/-- The FAULT word (R154): the cause bits 3:0, FPORT 8. -/
def faultRecordWord (s : State) : Word :=
  fieldAt 0 s.faultCause ||| fieldAt 8 (portBit s.faultPort)

/-- `StatWord(sel)` (R151); none for the selectors 9..15, which have no word. -/
def statWord (sel : Nat) (s : State) : Option Word :=
  match sel with
  | 0 => some s.cntOvf
  | 1 => some s.cntResync
  | 2 => some s.cntEnderr
  | 3 => some s.cntSumerr
  | 4 => some s.cntFrame
  | 5 => some (asmWord s)
  | 6 => some (faultRecordWord s)
  | 7 => some s.faultWord
  | 8 => some (configWord s.cfg)
  | _ => none

end Sys2Proof.Machine
end

