-- ==== Sys2Proof/Machine/FrameAssembler.lean ====
section
/-! DEFINITION. The frame synchronizer and validator (41_frame_assembler.md): AsmStep, Validate, POLL, the poll micro-step. -/

namespace Sys2Proof.Machine

/-- What AsmStep says of a byte (41 §2). -/
inductive Event where
  | kept
  | discard
  | endErr
  | sumErr
  | frame
  deriving DecidableEq, Repr

/-- Byte `j` of a window of 25 bytes. -/
def windowByte (f : List Byte) (j : Nat) : Byte := f.getD j 0

/-- The sum of bytes 0..22 modulo 256, an integer sum before the modulus (R126, R7). -/
def checksum (f : List Byte) : Byte := BitVec.ofNat 8 ((f.take sumLen).map BitVec.toNat).sum

/-- Check 1 (R125): byte 24 is END_MARKER. -/
def endOk (f : List Byte) : Bool := windowByte f 24 == endMarker

/-- Check 2 (R126): byte 23 is the checksum. -/
def sumOk (f : List Byte) : Bool := checksum f == windowByte f 23

/-- A frame failing the end-marker check is counted (R33, R125). -/
def countEnderr (s : State) : State := { s with cntEnderr := s.cntEnderr + 1 }

/-- A frame failing the checksum check is counted (R33, R126). -/
def countSumerr (s : State) : State := { s with cntSumerr := s.cntSumerr + 1 }

/-- A byte discarded in IDLE is counted (R33, R123). -/
def countResync (s : State) : State := { s with cntResync := s.cntResync + 1 }

/-- A frame that passed is counted and marked valid (R127). -/
def acceptFrame (s : State) : State := { s with vvalid := true, cntFrame := s.cntFrame + 1 }

/-- A start marker opens a partial frame of one byte (R123). -/
def openFrame (s : State) : State := { s with asmCnt := 1, asmSt := .filling }

/-- The partial frame has one byte more (R124). -/
def growFrame (s : State) : State := { s with asmCnt := s.asmCnt + 1 }

/-- The frame is complete and the assembler is back in IDLE (R124). -/
def closeFrame (s : State) : State := { s with asmSt := .idle, asmCnt := 0 }

/-- Validate(F) (R125, R126, R127), in that order. -/
def validate (f : List Byte) (s : State) : Except Fault (Event × State) :=
  if endOk f = false then .ok (.endErr, countEnderr s)
  else if sumOk f = false then .ok (.sumErr, countSumerr s)
  else
    match writeRun .vf 0 f s with
    | .error e => .error e
    | .ok t => .ok (.frame, acceptFrame t)

/-- AsmStep(b) in IDLE (R123). -/
def asmStepIdle (b : Byte) (s : State) : Except Fault (Event × State) :=
  if b = startMarker then
    match memWrite .fb 0 b s with
    | .error e => .error e
    | .ok t => .ok (.kept, openFrame t)
  else .ok (.discard, countResync s)

/-- AsmStep(b) in FILLING (R124). -/
def asmStepFilling (b : Byte) (s : State) : Except Fault (Event × State) :=
  match memWrite .fb s.asmCnt.toNat b s with
  | .error e => .error e
  | .ok t =>
    if s.asmCnt.toNat + 1 < frameLen then .ok (.kept, growFrame t)
    else
      match readRun .fb 0 24 t with
      | .error e => .error e
      | .ok f => validate (f ++ [b]) (closeFrame t)

/-- AsmStep(b) (R123, R124). -/
def asmStep (b : Byte) (s : State) : Except Fault (Event × State) :=
  match s.asmSt with
  | .idle => asmStepIdle b s
  | .filling => asmStepFilling b s

/-- The events that set `poll_bad` (R121): DISCARD, ENDERR, SUMERR. -/
def Event.isBad : Event → Bool
  | .kept    => false
  | .discard => true
  | .endErr  => true
  | .sumErr  => true
  | .frame   => false

/-- The event that sets `poll_new` (R121). -/
def Event.isFrame : Event → Bool
  | .kept    => false
  | .discard => false
  | .endErr  => false
  | .sumErr  => false
  | .frame   => true

/-- The end of a poll micro-step (R121): the two poll flags, the count down, and the response with the snapshot's last byte. -/
def pollCount (ev : Event) (s : State) : State :=
  let nw := s.pollNew || Event.isFrame ev
  let bd := s.pollBad || Event.isBad ev
  { s with
    pollNew := nw
    pollBad := bd
    pollRem := s.pollRem - 1
    response := if s.pollRem = 1 then some { port := .C, status := pollStatus nw bd, value := s.pollLen } else none }

/-- The poll micro-step, where it is enabled (R121). -/
def microStep (s : State) : Result :=
  match takeByte s with
  | .error f => .fault f
  | .ok (b, t) =>
    match asmStep b t with
    | .error f => .fault f
    | .ok (ev, u) => .next (pollCount ev u)

/-- The snapshot a POLL takes (R120). -/
def startPoll (n : Nat) (s : State) : State :=
  { s with pollLen := BitVec.ofNat 16 n, pollNew := false, pollBad := false, pollRem := BitVec.ofNat 16 n }

/-- POLL (R120): an empty snapshot completes at once, any other in its last micro-step. -/
def execPoll (s : State) : Result :=
  whenNotPolling s <|
    if s.visible = 0 then .next (respond .C .none 0 (startPoll s.visible s))
    else .next (noResponse (startPoll s.visible s))

end Sys2Proof.Machine
end

