-- ==== Sys2Proof/Machine/RingBuffer.lean ====
section
/-! DEFINITION. The ring buffer (40_ring_buffer.md): PUSH, POP, LEN and the two synchronizer steps. -/

namespace Sys2Proof.Machine

/-- A PUSH that finds no room is counted (R33, R100). -/
def countOverflow (s : State) : State := { s with cntOvf := s.cntOvf + 1 }

/-- PUSH imm8 (R100). -/
def execPush (imm8 : Byte) (s : State) : Result :=
  if nextIndex s.cfg s.head = s.tailP then .next (respond .P .full 0 (countOverflow s))
  else
    match memWrite .rb s.head imm8 s with
    | .error f => .fault f
    | .ok t => .next (respond .P .ok 0 (advanceHead t))

/-- POP (R101). -/
def execPop (s : State) : Result :=
  whenNotPolling s <|
    if s.headC = s.tail then .next (respond .C .empty 0 s)
    else
      match takeByte s with
      | .error f => .fault f
      | .ok (b, t) => .next (respond .C .ok (b.setWidth 16) t)

/-- LEN (R102). -/
def execLen (s : State) : Result :=
  whenNotPolling s <| .next (respond .C .ok (BitVec.ofNat 16 s.visible) s)

/-- SYNC_H, where it is enabled (R103). -/
def syncH (s : State) : State := noResponse { s with headC := nextIndex s.cfg s.headC }

/-- SYNC_T, where it is enabled (R104). -/
def syncT (s : State) : State := noResponse { s with tailP := nextIndex s.cfg s.tailP }

end Sys2Proof.Machine
end

