-- ==== Sys2Proof/Machine/StatusRead.lean ====
section
/-! DEFINITION. The status read (43_status.md): RDSTAT. -/

namespace Sys2Proof.Machine

/-- RDSTAT sel (R150): a selector with no status word faults ILLEGAL. -/
def execRdstat (sel : Nat) (s : State) : Result :=
  whenNotPolling s <|
    match statWord sel s with
    | some w => .next (respond .C .ok w s)
    | none => .next (raiseFault .C (encode (.rdstat sel)) .illegal s)

end Sys2Proof.Machine
end

