-- ==== Sys2Proof/Machine/Dispatch.lean ====
section
/-! DEFINITION. The dispatch of an accepted command to its meaning (R83, R71). -/

namespace Sys2Proof.Machine

def exec (i : Instr) (s : State) : Host.Outcome State Fault Refusal :=
  match i with
  -- 40_ring_buffer.md
  | .push imm8 => Sys2Proof.Machine.execPush imm8 s
  | .pop => Sys2Proof.Machine.execPop s
  | .len => Sys2Proof.Machine.execLen s
  -- 41_frame_assembler.md
  | .poll => Sys2Proof.Machine.execPoll s
  -- 42_channel_decoder.md
  | .decode ch => Sys2Proof.Machine.execDecode ch s
  -- 43_status.md
  | .rdstat sel => Sys2Proof.Machine.execRdstat sel s

end Sys2Proof.Machine
end

