-- ==== Sys2Proof/Machine/Reset.lean ====
section
/-! DEFINITION. The reset step (70_reset_and_hazards.md §1). -/

namespace Sys2Proof.Machine

/-- The reset step (R180, R181), enabled in every state, with no response. It writes no storage, which holds any value from
then on (R40): each byte is drawn anew, and one value a draw may give is the byte that stood there (log 6). The configuration, the
turns to come and the free choice's counter are not the reset's to write. -/
def resetStep (s : State) : State :=
  { s with
    slot := [], fbuf := [], vframe := [], storageDraw := s.storageDraw + 1
    head := 0, tail := 0, headC := 0, tailP := 0
    asmSt := .idle, asmCnt := 0
    vvalid := false
    pollRem := 0, pollLen := 0, pollNew := false, pollBad := false
    cntOvf := 0, cntResync := 0, cntEnderr := 0, cntSumerr := 0, cntFrame := 0
    faultCause := 0, faultWord := 0, faultPort := .P
    response := none }

end Sys2Proof.Machine
end

