-- ==== Sys2Proof/Machine/Agents.lean ====
section
/-! DEFINITION. The agents and their turns (10_state.md §1): which step a turn takes, and what the block does with none left. -/

namespace Sys2Proof.Machine

/-- The agent on port `p` issues word `w` (R83, R9): a word the decode refuses raises its fault, an accepted one is executed. -/
def issue (p : Port) (w : Word) (s : State) : Result :=
  match decodeAt p w with
  | .error c => .next (raiseFault p w c s)
  | .ok i => exec i s

/-- The turns that are enabled steps (R21, R22): a word on P always, a word on C with no poll in progress, the micro-step with one,
each synchronizer step where R22 says so, reset always. -/
def Turn.enabled (s : State) : Turn → Bool
  | .command .P _ => true
  | .command .C _ => !s.polling
  | .microStep => s.polling
  | .syncH => s.syncHEnabled
  | .syncT => s.syncTEnabled
  | .reset => true

/-- The block's own steps, the weakly fair ones (R23). -/
def ownSteps : List Turn := [.microStep, .syncH, .syncT]

/-- A turn put back in front: it is still to come. -/
def putBack (t : Turn) (s : State) : State := { s with turns := t :: s.turns }

/-- One turn, already taken from the list. The agent takes the step R20 to R22 enable it for. The consumer's only step while a
poll is in progress is the micro-step, so a word on port C waits for it (R21, R186; log 4). A turn whose agent has no enabled
step passes (log 3). -/
def runTurn (t : Turn) (s : State) : Result :=
  match t with
  | .command .P w => issue .P w s
  | .command .C w => if s.polling then microStep (putBack (.command .C w) s) else issue .C w s
  | .microStep => if s.polling then microStep s else .next (noResponse s)
  | .syncH => if s.syncHEnabled then .next (syncH s) else .next (noResponse s)
  | .syncT => if s.syncTEnabled then .next (syncT s) else .next (noResponse s)
  | .reset => .next (resetStep s)

/-- The block's own steps that are enabled. -/
def State.ownTurns (s : State) : List Turn := ownSteps.filter (Turn.enabled s)

/-- The state with the free choice drawn. -/
def drawChoice (s : State) : State := { s with freeCount := s.freeCount + 1 }

/-- With no turn left the outside is silent (R21: no agent is obliged to issue a command): the block takes one of its own
enabled steps, which one being free (R23; log 5), and none when none is enabled (R194). -/
def runOwn (s : State) : Result :=
  match s.ownTurns[Config.freeChoice s.freeCount % s.ownTurns.length]? with
  | some t => runTurn t (drawChoice s)
  | none => .next (noResponse s)

/-- One step of the block: one step of one agent (R23). -/
def nextTurn (s : State) : Result :=
  match s.turns with
  | t :: ts => runTurn t { s with turns := ts }
  | [] => runOwn s

/-- The state with word `w` presented on port `p` as the very next turn, and the consumer free to issue it where the port is
C: a poll in progress would hold the word back (R21; log 8). -/
def present (p : Port) (w : Word) (s : State) : State :=
  { s with
    turns := .command p w :: s.turns
    pollRem := match p with
      | .P => s.pollRem
      | .C => 0 }

end Sys2Proof.Machine
end

