-- ==== Sys2Proof/Machine/Step.lean ====
section
/-! DEFINITION. One step of the machine, and how the host places a word for it. -/

namespace Sys2Proof.Machine

/-- One step (R9, R23). -/
def step (s : State) : Host.Outcome State Fault Refusal := nextTurn s

/-- `s` with the word whose bits are the low `nbits` bits of `w` presented on the port that admits it, as the next turn (log 8).
DESIGN CHOICE (log 8): of a word of more than 16 bits, which no command is (R84), it presents the low 16, while `decodeTableWord` refuses
it; of a word of fewer, the bits above are 0. -/
def State.withFetchWord (s : State) (nbits w : Nat) : State :=
  present (admittingPort (BitVec.ofNat 16 (w % 2 ^ nbits))) (BitVec.ofNat 16 (w % 2 ^ nbits)) s

end Sys2Proof.Machine
end

