-- ==== Sys2Proof/Machine/Program.lean ====
section
/-! DEFINITION. Program lines and what they stand for (30_encoding.md §6, R85, R86), as data: the text of a line is not parsed (log 11). -/

namespace Sys2Proof.Machine

/-- One line of a program (R85, R86). -/
inductive Line where
  /-- `<port>: <mnemonic> [<operand>]` (R85). -/
  | command (p : Port) (i : Instr)
  /-- `<port>: .word w` (R86). -/
  | word (p : Port) (w : Word)
  /-- `P: PUSHFRAME b0, ..., b24` (R86). -/
  | pushFrame (bs : List Byte)
  /-- `P: PUSHBYTES b0, ..., bm` (R86). -/
  | pushBytes (bs : List Byte)
  /-- `SYNC`: the synchronizer takes every enabled step now (R85). -/
  | sync
  deriving DecidableEq, Repr

/-- A line the assembler accepts: the operand fits (R85), PUSHFRAME has 25 bytes, PUSHBYTES at least one (R86), and a mnemonic
stands on the port that admits it. DEDUCED (log 15): R85 lets `<port>` be P or C, and R86 says that no mnemonic produces a command
on the wrong port, which is what `.word` is for; so `C: PUSH 0x55` is an assembler error. -/
def Line.wf : Line → Bool
  | .command p i => i.wf && p == i.port
  | .word _ _ => true
  | .pushFrame bs => bs.length == frameLen
  | .pushBytes bs => !bs.isEmpty
  | .sync => true

/-- The PUSH lines of a byte list, in order (R86). -/
def pushTurns (bs : List Byte) : List Turn := bs.map fun b => .command .P (encode (.push b))

/-- The turns of a SYNC line: as many synchronizer turns each way as a view can ever lag, N - 1 (R106); the ones that find nothing
to carry pass (log 3, log 11). -/
def syncTurns (c : Config) : List Turn := List.replicate (c.n - 1) .syncH ++ List.replicate (c.n - 1) .syncT

/-- The turns an accepted line stands for (R85, R86). -/
def Line.expand (c : Config) : Line → List Turn
  | .command p i => [.command p (encode i)]
  | .word p w => [.command p w]
  | .pushFrame bs => pushTurns bs
  | .pushBytes bs => pushTurns bs
  | .sync => syncTurns c

/-- The turns a line stands for; none for a line that is an assembler error, which is no word (R85). -/
def Line.turns (c : Config) (l : Line) : Option (List Turn) := if l.wf then some (l.expand c) else none

/-- The turns of a program, its lines in the order written (R85); none if one of them is an assembler error. -/
def assemble (c : Config) : List Line → Option (List Turn)
  | [] => some []
  | l :: ls =>
    match l.turns c, assemble c ls with
    | some ts, some us => some (ts ++ us)
    | _, _ => none

/-- The state with a program's turns still to come; none for a program with an assembler error. -/
def loadProgram (lines : List Line) (s : State) : Option State :=
  match assemble s.cfg lines with
  | some ts => some { s with turns := s.turns ++ ts }
  | none => none

end Sys2Proof.Machine
end

