-- ==== Sys2Proof/Machine/Run.lean ====
section
/-! DEFINITION. The runs of the block (R23), of any length and without end: what a run is, and which runs are
weakly fair. A run stands outside the state: it is a sequence of states and of the turns taken between them. -/

namespace Sys2Proof.Machine

/-- One link of a run: an enabled turn taken by the step of the machine, or, where there is no turn, nobody moving. -/
def State.link (s : State) (u : Option Turn) (t : State) : Prop :=
  match u with
  | some v => Turn.enabled s v = true ∧ step { s with turns := [v] } = .next t
  | none => t = { s with response := none }

/-- A run (R23): it starts from the reset state of some configuration, with whatever storage then holds (R40), and every link of it
is an enabled turn, any enabled turn; the producer, the consumer and reset may go on for ever. In a run that ends, nobody moves
from some point on. -/
def isRun (states : Nat → State) (turns : Nat → Option Turn) : Prop :=
  (∃ (c : Config) (draw : Nat), c.wf ∧ states 0 = { State.resetOf c with storageDraw := draw }) ∧
    ∀ k, (states k).link (turns k) (states (k + 1))

/-- Weak fairness (R23): no step of the block's own stays enabled from some point on without being taken. No fairness is assumed of
the producer's and the consumer's commands, nor of reset. -/
def weaklyFair (states : Nat → State) (turns : Nat → Option Turn) : Prop :=
  ∀ v ∈ ownSteps, ¬ ∃ k, ∀ m, k ≤ m → Turn.enabled (states m) v = true ∧ turns m ≠ some v

/-- From link `k` on the producer issues no PUSH and the consumer no POP and no POLL (R111); every other word, and reset, may come. -/
def quietFrom (turns : Nat → Option Turn) (k : Nat) : Prop :=
  ∀ m, k ≤ m → (∀ b, turns m ≠ some (.command .P (encode (.push b)))) ∧
    turns m ≠ some (.command .C (encode .pop)) ∧ turns m ≠ some (.command .C (encode .poll))

/-- The synchronizer step that R105 sets at once after a turn of an IMMEDIATE run, in the DEFERRED run with the same responses: SYNC_H
after an accepted PUSH, SYNC_T after a POP that returns OK and after a poll micro-step. The turn and its response tell which. -/
def syncAfter (u : Option Turn) (r : Option Response) : Option Turn :=
  match u with
  | some (.command .P _) => if r.any (·.status == .ok) then some .syncH else none
  | some (.command .C w) => if w == encode .pop && r.any (·.status == .ok) then some .syncT else none
  | some .microStep => some .syncT
  | some .syncH => none
  | some .syncT => none
  | some .reset => none
  | none => none

/-- How many of the `d` links from link `k` on take a turn that passes the test. -/
def turnCount (turns : Nat → Option Turn) (test : Turn → Bool) (k d : Nat) : Nat :=
  (List.range d).countP fun j => (turns (k + j)).any test

end Sys2Proof.Machine
end

