-- ==== Sys2Proof/Safety.lean ====
section
/-! DEFINITION. What counts as a safe state and a safe run, in the terms the claims use. -/

namespace Sys2Proof.Machine

/-! What the storage holds. -/

/-- The bytes the ring buffer holds, oldest first: the slots from `tail` up to `head` (R26, R107). -/
def State.held (s : State) : List (Option Byte) :=
  (List.range s.occupancy).map fun j => s.byteAt .rb ((s.tail + j) % s.cfg.n)

/-- The bytes listed in the valid-frame register, in order (R31). -/
def State.frameBytes (s : State) : List Byte := (List.range frameLen).filterMap (s.byteAt .vf)

/-- A valid frame (00_scope.md §6): 25 bytes, START_MARKER first, END_MARKER last, the checksum in byte 23. -/
abbrev validFrame (f : List Byte) : Prop :=
  f.length = frameLen ∧ windowByte f 0 = startMarker ∧ endOk f = true ∧ sumOk f = true

/-- Bit `q` of a frame: bit `q mod 8` of byte `q div 8` (R58). -/
def frameBit (f : List Byte) (q : Nat) : Bool := (windowByte f (q / 8)).getLsbD (q % 8)

/-! The invariant, part by part. -/

/-- The indices are K-bit numbers (R2, R26, R27). -/
abbrev State.indexForm (s : State) : Prop :=
  s.head < s.cfg.n ∧ s.tail < s.cfg.n ∧ s.headC < s.cfg.n ∧ s.tailP < s.cfg.n

/-- The occupancy bound (R106). -/
abbrev State.ringBound (s : State) : Prop := s.lagH + s.visible + s.lagT ≤ s.cfg.n - 1

/-- In IMMEDIATE mode the views equal the indices (R27). -/
abbrev State.viewForm (s : State) : Prop :=
  s.cfg.syncMode = .immediate → s.headC = s.head ∧ s.tailP = s.tail

/-- `asm_cnt` is 0 in IDLE and 1..24 in FILLING (R28). -/
abbrev State.asmForm (s : State) : Prop :=
  (s.asmSt = .idle → s.asmCnt = 0) ∧ (s.asmSt = .filling → 1 ≤ s.asmCnt.toNat ∧ s.asmCnt.toNat ≤ 24)

/-- The three spaces are in canonical form and list no address outside themselves (R50). -/
abbrev State.storageForm (s : State) : Prop :=
  (Memory.wf s.slot = true ∧ Memory.wf s.fbuf = true ∧ Memory.wf s.vframe = true) ∧
    (∀ c ∈ s.slot, c.1 < s.cfg.n) ∧ (∀ c ∈ s.fbuf, c.1 < frameLen) ∧ (∀ c ∈ s.vframe, c.1 < frameLen)

/-- Every slot between `tail` and `head` holds a byte written since reset (R25). -/
abbrev State.slotsWritten (s : State) : Prop := ∀ b ∈ s.held, b.isSome = true

/-- In FILLING the partial frame's bytes were written, and the first is the start marker (R30, R126). -/
abbrev State.partialWritten (s : State) : Prop :=
  s.asmSt = .filling →
    (∀ j < s.asmCnt.toNat, (s.byteAt .fb j).isSome = true) ∧ s.byteAt .fb 0 = some startMarker

/-- With `vvalid` the valid-frame register holds a valid frame (R31). -/
abbrev State.frameKept (s : State) : Prop := s.vvalid = true → validFrame s.frameBytes

/-- A poll never has more left to drain than the consumer can see (R138), nor than it counted (R32). -/
abbrev State.pollBound (s : State) : Prop := s.pollRem.toNat ≤ s.visible ∧ s.pollRem.toNat ≤ s.pollLen.toNat

/-- The fault record is 0 while no fault is recorded (R154). -/
abbrev State.faultForm (s : State) : Prop := s.faultCause = 0 → s.faultWord = 0 ∧ s.faultPort = .P

/-- The invariant of the block. -/
abbrev State.Inv (s : State) : Prop :=
  s.cfg.wf ∧ s.indexForm ∧ s.ringBound ∧ s.viewForm ∧ s.asmForm ∧ s.storageForm ∧ s.slotsWritten ∧
    s.partialWritten ∧ s.frameKept ∧ s.pollBound ∧ s.faultForm

/-- Two states whose assembler and valid frame are the same (R28 to R31, R33). -/
abbrev sameAssembler (s t : State) : Prop :=
  t.asmSt = s.asmSt ∧ t.asmCnt = s.asmCnt ∧ t.fbuf = s.fbuf ∧ t.vframe = s.vframe ∧ t.vvalid = s.vvalid ∧
    t.cntResync = s.cntResync ∧ t.cntEnderr = s.cntEnderr ∧ t.cntSumerr = s.cntSumerr ∧ t.cntFrame = s.cntFrame

/-- Two states with the same fault record (R34). -/
abbrev sameFaultRecord (s t : State) : Prop :=
  t.faultCause = s.faultCause ∧ t.faultWord = s.faultWord ∧ t.faultPort = s.faultPort

/-- Two states with the same poll state (R32). -/
abbrev samePoll (s t : State) : Prop :=
  t.pollRem = s.pollRem ∧ t.pollLen = s.pollLen ∧ t.pollNew = s.pollNew ∧ t.pollBad = s.pollBad

/-! Runs. -/

/-- No fault is recorded: the premise every claim about a run takes (R165, R194). -/
abbrev State.faultFree (s : State) : Prop := s.faultCause = 0

/-- Quiescent (R194): no step of the block is forced. -/
abbrev State.quiescent (s : State) : Prop :=
  s.pollRem = 0 ∧ (s.cfg.syncMode = .deferred → s.headC = s.head ∧ s.tailP = s.tail)

/-- How many of its own steps the block can still take: each byte of a poll is a micro-step and one position for SYNC_T to
carry, and each lag is one SYNC step a position (R111, R138, R195). -/
def State.ownWork (s : State) : Nat := 2 * s.pollRem.toNat + s.lagH + s.lagT

/-- The number of bytes the assembler has taken since reset, modulo 2^16, as the counters tell it (R136, R156). -/
def State.bytesTaken (s : State) : Word :=
  s.cntResync + 25 * (s.cntEnderr + s.cntSumerr + s.cntFrame) + s.asmCnt.setWidth 16

/-- The byte a step from `s` to `t` accepted from a PUSH, if any (R107). -/
def acceptedByte (s t : State) : Option Byte :=
  match s.turns with
  | .command .P w :: _ =>
    match decodeAt .P w with
    | .ok (.push b) => if t.response = some { port := .P, status := .ok, value := 0 } then some b else none
    | _ => none
  | _ => none

/-- The byte a step from `s` to `t`, not a reset, read from the ring buffer, if any: such a step moves `tail` (R56, R107). -/
def readByte (s t : State) : Option Byte := if t.tail = s.tail then none else s.byteAt .rb s.tail

/-- `k` steps: the state after, the bytes accepted and the bytes read, oldest first (R107); none if a step stops. -/
def traffic : Nat → State → Option (State × List Byte × List Byte)
  | 0, s => some (s, [], [])
  | k + 1, s =>
    match step s with
    | .next t =>
      match traffic k t with
      | some (u, accepted, taken) => some (u, (acceptedByte s t).toList ++ accepted, (readByte s t).toList ++ taken)
      | none => none
    | .fault _ => none
    | .refused _ => none

/-- A byte sequence passed to AsmStep one byte at a time: the events, oldest first, and the state after (R131, R133). -/
def feed : List Byte → State → Except Fault (List Event × State)
  | [], s => .ok ([], s)
  | b :: bs, s =>
    match asmStep b s with
    | .error f => .error f
    | .ok (e, t) =>
      match feed bs t with
      | .error f => .error f
      | .ok (es, u) => .ok (e :: es, u)

/-- The complete windows of a byte sequence scanned from IDLE (R131): a scanned START_MARKER opens a window of 25 bytes and the
byte after the window is scanned next; any other scanned byte is passed over. The first argument bounds the recursion. -/
def windowsFrom : Nat → List Byte → List (List Byte)
  | 0, _ => []
  | _, [] => []
  | n + 1, b :: bs =>
    if b = startMarker then
      if 24 ≤ bs.length then (b :: bs.take 24) :: windowsFrom n (bs.drop 24) else []
    else windowsFrom n bs

/-- The complete windows of a byte sequence scanned from IDLE (R131). -/
def scannedWindows (bs : List Byte) : List (List Byte) := windowsFrom bs.length bs

/-- The windows of a byte sequence that are valid frames, in order (R131). -/
def scannedFrames (bs : List Byte) : List (List Byte) := (scannedWindows bs).filter fun f => endOk f && sumOk f

/-- The number `D` the sixteen channel values pack into (R145). -/
def packed (c : Nat → BitVec 11) : Nat := ((List.range 16).map fun i => (c i).toNat * 2 ^ (11 * i)).sum

end Sys2Proof.Machine
end

