-- ==== Sys2Proof/Certificates/Slice0/Obligations.lean ====
section
/-! DEFINITION. The statements for the provers, from the numbered rules of the spec. Each docstring names the rule it formalises
and says which clause, if any, is the model's own. -/

open Sys2Proof Sys2Proof.Machine

/-! ## Encoding (30_encoding.md) -/

/-- R72 to R76, R79: a well-formed command decodes back from its word on its own port, with every operand at every value its
field admits, and faults WRONG_PORT on the other port. -/
def Obligations.EncodedCommandDecodesBack : Prop :=
  ∀ i : Instr, i.wf = true →
    decodeWord (encode i) = .ok i ∧
    ∀ p : Port, decodeAt p (encode i) = if p = i.port then .ok i else .error .wrongPort

/-- R73, R80, R83: a word that decodes is the one word of the command it decodes to, on the one port that admits it. -/
def Obligations.DecodedWordIsTheCommandsWord : Prop :=
  ∀ (p : Port) (w : Word) (i : Instr), decodeAt p w = .ok i → encode i = w ∧ i.wf = true ∧ i.port = p

/-- R77, R78, R79, R83 with the matches and masks of R72 to R75: what any word gives on either port, in the order of the checks. -/
def Obligations.EveryWordDecodesByTheOpcodeMap : Prop :=
  ∀ (w : Word),
    (w.toNat / 4096 = 0 ∨ 7 ≤ w.toNat / 4096 → ∀ p, decodeAt p w = .error .illegal) ∧
    (w.toNat / 4096 = 1 → decodeAt .C w = .error .wrongPort ∧
      decodeAt .P w = if w &&& 0xFF00#16 = 0x1000#16 then .ok (.push (w.setWidth 8)) else .error .illegal) ∧
    (2 ≤ w.toNat / 4096 ∧ w.toNat / 4096 ≤ 6 → decodeAt .P w = .error .wrongPort) ∧
    (w.toNat / 4096 = 2 → decodeAt .C w = if w = 0x2000#16 then .ok .pop else .error .illegal) ∧
    (w.toNat / 4096 = 3 → decodeAt .C w = if w = 0x3000#16 then .ok .len else .error .illegal) ∧
    (w.toNat / 4096 = 4 → decodeAt .C w = if w = 0x4000#16 then .ok .poll else .error .illegal) ∧
    (w.toNat / 4096 = 5 →
      decodeAt .C w = if w &&& 0xFFE0#16 = 0x5000#16 then .ok (.decode (w.toNat % 32)) else .error .illegal) ∧
    (w.toNat / 4096 = 6 →
      decodeAt .C w = if w &&& 0xFFF0#16 = 0x6000#16 then .ok (.rdstat (w.toNat % 16)) else .error .illegal)

/-- A few words written out from the encodings of R72 to R75, and what they decode to. -/
def Obligations.WrittenOutWordsDecode : Prop :=
  decodeAt .P 0b0001000001000010#16 = .ok (.push 0x42) ∧
  decodeAt .C 0b0010000000000000#16 = .ok .pop ∧
  decodeAt .C 0b0011000000000000#16 = .ok .len ∧
  decodeAt .C 0b0100000000000000#16 = .ok .poll ∧
  decodeAt .C 0b0101000000010101#16 = .ok (.decode 21) ∧
  decodeAt .C 0b0110000000001000#16 = .ok (.rdstat 8)

/-! ## A step (10_state.md §1, 60_exceptions.md) -/

/-- R21, R83: when the next turn's word decodes on its port, and the port is P or no poll is in progress, the step runs exactly
the decoded command on the state without that turn. (The list of turns is the model's own, log 1.) -/
def Obligations.StepRunsTheDecodedCommand : Prop :=
  ∀ (s : State) (p : Port) (w : Word) (i : Instr) (ts : List Turn),
    s.turns = .command p w :: ts → (p = .P ∨ s.pollRem = 0) → decodeAt p w = .ok i →
    step s = exec i { s with turns := ts }

/-- The model's own (log 8), with R83: the state the host's word placement gives runs exactly that word's command next; only a
poll that would hold a consumer's word back is taken away. -/
def Obligations.PlacedWordIsTheNextCommand : Prop :=
  ∀ (s : State) (w : Word) (i : Instr), decodeWord w = .ok i →
    decodeTableWord 16 w.toNat = some i ∧
    step (s.withFetchWord 16 w.toNat) = exec i { s with pollRem := if i.port = .P then s.pollRem else 0 }

/-- R85, R86: a command line whose operand fits stands for its word on its port, `.word` for its word unchanged, and PUSHFRAME with
25 bytes and PUSHBYTES with at least one for one PUSH word on P for each byte in order; an operand that does not fit, and a byte
list of another length, is an assembler error and no word. A program is the turns of its lines in the order written, put behind the
turns to come. (The model's own, log 11: a POLL line is its POLL step alone, SYNC is N - 1 turns each way, and a program with an
assembler error is not loaded at all. That a mnemonic on the port that does not admit it is such an error is DEDUCED, log 15.) -/
def Obligations.ProgramLinesStandForTheirWords : Prop :=
  ∀ (c : Config),
    (∀ i, i.wf = true →
      Line.turns c (.command i.port i) = some [.command i.port (BitVec.ofNat 16 (4096 * i.op + i.operand))]) ∧
    (∀ p i, i.wf = false ∨ p ≠ i.port → Line.turns c (.command p i) = none) ∧
    (∀ p w, Line.turns c (.word p w) = some [.command p w]) ∧
    (∀ bs, bs.length = 25 → Line.turns c (.pushFrame bs) = some (bs.map fun b => .command .P (0x1000#16 ||| b.setWidth 16))) ∧
    (∀ bs, bs.length ≠ 25 → Line.turns c (.pushFrame bs) = none) ∧
    (∀ bs, bs ≠ [] → Line.turns c (.pushBytes bs) = some (bs.map fun b => .command .P (0x1000#16 ||| b.setWidth 16))) ∧
    Line.turns c (.pushBytes []) = none ∧
    Line.turns c .sync = some (List.replicate (c.n - 1) .syncH ++ List.replicate (c.n - 1) .syncT) ∧
    assemble c [] = some [] ∧ (∀ l, assemble c [l] = Line.turns c l) ∧
    (∀ ls ls' ts ts', assemble c ls = some ts → assemble c ls' = some ts' → assemble c (ls ++ ls') = some (ts ++ ts')) ∧
    (∀ ls l, l ∈ ls → Line.turns c l = none → assemble c ls = none) ∧
    (∀ ls (s : State), s.cfg = c →
      (∀ ts, assemble c ls = some ts → loadProgram ls s = some { s with turns := s.turns ++ ts }) ∧
      (assemble c ls = none → loadProgram ls s = none))

/-- R161, R163, R160: a word the decode refuses takes the fault its cause names. The step sets the cause's bit, keeps word and
port if no fault was recorded before, answers (FAULT, code), and changes nothing else; `fault_o` is 1 after it. -/
def Obligations.RefusedWordIsRecordedAndAnswered : Prop :=
  ∀ (s : State) (p : Port) (w : Word) (c : Cause) (ts : List Turn),
    s.turns = .command p w :: ts → (p = .P ∨ s.pollRem = 0) → decodeAt p w = .error c →
    ∃ t code, step s = .next t ∧
      ((c = .illegal ∧ code = 1) ∨ (c = .wrongPort ∧ code = 2) ∨ (c = .idxRange ∧ code = 3) ∨ (c = .noFrame ∧ code = 4)) ∧
      t = { s with
        turns := ts
        faultCause := s.faultCause ||| (1#4 <<< (code - 1))
        faultWord := if s.faultCause = 0 then w else s.faultWord
        faultPort := if s.faultCause = 0 then p else s.faultPort
        response := some { port := p, status := .fault, value := BitVec.ofNat 16 code } } ∧
      t.faultO = true

/-- R161, R163, R160: a command step that answers FAULT, whether the decode or the command raised it, changes only the fault record.
The value is the code of one cause: its bit is set, word and port are kept only if no fault was recorded before, every other
element is as before, and `fault_o` is 1 after the step. -/
def Obligations.FaultingCommandChangesOnlyTheFaultRecord : Prop :=
  ∀ (s t : State) (p : Port) (w v : Word) (ts : List Turn),
    s.turns = .command p w :: ts → (p = .P ∨ s.pollRem = 0) → step s = .next t →
    t.response = some { port := p, status := .fault, value := v } →
    ∃ code, 1 ≤ code ∧ code ≤ 4 ∧ v = BitVec.ofNat 16 code ∧
      t = { s with
        turns := ts
        faultCause := s.faultCause ||| (1#4 <<< (code - 1))
        faultWord := if s.faultCause = 0 then w else s.faultWord
        faultPort := if s.faultCause = 0 then p else s.faultPort
        response := some { port := p, status := .fault, value := v } } ∧
      t.faultO = true

/-- R21, R186: while a poll is in progress a word on port C waits: the step is the poll micro-step and the word is still the
next turn. (That it waits in front of the list is the model's own, log 4.) -/
def Obligations.ConsumerWordWaitsForThePoll : Prop :=
  ∀ (s : State) (w : Word) (ts : List Turn),
    s.turns = .command .C w :: ts → s.pollRem ≠ 0 → s.Inv →
    step s = microStep s ∧ ∃ t, step s = .next t ∧ t.turns = s.turns ∧ t.pollRem = s.pollRem - 1

/-- R21: the consumer has no command step while a poll is in progress: the meaning of each consumer command stops there by
name. (The stop is the model's own, log 4; no step reaches it.) -/
def Obligations.ConsumerCommandNeedsNoPollInProgress : Prop :=
  ∀ (s : State) (i : Instr), i.port = .C → s.pollRem ≠ 0 → exec i s = .fault .consumerBusy

/-- The model's own (logs 3 and 5), with R21, R22 and R194: a micro-step turn with no poll in progress, a SYNC_H or SYNC_T turn that is
not enabled, and a step with no turn left in a quiescent state, change nothing but that there is no response. (A word on C during a
poll does not pass but waits: `ConsumerWordWaitsForThePoll`. Every other turn is always enabled.) -/
def Obligations.TurnWithNoEnabledStepPasses : Prop :=
  ∀ (s : State) (ts : List Turn),
    (s.turns = .microStep :: ts → s.pollRem = 0 → step s = .next { s with turns := ts, response := none }) ∧
    (s.turns = .syncH :: ts → s.cfg.syncMode = .immediate ∨ s.headC = s.head →
      step s = .next { s with turns := ts, response := none }) ∧
    (s.turns = .syncT :: ts → s.cfg.syncMode = .immediate ∨ s.tailP = s.tail →
      step s = .next { s with turns := ts, response := none }) ∧
    (s.turns = [] → s.quiescent → step s = .next { s with response := none })

/-! ## PUSH, POP, LEN, the synchronizer (40_ring_buffer.md) -/

/-- R100, R109: PUSH. If the next index is not `tail_p` it stores its byte at `head`, moves `head` on, in IMMEDIATE mode writes
`head_c` in the same step, and answers (OK, 0) on P; every other byte of every space and every other field is unchanged. If the
next index is `tail_p` it counts an overflow modulo 2^16, answers (FULL, 0) on P, and changes nothing else. -/
def Obligations.PushStoresItsByteOrCountsAnOverflow : Prop :=
  ∀ (s : State) (b : Byte), s.head < s.cfg.n →
    ((s.head + 1) % s.cfg.n ≠ s.tailP →
      ∃ t, exec (.push b) s = .next t ∧
        t.head = (s.head + 1) % s.cfg.n ∧
        t.headC = (if s.cfg.syncMode = .immediate then (s.head + 1) % s.cfg.n else s.headC) ∧
        t.response = some { port := .P, status := .ok, value := 0 } ∧
        t.byteAt .rb s.head = some b ∧
        (∀ a, a ≠ s.head → t.byteAt .rb a = s.byteAt .rb a) ∧
        { t with slot := s.slot, head := s.head, headC := s.headC, response := s.response } = s) ∧
    ((s.head + 1) % s.cfg.n = s.tailP →
      exec (.push b) s = .next { s with
        cntOvf := s.cntOvf + 1
        response := some { port := .P, status := .full, value := 0 } })

/-- R106, R185: in a state of the invariant a PUSH is answered FULL exactly when the producer sees N - 1 bytes held, and OK
otherwise; the producer's view is the occupancy and the lag of its own view. -/
def Obligations.PushIsFullExactlyAtTheProducersCap : Prop :=
  ∀ (s : State) (b : Byte), s.Inv →
    s.producerView = s.occupancy + s.lagT ∧ s.producerView ≤ s.cfg.n - 1 ∧
    ∃ t, exec (.push b) s = .next t ∧
      t.response = some { port := .P, status := if s.producerView = s.cfg.n - 1 then .full else .ok, value := 0 }

/-- R101: POP. With nothing visible it answers (EMPTY, 0) on C and changes nothing else. Otherwise it answers (OK, the byte slot
`tail` holds, zero-extended) on C, moves `tail` on, in IMMEDIATE mode writes `tail_p` in the same step, and changes nothing else. The
byte is the one last written there (R51). (That a slot nothing has written since reset holds a free byte is the model's own, log 6;
no state of the invariant has such a slot visible.) -/
def Obligations.PopTakesTheByteAtTailOrIsEmpty : Prop :=
  ∀ (s : State), s.pollRem = 0 →
    (s.headC = s.tail → exec .pop s = .next { s with response := some { port := .C, status := .empty, value := 0 } }) ∧
    (s.headC ≠ s.tail → s.tail < s.cfg.n →
      exec .pop s = .next { s with
        tail := (s.tail + 1) % s.cfg.n
        tailP := if s.cfg.syncMode = .immediate then (s.tail + 1) % s.cfg.n else s.tailP
        response := some { port := .C, status := .ok, value := (s.cell .rb s.tail).setWidth 16 } } ∧
      ∀ b : Byte, s.byteAt .rb s.tail = some b → s.cell .rb s.tail = b)

/-- R101, R25: in a state of the invariant POP always completes, and a POP with a visible byte takes the oldest byte held and
leaves the others in order. -/
def Obligations.PopTakesTheOldestByteHeld : Prop :=
  ∀ (s : State), s.Inv → s.pollRem = 0 →
    ∃ t, exec .pop s = .next t ∧
      if s.headC = s.tail then t.held = s.held
      else ∃ b, s.held = some b :: t.held ∧ t.response = some { port := .C, status := .ok, value := b.setWidth 16 }

/-- R102: LEN answers the number in 0..N-1 congruent to `head_c - tail`, zero-extended, and writes no state. -/
def Obligations.LenAnswersTheVisibleCount : Prop :=
  ∀ (s : State), s.pollRem = 0 →
    ∃ n, n < s.cfg.n ∧ (n + s.tail) % s.cfg.n = s.headC % s.cfg.n ∧
      exec .len s = .next { s with response := some { port := .C, status := .ok, value := BitVec.ofNat 16 n } }

/-- R110: in a state of the invariant the LEN value is at most N - 1 and at most the occupancy, and is the occupancy whenever
SYNC_H is not enabled. -/
def Obligations.LenIsBoundedAndExactWithoutLag : Prop :=
  ∀ (s : State), s.Inv → s.pollRem = 0 →
    ∃ t v, exec .len s = .next t ∧ t.response = some { port := .C, status := .ok, value := v } ∧
      v.toNat ≤ s.cfg.n - 1 ∧ v.toNat ≤ s.occupancy ∧ (s.syncHEnabled = false → v.toNat = s.occupancy)

/-- R103, R104, R22: a synchronizer turn moves its view one position toward its index exactly when the mode is DEFERRED and the view
is behind, with no response, and changes nothing else but the list of turns. (That a turn with no enabled step passes is the
model's own, log 3.) -/
def Obligations.SyncMovesItsViewOnePosition : Prop :=
  ∀ (s : State) (ts : List Turn),
    (s.turns = .syncH :: ts →
      step s = .next { s with
        turns := ts
        headC := if s.cfg.syncMode = .deferred ∧ s.headC ≠ s.head then (s.headC + 1) % s.cfg.n else s.headC
        response := none }) ∧
    (s.turns = .syncT :: ts →
      step s = .next { s with
        turns := ts
        tailP := if s.cfg.syncMode = .deferred ∧ s.tailP ≠ s.tail then (s.tailP + 1) % s.cfg.n else s.tailP
        response := none })

/-- R107: FIFO, one step at a time. From a state of the invariant, a PUSH answered OK puts its byte behind those held; a POP
answered OK and every poll micro-step take the oldest; a reset leaves none; every other step leaves the bytes held. (By R21 the
consumer's only step during a poll is the micro-step; that a turn with a word on C waits and stands for one then is DEDUCED, log 4.
That a turn with no enabled step passes is the model's own, log 3.) -/
def Obligations.EachStepActsOnTheBytesHeldAsAQueue : Prop :=
  ∀ (s t : State) (u : Turn) (ts : List Turn), s.Inv → s.turns = u :: ts → step s = .next t →
    (∀ b, u = .command .P (encode (.push b)) →
      t.held = if t.response = some { port := .P, status := .ok, value := 0 } then s.held ++ [some b] else s.held) ∧
    (u = .command .C (encode .pop) → s.pollRem = 0 → s.headC ≠ s.tail → ∃ b, s.held = some b :: t.held ∧
      t.response = some { port := .C, status := .ok, value := b.setWidth 16 }) ∧
    (u = .command .C (encode .pop) → s.pollRem = 0 → s.headC = s.tail → t.held = s.held) ∧
    ((u = .microStep ∨ ∃ w, u = .command .C w) → s.pollRem ≠ 0 → ∃ b, s.held = some b :: t.held) ∧
    (u = .reset → t.held = []) ∧
    (u = .syncH ∨ u = .syncT ∨ (u = .microStep ∧ s.pollRem = 0) → t.held = s.held) ∧
    (∀ w, u = .command .P w → (∀ b, w ≠ encode (.push b)) → t.held = s.held) ∧
    (∀ w, u = .command .C w → w ≠ encode .pop → s.pollRem = 0 → t.held = s.held)

/-- R107: FIFO over a run with no reset turn: the bytes held at the start and the bytes of the accepted PUSHes, in order, are the
bytes read, in order, and the bytes held at the end. From the reset state nothing is held, so the k-th read is the k-th PUSH. (The
run's turns that pass, words on C that wait, and steps after the last turn are as logs 3, 4 and 5 have them.) -/
def Obligations.ReadsFollowAcceptedPushesInOrder : Prop :=
  ∀ (k : Nat) (s t : State) (accepted read : List Byte), s.Inv → Turn.reset ∉ s.turns →
    traffic k s = some (t, accepted, read) →
    s.held ++ accepted.map some = read.map some ++ t.held

/-- R108, the boundary law, of turns that follow each other with none between. From an empty buffer with no synchronizer step enabled,
N - 1 PUSHes in a row are all answered OK and held in order, and the next is answered FULL. From a full buffer whose `tail` the
producer sees, after one POP answered OK and one SYNC_T exactly one more PUSH is answered OK and the PUSH after it FULL. (R108 also
admits SYNC_H steps between the PUSHes. That in IMMEDIATE mode, where R108 has no SYNC_T, that turn passes is the model's own,
log 3.) -/
def Obligations.CapPushesFillTheBufferAndOnePopMakesRoomForOne : Prop :=
  (∀ (s : State) (bs : List Byte) (b : Byte), s.Inv → s.occupancy = 0 → s.headC = s.head → s.tailP = s.tail →
    bs.length = s.cfg.n - 1 → s.turns = pushTurns (bs ++ [b]) →
    (∀ k < s.cfg.n - 1, ∃ t, Sys2Proof.core.run (k + 1) s = .next t ∧
      t.response = some { port := .P, status := .ok, value := 0 } ∧ t.held = (bs.take (k + 1)).map some) ∧
    ∃ t, Sys2Proof.core.run s.cfg.n s = .next t ∧
      t.response = some { port := .P, status := .full, value := 0 } ∧ t.held = bs.map some ∧ t.cntOvf = s.cntOvf + 1) ∧
  (∀ (s : State) (b b' : Byte) (ts : List Turn), s.Inv → s.pollRem = 0 → s.occupancy = s.cfg.n - 1 → s.tailP = s.tail →
    s.headC ≠ s.tail →
    s.turns = .command .C (encode .pop) :: .syncT :: .command .P (encode (.push b)) :: .command .P (encode (.push b')) :: ts →
    ∃ t1 t3 t4,
      Sys2Proof.core.run 1 s = .next t1 ∧ (∃ v, t1.response = some { port := .C, status := .ok, value := v }) ∧
      Sys2Proof.core.run 3 s = .next t3 ∧ t3.response = some { port := .P, status := .ok, value := 0 } ∧
      Sys2Proof.core.run 4 s = .next t4 ∧ t4.response = some { port := .P, status := .full, value := 0 } ∧ t4.turns = ts)

/-- R105 read step by step (log 13), of the steps that move an index: IMMEDIATE is DEFERRED with each view brought up at once. For
every word on port P, for POP and for the poll micro-step, the step in IMMEDIATE mode has the response of the same step in DEFERRED
mode, and leaves the state that step followed by one SYNC_H (after a word on P) or one SYNC_T leaves, the mode and the SYNC turn's
missing response apart. (After a word refused or answered FULL, a POP answered EMPTY, or a micro-step turn with no poll, the SYNC
turn finds nothing to carry; that it then passes, as that micro-step turn does, is the model's own, log 3. The other commands, and
runs of them, are in `ImmediateRunHasTheResponsesOfADeferredRun`.) -/
def Obligations.ImmediateStepIsDeferredStepThenSync : Prop :=
  ∀ (s d : State) (u v : Turn), s.Inv → s.cfg.syncMode = .immediate → s.turns = [u] →
    d = { s with cfg := { s.cfg with syncMode := .deferred } } →
    ((∃ w, u = .command .P w) ∧ v = .syncH) ∨ (u = .command .C (encode .pop) ∧ s.pollRem = 0 ∧ v = .syncT) ∨
      (u = .microStep ∧ v = .syncT) →
    ∃ t m, step s = .next t ∧ step d = .next m ∧ m.response = t.response ∧
      Sys2Proof.core.run 2 { d with turns := [u, v] } = .next { t with cfg := d.cfg, response := none }

/-- R85, R106: the turns of a SYNC line bring both views level with their indices, without a response, and change nothing else.
(That SYNC is written as N - 1 turns each way, and that those with nothing to carry pass, is the model's own, logs 11 and 3.) -/
def Obligations.SyncLineLevelsTheViews : Prop :=
  ∀ (s : State), s.Inv → s.cfg.syncMode = .deferred → Line.turns s.cfg .sync = some s.turns →
    Sys2Proof.core.run (2 * (s.cfg.n - 1)) s =
      .next { s with headC := s.head, tailP := s.tail, turns := [], response := none }

/-! ## POLL, the micro-step, the assembler (41_frame_assembler.md) -/

/-- R120: POLL takes the number of bytes the consumer can see as its snapshot and clears both poll flags. With none visible it
answers (NONE, 0) at once; otherwise there is no response yet. Nothing else changes. -/
def Obligations.PollTakesItsSnapshot : Prop :=
  ∀ (s : State), s.pollRem = 0 →
    ∃ n, n < s.cfg.n ∧ (n + s.tail) % s.cfg.n = s.headC % s.cfg.n ∧
      exec .poll s = .next { s with
        pollLen := BitVec.ofNat 16 n
        pollRem := BitVec.ofNat 16 n
        pollNew := false
        pollBad := false
        response := if n = 0 then some { port := .C, status := .none, value := 0 } else none }

/-- R123: in IDLE a start marker is kept as byte 0 of a new partial frame, and any other byte is discarded and counted; nothing
else changes. -/
def Obligations.IdleByteStartsOrIsDiscarded : Prop :=
  ∀ (s : State) (b : Byte), s.asmSt = .idle →
    (b = 0x0F → ∃ t, asmStep b s = .ok (.kept, t) ∧ t.byteAt .fb 0 = some 0x0F ∧
      (∀ a, a ≠ 0 → t.byteAt .fb a = s.byteAt .fb a) ∧ t.asmSt = .filling ∧ t.asmCnt = 1 ∧
      { t with fbuf := s.fbuf, asmSt := s.asmSt, asmCnt := s.asmCnt } = s) ∧
    (b ≠ 0x0F → asmStep b s = .ok (.discard, { s with cntResync := s.cntResync + 1 }))

/-- R124, R129: in FILLING with fewer than 24 bytes any byte, 0x0F too, is kept at `asm_cnt`, which goes up by one; nothing else
changes. -/
def Obligations.FillingByteIsKeptWhateverItIs : Prop :=
  ∀ (s : State) (b : Byte), s.asmSt = .filling → s.asmCnt.toNat < 24 →
    ∃ t, asmStep b s = .ok (.kept, t) ∧ t.byteAt .fb s.asmCnt.toNat = some b ∧
      (∀ a, a ≠ s.asmCnt.toNat → t.byteAt .fb a = s.byteAt .fb a) ∧
      t.asmSt = .filling ∧ t.asmCnt.toNat = s.asmCnt.toNat + 1 ∧
      { t with fbuf := s.fbuf, asmCnt := s.asmCnt } = s

/-- R124 to R127: the 25th byte is kept at address 24 of the partial frame, every other byte of which is as before, and completes
the window. A last byte other than 0x00 is ENDERR and only that; else a checksum that is not the sum of bytes 0..22 modulo 256 is
SUMERR; else the window replaces the valid frame whole, `vvalid` is 1 and the frame is counted. In every case the assembler is back
in IDLE. The fault record, the ring buffer, the poll state and every other counter are unchanged. -/
def Obligations.CompletedWindowIsJudged : Prop :=
  ∀ (s : State) (f : List Byte) (b : Byte), s.asmSt = .filling → s.asmCnt.toNat = 24 →
    f = (List.range 24).map (s.cell .fb) →
    ∃ ev t, asmStep b s = .ok (ev, t) ∧ t.asmSt = .idle ∧ t.asmCnt = 0 ∧
      t.byteAt .fb 24 = some b ∧ (∀ a, a ≠ 24 → t.byteAt .fb a = s.byteAt .fb a) ∧
      (b ≠ 0 → ev = .endErr ∧
        { t with fbuf := s.fbuf, asmSt := s.asmSt, asmCnt := s.asmCnt } = { s with cntEnderr := s.cntEnderr + 1 }) ∧
      (b = 0 → ((f.take 23).map BitVec.toNat).sum % 256 ≠ (windowByte f 23).toNat → ev = .sumErr ∧
        { t with fbuf := s.fbuf, asmSt := s.asmSt, asmCnt := s.asmCnt } = { s with cntSumerr := s.cntSumerr + 1 }) ∧
      (b = 0 → ((f.take 23).map BitVec.toNat).sum % 256 = (windowByte f 23).toNat → ev = .frame ∧
        (∀ j < 25, t.byteAt .vf j = (f ++ [b])[j]?) ∧ (∀ a, 25 ≤ a → t.byteAt .vf a = s.byteAt .vf a) ∧
        { t with fbuf := s.fbuf, asmSt := s.asmSt, asmCnt := s.asmCnt, vframe := s.vframe } =
          { s with vvalid := true, cntFrame := s.cntFrame + 1 })

/-- R121, R122: the poll micro-step. From a state of the invariant with a poll in progress it takes the oldest byte held through
AsmStep, moves `tail` (and in IMMEDIATE mode `tail_p`), sets `poll_new` on FRAME and `poll_bad` on DISCARD, ENDERR or SUMERR,
counts down, and with the last byte answers NEW before BAD before NONE with the snapshot's length. -/
def Obligations.MicroStepTakesOneByteThroughTheAssembler : Prop :=
  ∀ (s : State), s.Inv → s.pollRem ≠ 0 →
    ∃ b ev u t, s.byteAt .rb s.tail = some b ∧
      asmStep b { s with
        tail := (s.tail + 1) % s.cfg.n
        tailP := if s.cfg.syncMode = .immediate then (s.tail + 1) % s.cfg.n else s.tailP } = .ok (ev, u) ∧
      microStep s = .next t ∧
      t.pollNew = (s.pollNew || decide (ev = .frame)) ∧
      t.pollBad = (s.pollBad || decide (ev = .discard ∨ ev = .endErr ∨ ev = .sumErr)) ∧
      t.pollRem = s.pollRem - 1 ∧
      t.response = (if s.pollRem = 1 then
        some { port := .C
               status := if t.pollNew = true then .new else if t.pollBad = true then .bad else .none
               value := s.pollLen }
        else none) ∧
      { t with pollNew := u.pollNew, pollBad := u.pollBad, pollRem := u.pollRem, response := u.response } = u

/-- R138, R121, R122, R133, R134: a poll of n bytes completes after exactly n micro-steps. After them the assembler, the valid
frame and the counters are those of the first n bytes held passed to AsmStep in order, and the response is the snapshot's length
with NEW if a frame passed in this poll, else BAD if a byte was discarded or a frame failed, else NONE. -/
def Obligations.PollRunsItsSnapshotThroughTheAssembler : Prop :=
  ∀ (s : State) (ts : List Turn), s.Inv → s.pollRem ≠ 0 →
    s.turns = List.replicate s.pollRem.toNat .microStep ++ ts →
    ∃ bs es u t, s.held.take s.pollRem.toNat = bs.map some ∧ feed bs s = .ok (es, u) ∧
      Sys2Proof.core.run s.pollRem.toNat s = .next t ∧ t.turns = ts ∧ t.pollRem = 0 ∧ sameAssembler u t ∧
      t.held = s.held.drop s.pollRem.toNat ∧
      t.response = some { port := .C
                          status := if s.pollNew = true ∨ Event.frame ∈ es then .new
                            else if s.pollBad = true ∨ Event.discard ∈ es ∨ Event.endErr ∈ es ∨ Event.sumErr ∈ es then .bad
                            else .none
                          value := s.pollLen }

/-- R21, R120, R181, R186: while a poll is in progress only the consumer's turns and reset move its count, a consumer's turn by one,
whatever words the producer issues and whatever the synchronizer does. (That the turn of a word on C, which waits, is one
micro-step there is DEDUCED, log 4; that a SYNC turn with nothing to carry passes is the model's own, log 3.) -/
def Obligations.OnlyTheConsumerCountsThePollDown : Prop :=
  ∀ (s t : State) (u : Turn) (ts : List Turn), s.Inv → s.pollRem ≠ 0 → s.turns = u :: ts → step s = .next t →
    ((u = .microStep ∨ ∃ w, u = .command .C w) → t.pollRem = s.pollRem - 1 ∧ t.pollLen = s.pollLen) ∧
    ((u = .syncH ∨ u = .syncT ∨ ∃ w, u = .command .P w) → samePoll s t) ∧
    (u = .reset → t.pollRem = 0 ∧ t.response = none)

/-- R130: from FILLING with c bytes the assembler stays in FILLING through fewer than 25 - c further bytes, whatever they are, and
exactly 25 - c bring it back to IDLE. -/
def Obligations.FillingEndsAfterTwentyFiveBytes : Prop :=
  ∀ (s : State) (bs : List Byte), s.Inv → s.asmSt = .filling → bs.length + s.asmCnt.toNat ≤ 25 →
    ∃ es t, feed bs s = .ok (es, t) ∧
      (if bs.length + s.asmCnt.toNat = 25 then t.asmSt = .idle ∧ t.asmCnt = 0
       else t.asmSt = .filling ∧ t.asmCnt.toNat = s.asmCnt.toNat + bs.length)

/-- R131, R128: from IDLE any byte sequence is taken, and the frames that pass are exactly the scanned windows that are valid
frames: each counts one, and the last of them is in `vframe` afterwards; with none `vframe` and `vvalid` are unchanged. -/
def Obligations.AssemblerEmitsExactlyTheScannedFrames : Prop :=
  ∀ (s : State) (bs : List Byte), s.Inv → s.asmSt = .idle →
    ∃ es t, feed bs s = .ok (es, t) ∧
      es.length = bs.length ∧
      es.count .frame = (scannedFrames bs).length ∧
      t.cntFrame = s.cntFrame + BitVec.ofNat 16 (scannedFrames bs).length ∧
      match (scannedFrames bs).getLast? with
      | some f => t.vvalid = true ∧ t.frameBytes = f
      | none => t.vvalid = s.vvalid ∧ t.vframe = s.vframe

/-- R135: in a window that passes both checks, changing any one byte at offset 1..23 fails the checksum and nothing but it. -/
def Obligations.OneChangedByteFailsTheChecksum : Prop :=
  ∀ (f : List Byte) (j : Nat) (v : Byte), f.length = 25 → endOk f = true → sumOk f = true →
    1 ≤ j → j ≤ 23 → v ≠ windowByte f j → endOk (f.set j v) = true ∧ sumOk (f.set j v) = false

/-- R132: a valid frame with one byte changed, at offset 1..23 or at 24, followed at once by a valid frame W. From IDLE the first
window fails, by its checksum or by its end marker, and W is kept: no byte beyond the first window is lost. -/
def Obligations.FrameAfterACorruptedFrameIsKept : Prop :=
  ∀ (s : State) (v w : List Byte) (j : Nat) (x : Byte), s.Inv → s.asmSt = .idle → validFrame v → validFrame w →
    1 ≤ j → j ≤ 24 → x ≠ windowByte v j →
    ∃ es t, feed (v.set j x ++ w) s = .ok (es, t) ∧ t.asmSt = .idle ∧ t.vvalid = true ∧ t.frameBytes = w ∧
      t.cntFrame = s.cntFrame + 1 ∧ t.cntResync = s.cntResync ∧
      t.cntSumerr = (if j = 24 then s.cntSumerr else s.cntSumerr + 1) ∧
      t.cntEnderr = (if j = 24 then s.cntEnderr + 1 else s.cntEnderr)

/-- R136, R156: RESYNC + 25 x (ENDERR + SUMERR + FRAMES) + ASM_CNT, modulo 2^16, goes up by one with each micro-step, and no
command changes it. -/
def Obligations.CountersAccountForEveryByte : Prop :=
  ∀ (s t : State), s.Inv →
    (microStep s = .next t → s.pollRem ≠ 0 → t.bytesTaken = s.bytesTaken + 1) ∧
    (∀ i, exec i s = .next t → t.bytesTaken = s.bytesTaken) ∧ (State.resetOf s.cfg).bytesTaken = 0

/-! ## DECODE (42_channel_decoder.md) -/

/-- R140, R141, R142, R52: with a frame kept and a channel 0..15, DECODE answers (OK, the value) on C: the little-endian number of
three bytes of the valid-frame register (CH_WINDOW 24) or two (CH_WINDOW 16) from byte_offset on, shifted right by bit_offset, modulo
2^11. It writes nothing else. In a state of the invariant these are the bytes of the frame that passed last (R31). -/
def Obligations.DecodeAnswersTheChannelField : Prop :=
  ∀ (s : State) (ch : Nat), s.pollRem = 0 → s.vvalid = true → ch ≤ 15 →
    (∃ v : Word,
      exec (.decode ch) s = .next { s with response := some { port := .C, status := .ok, value := v } } ∧
      v.toNat = (match s.cfg.chWindow with
        | .w24 => ((s.cell .vf (1 + 11 * ch / 8)).toNat + 256 * (s.cell .vf (2 + 11 * ch / 8)).toNat
            + 65536 * (s.cell .vf (3 + 11 * ch / 8)).toNat) / 2 ^ (11 * ch % 8) % 2048
        | .w16 => ((s.cell .vf (1 + 11 * ch / 8)).toNat + 256 * (s.cell .vf (2 + 11 * ch / 8)).toNat)
            / 2 ^ (11 * ch % 8) % 2048)) ∧
    (s.Inv → ∀ j < 25, s.frameBytes[j]? = some (s.cell .vf j))

/-- R141, R142, R149: bit j (j = 0..10) of the value is frame bit 8 + 11 ch + j, except that CH_WINDOW 16 gives 0 where
bit_offset + j is over 15; the bits from 11 on are 0. -/
def Obligations.DecodeBitsAreFrameBits : Prop :=
  ∀ (s t : State) (ch : Nat) (v : Word), s.Inv → s.vvalid = true → ch ≤ 15 → exec (.decode ch) s = .next t →
    t.response = some { port := .C, status := .ok, value := v } →
    ∀ j, v.getLsbD j = (decide (j < 11) && frameBit s.frameBytes (8 + 11 * ch + j) &&
      (decide (s.cfg.chWindow = .w24) || decide (11 * ch % 8 + j ≤ 15)))

/-- R144: the two windows give the same value for every channel but 2, 5, 10 and 13; for 2 and 10 the narrow one clears bit 10,
for 5 and 13 bits 9 and 10. -/
def Obligations.NarrowWindowLosesOnlyTheNamedBits : Prop :=
  ∀ (ch : Nat) (b0 b1 b2 : Byte), ch ≤ 15 →
    field16 ch b0 b1 = field24 ch b0 b1 b2 &&&
      (if ch = 2 ∨ ch = 10 then 0x3FF#16 else if ch = 5 ∨ ch = 13 then 0x1FF#16 else 0x7FF#16)

/-- R145, R146: DECODE inverts the packing. If bytes 1..22 of the kept frame are the packing of sixteen 11-bit values, DECODE ch
answers value ch, for every ch with CH_WINDOW 24 and for every ch but 2, 5, 10 and 13 with CH_WINDOW 16. -/
def Obligations.DecodeInvertsThePacking : Prop :=
  ∀ (s : State) (c : Nat → BitVec 11) (ch : Nat), s.Inv → s.pollRem = 0 → s.vvalid = true → ch ≤ 15 →
    (∀ m < 22, (windowByte s.frameBytes (1 + m)).toNat = packed c / 2 ^ (8 * m) % 256) →
    (s.cfg.chWindow = .w24 ∨ (ch ≠ 2 ∧ ch ≠ 5 ∧ ch ≠ 10 ∧ ch ≠ 13)) →
    exec (.decode ch) s = .next { s with response := some { port := .C, status := .ok, value := (c ch).setWidth 16 } }

/-- R140, R162: DECODE. An index over 15 faults IDX_RANGE, before the frame is looked at; 0..15 with no valid frame since reset
faults NO_FRAME; either way only the fault record and the response change. With a frame kept it answers (OK, the extraction CH_WINDOW
selects) on C and changes nothing else. -/
def Obligations.DecodeChecksTheIndexThenTheFrame : Prop :=
  ∀ (s : State) (ch : Nat), s.pollRem = 0 →
    (ch > 15 → exec (.decode ch) s = .next { s with
      faultCause := s.faultCause ||| 0b0100#4
      faultWord := if s.faultCause = 0 then encode (.decode ch) else s.faultWord
      faultPort := if s.faultCause = 0 then .C else s.faultPort
      response := some { port := .C, status := .fault, value := 3 } }) ∧
    (ch ≤ 15 → s.vvalid = false → exec (.decode ch) s = .next { s with
      faultCause := s.faultCause ||| 0b1000#4
      faultWord := if s.faultCause = 0 then encode (.decode ch) else s.faultWord
      faultPort := if s.faultCause = 0 then .C else s.faultPort
      response := some { port := .C, status := .fault, value := 4 } }) ∧
    (ch ≤ 15 → s.vvalid = true → ∃ v,
      (match s.cfg.chWindow with | .w24 => extract24 ch s | .w16 => extract16 ch s) = .ok v ∧
      exec (.decode ch) s = .next { s with response := some { port := .C, status := .ok, value := v } })

/-! ## RDSTAT (43_status.md) -/

/-- R150 to R155: RDSTAT. A selector 0..8 answers (OK, the word) on C and changes nothing else; each word, field by field. A selector
over 8 faults ILLEGAL, and only the fault record and the response change. -/
def Obligations.RdstatReadsEachStatusWordOrIsIllegal : Prop :=
  ∀ (s : State) (sel : Nat), s.Inv → s.pollRem = 0 →
    (sel ≤ 8 → ∃ v : Word,
      exec (.rdstat sel) s = .next { s with response := some { port := .C, status := .ok, value := v } } ∧
      (sel = 0 → v = s.cntOvf) ∧ (sel = 1 → v = s.cntResync) ∧ (sel = 2 → v = s.cntEnderr) ∧
      (sel = 3 → v = s.cntSumerr) ∧ (sel = 4 → v = s.cntFrame) ∧
      (sel = 5 → v.toNat = s.asmCnt.toNat + 32 * (if s.asmSt = .filling then 1 else 0) +
        64 * (if s.vvalid = true then 1 else 0)) ∧
      (sel = 6 → v.toNat = s.faultCause.toNat + 256 * (if s.faultPort = .C then 1 else 0)) ∧
      (sel = 7 → v = s.faultWord) ∧
      (sel = 8 → v.toNat = s.cfg.k + 256 * (if s.cfg.syncMode = .immediate then 1 else 0) +
        512 * (if s.cfg.chWindow = .w16 then 1 else 0))) ∧
    (sel > 8 → exec (.rdstat sel) s = .next { s with
      faultCause := s.faultCause ||| 0b0001#4
      faultWord := if s.faultCause = 0 then encode (.rdstat sel) else s.faultWord
      faultPort := if s.faultCause = 0 then .C else s.faultPort
      response := some { port := .C, status := .fault, value := 1 } })

/-! ## Faults, domains, reset (60_exceptions.md, 10_state.md, 70_reset_and_hazards.md) -/

/-- R34, R161, R165: no step but reset clears a cause bit, and once a fault is recorded no step but reset changes its word or
its port. -/
def Obligations.RecordedFaultIsKeptUntilReset : Prop :=
  ∀ (s t : State), s.turns.head? ≠ some .reset → step s = .next t →
    s.faultCause &&& t.faultCause = s.faultCause ∧
    (s.faultCause ≠ 0 → t.faultCause ≠ 0 ∧ t.faultWord = s.faultWord ∧ t.faultPort = s.faultPort)

/-- R160, R137, R166: the poll micro-step, every PUSH on P, POP, LEN and POLL on C, and both synchronizer steps leave the fault
record: FULL, EMPTY, DISCARD, ENDERR and SUMERR are no faults. -/
def Obligations.DataConditionsAreNoFaults : Prop :=
  ∀ (s t : State),
    (microStep s = .next t → s.Inv → sameFaultRecord s t) ∧
    (∀ b, exec (.push b) s = .next t → sameFaultRecord s t) ∧
    (exec .pop s = .next t ∨ exec .len s = .next t ∨ exec .poll s = .next t → sameFaultRecord s t) ∧
    sameFaultRecord s (syncH s) ∧ sameFaultRecord s (syncT s)

/-- R41: each element but the fault record is written by one domain. A word on P leaves `tail`, `tail_p`, the assembler, the valid
frame, its counters and the poll state, and in DEFERRED mode `head_c`; a consumer's turn leaves `slot`, `head`, `cnt_ovf` and `head_c`,
and in DEFERRED mode `tail_p`; a synchronizer turn leaves everything but the views, and in IMMEDIATE mode the views too. (That the turn
of a word on C is one micro-step during a poll is DEDUCED, log 4; that a turn with no enabled step passes is the model's own, log 3.) -/
def Obligations.EachDomainWritesOnlyItsOwnState : Prop :=
  ∀ (s t : State) (u : Turn) (ts : List Turn), s.Inv → s.turns = u :: ts → step s = .next t →
    ((∃ w, u = .command .P w) → t.tail = s.tail ∧ t.tailP = s.tailP ∧ sameAssembler s t ∧ samePoll s t ∧
      (s.cfg.syncMode = .deferred → t.headC = s.headC)) ∧
    ((u = .microStep ∨ ∃ w, u = .command .C w) → t.slot = s.slot ∧ t.head = s.head ∧ t.cntOvf = s.cntOvf ∧
      t.headC = s.headC ∧ (s.cfg.syncMode = .deferred → t.tailP = s.tailP)) ∧
    (u = .syncH ∨ u = .syncT →
      { t with headC := s.headC, tailP := s.tailP, turns := s.turns, response := s.response } = s ∧
      (s.cfg.syncMode = .immediate → t.headC = s.headC ∧ t.tailP = s.tailP))

/-- R35: no step changes K, SYNC_MODE or CH_WINDOW. -/
def Obligations.NoStepChangesTheConfiguration : Prop :=
  ∀ (s t : State), step s = .next t → t.cfg = s.cfg

/-- R180, R181, R40: a reset turn, in any state and also during a poll, gives every element its reset value and no response,
and leaves the configuration. (The last clause is the model's own: that storage, which R180 does not write and which holds any value
after it, is drawn anew, log 6; the turns still to come and the two counters are the model's own fields.) -/
def Obligations.ResetTurnGivesEveryElementItsResetValue : Prop :=
  ∀ (s : State) (ts : List Turn), s.turns = .reset :: ts →
    ∃ t, step s = .next t ∧ t.cfg = s.cfg ∧
      t.head = 0 ∧ t.tail = 0 ∧ t.headC = 0 ∧ t.tailP = 0 ∧ t.asmSt = .idle ∧ t.asmCnt = 0 ∧ t.vvalid = false ∧
      t.pollRem = 0 ∧ t.pollLen = 0 ∧ t.pollNew = false ∧ t.pollBad = false ∧
      t.cntOvf = 0 ∧ t.cntResync = 0 ∧ t.cntEnderr = 0 ∧ t.cntSumerr = 0 ∧ t.cntFrame = 0 ∧
      t.faultCause = 0 ∧ t.faultWord = 0 ∧ t.faultPort = .P ∧ t.faultO = false ∧ t.response = none ∧
      t = { State.resetOf s.cfg with turns := ts, freeCount := s.freeCount, storageDraw := s.storageDraw + 1 }

/-- R40, R32, R33, R34: what the reset state holds, for every configuration: every element of R40's table that has a reset value, and
no byte in the ring buffer; and that `State.reset` is one of them. (Of storage nothing is stated: it holds any value, log 6.) -/
def Obligations.ResetStateHoldsTheResetValues : Prop :=
  (∃ c : Config, c.wf ∧ State.reset = State.resetOf c) ∧
  ∀ c : Config, (State.resetOf c).cfg = c ∧ (State.resetOf c).head = 0 ∧ (State.resetOf c).tail = 0 ∧
    (State.resetOf c).headC = 0 ∧ (State.resetOf c).tailP = 0 ∧ (State.resetOf c).asmSt = .idle ∧
    (State.resetOf c).asmCnt = 0 ∧ (State.resetOf c).vvalid = false ∧ (State.resetOf c).pollRem = 0 ∧
    (State.resetOf c).pollLen = 0 ∧ (State.resetOf c).pollNew = false ∧ (State.resetOf c).pollBad = false ∧
    (State.resetOf c).cntOvf = 0 ∧ (State.resetOf c).cntResync = 0 ∧ (State.resetOf c).cntEnderr = 0 ∧
    (State.resetOf c).cntSumerr = 0 ∧ (State.resetOf c).cntFrame = 0 ∧ (State.resetOf c).faultCause = 0 ∧
    (State.resetOf c).faultWord = 0 ∧ (State.resetOf c).faultPort = .P ∧ (State.resetOf c).faultO = false ∧
    (State.resetOf c).held = []

/-! ## Invariants and runs -/

/-- The invariant holds in the reset state, whatever the configuration. -/
def Obligations.ResetStateMeetsTheInvariant : Prop :=
  State.reset.Inv ∧ ∀ c : Config, c.wf → (State.resetOf c).Inv

/-- R106, R27, R28, R25, R30, R31, R138, R154: every step, whatever turn it takes, keeps the invariant: the occupancy bound, the
views of IMMEDIATE mode, the assembler's form, that every slot held and every byte of a partial or kept frame was written, that
the kept frame is a valid frame, the poll's bound, and the empty fault record. -/
def Obligations.EveryStepKeepsTheInvariant : Prop :=
  ∀ (s t : State), s.Inv → step s = .next t → t.Inv

/-- R50, R164, R174: from a state of the invariant every step, whatever turn it takes, has a next state: no address outside a space
is formed, no recorded fault stops the block. (Among them are turns that pass, log 3, and words on C that wait, log 4.) -/
def Obligations.BlockCanAlwaysTakeItsNextStep : Prop :=
  ∀ (s : State), s.Inv → ∃ t, step s = .next t

/-- R50, R51: from any state, in the invariant or not, a step keeps the three spaces in canonical form and inside their ranges. -/
def Obligations.EveryStepKeepsStorageInForm : Prop :=
  ∀ (s t : State), s.storageForm → step s = .next t → t.storageForm

/-- R111, R194, R138: a silent outside. From a state of the invariant with no turn left, the block's own steps, in whatever order
the free choice takes them, reach a quiescent state within two steps for each byte of the poll and one for each position of lag,
with `head` and every byte not polled kept; and there it stays. (The free order is the model's own, log 5.) -/
def Obligations.SilentBlockBecomesQuiescent : Prop :=
  ∀ (s : State), s.Inv → s.turns = [] →
    ∃ k t, k ≤ s.ownWork ∧ Sys2Proof.core.run k s = .next t ∧ t.quiescent ∧ t.turns = [] ∧ t.head = s.head ∧
      t.held = s.held.drop s.pollRem.toNat ∧ ∀ m, ∃ r, Sys2Proof.core.run m t = .next { t with response := r }

/-- R25, R30, R31: what storage holds before it is written never reaches a response. From a state of the invariant, runs of any length
that differ only in the draw of the unwritten bytes answer the same and differ, at their end too, only in that draw. (The draw is
the model's own, log 6.) -/
def Obligations.UnwrittenStorageIsUnobservable : Prop :=
  ∀ (s : State) (draw k : Nat), s.Inv →
    ∃ t draw', Sys2Proof.core.run k s = .next t ∧
      Sys2Proof.core.run k { s with storageDraw := draw } = .next { t with storageDraw := draw' }

/-! ## Runs without end (10_state.md R23) -/

/-- R21, R22, R23: in every state of a run, of any length and however many commands come, the invariant holds and any turn that is
enabled may come next; and the turns enabled are a word on P and reset always, a word on C with no poll in progress, the micro-step
with one, and SYNC_H and SYNC_T in DEFERRED mode while the view is behind its index. -/
def Obligations.AnyEnabledTurnMayComeNextInARun : Prop :=
  ∀ (states : Nat → State) (turns : Nat → Option Turn) (k : Nat), isRun states turns →
    (states k).Inv ∧
    (∀ v, Turn.enabled (states k) v = true → ∃ t, (states k).link (some v) t ∧ t.Inv) ∧
    (∀ w, Turn.enabled (states k) (.command .P w) = true) ∧ Turn.enabled (states k) .reset = true ∧
    (∀ w, Turn.enabled (states k) (.command .C w) = true ↔ (states k).pollRem = 0) ∧
    (Turn.enabled (states k) .microStep = true ↔ (states k).pollRem ≠ 0) ∧
    (Turn.enabled (states k) .syncH = true ↔ (states k).cfg.syncMode = .deferred ∧ (states k).headC ≠ (states k).head) ∧
    (Turn.enabled (states k) .syncT = true ↔ (states k).cfg.syncMode = .deferred ∧ (states k).tailP ≠ (states k).tail)

/-- R23 with log 1: the first links of a run, where none of them is nobody's, are the steps of the machine on the list of their turns:
every finite part of a run is a schedule the list of turns can hold. -/
def Obligations.EveryFinitePartOfARunIsAListOfTurns : Prop :=
  ∀ (states : Nat → State) (turns : Nat → Option Turn) (ts : List Turn), isRun states turns →
    (∀ j < ts.length, turns j = ts[j]?) →
    Sys2Proof.core.run ts.length { states 0 with turns := ts } = .next (states ts.length)

/-- R138: a poll always completes. In a weakly fair run, from any link on, there is a first state with no poll in progress; without a
reset on the way the poll took exactly as many micro-steps as it had bytes left, whatever the producer did, and answered on C with
its snapshot's length. In every state `poll_rem` is at most the number of bytes the consumer can see, and with a poll in progress the
micro-step finds a byte. -/
def Obligations.EveryPollCompletesInAFairRun : Prop :=
  ∀ (states : Nat → State) (turns : Nat → Option Turn) (k : Nat), isRun states turns → weaklyFair states turns →
    (states k).pollRem.toNat ≤ (states k).visible ∧
    ((states k).pollRem ≠ 0 → (states k).headC ≠ (states k).tail ∧ ∃ t, microStep (states k) = .next t) ∧
    ∃ d, (states (k + d)).pollRem = 0 ∧ (∀ j < d, (states (k + j)).pollRem ≠ 0) ∧
      (turnCount turns (· == .reset) k d = 0 →
        turnCount turns (· == .microStep) k d = (states k).pollRem.toNat ∧
        ((states k).pollRem ≠ 0 → ∃ st, st ∈ [Status.new, .bad, .none] ∧
          (states (k + d)).response = some { port := .C, status := st, value := (states k).pollLen }))

/-- R111, with R194: if from some link of a weakly fair run on the producer issues no PUSH and the consumer no POP and no POLL, the run
reaches a state from which on it stays quiescent, with both views equal to their indices, whatever other words and resets come. -/
def Obligations.FairRunWithoutTrafficBecomesQuiescent : Prop :=
  ∀ (states : Nat → State) (turns : Nat → Option Turn) (k : Nat), isRun states turns → weaklyFair states turns →
    quietFrom turns k →
    ∃ m, k ≤ m ∧ ∀ j, m ≤ j →
      (states j).quiescent ∧ (states j).headC = (states j).head ∧ (states j).tailP = (states j).tail

/-- R195, R106: in any run, fair or not, the block's own steps do not go on without new traffic: from a link on after which no PUSH, POP
or POLL comes, they are at most two for each byte of the poll and one for each position of lag, and each lag is at most N - 1. -/
def Obligations.OwnStepsAreBoundedWithoutTraffic : Prop :=
  ∀ (states : Nat → State) (turns : Nat → Option Turn) (k d : Nat), isRun states turns → quietFrom turns k →
    turnCount turns (ownSteps.contains ·) k d ≤ (states k).ownWork ∧
    (states k).ownWork = 2 * (states k).pollRem.toNat + (states k).lagH + (states k).lagT ∧
    (states k).lagH ≤ (states k).cfg.n - 1 ∧ (states k).lagT ≤ (states k).cfg.n - 1

/-- R105, of whole runs and every turn: for each run in IMMEDIATE mode there is a DEFERRED run that takes the same turns in the same
order with the same responses, and besides them only one SYNC_H at once after each accepted PUSH and one SYNC_T at once after each
POP that returns OK and each poll micro-step; at each of the common turns the two stand in the same state, the mode and the last
response apart; and a fair run has a fair one. (RDSTAT 8, whose response is the mode itself, has another response, log 13.) -/
def Obligations.ImmediateRunHasTheResponsesOfADeferredRun : Prop :=
  ∀ (states : Nat → State) (turns : Nat → Option Turn), isRun states turns → (states 0).cfg.syncMode = .immediate →
    ∃ (dstates : Nat → State) (dturns : Nat → Option Turn) (place : Nat → Nat),
      isRun dstates dturns ∧ (weaklyFair states turns → weaklyFair dstates dturns) ∧ place 0 = 0 ∧
      ∀ k, dturns (place k) = turns k ∧
        { dstates (place k) with response := none } =
          { states k with cfg := { (states k).cfg with syncMode := .deferred }, response := none } ∧
        (turns k ≠ some (.command .C (encode (.rdstat 8))) →
          (dstates (place k + 1)).response = (states (k + 1)).response) ∧
        match syncAfter (turns k) (states (k + 1)).response with
        | some v => dturns (place k + 1) = some v ∧ place (k + 1) = place k + 2
        | none => place (k + 1) = place k + 1
end

