-- ==== Sys2Proof/Laws/Decode.lean ====
section
/-! SUPPORT. What a decode that accepts or refuses a word says of it, once, for the proofs to cite. -/

namespace Sys2Proof

/-- The opcode as the top digit of the word's number. -/
theorem opcode_eq (w : Word) : opcode w = w.toNat / 4096 := by
  have := w.isLt
  simp only [opcode, BitVec.extractLsb'_toNat, Nat.shiftRight_eq_div_pow]
  omega

/-- The reserved bits of each format as digits of the word's number. -/
theorem reservedBits_eq (f : Format) (w : Word) :
    reservedBits f w = match f with
      | .p8 => w.toNat / 256 % 16
      | .n => w.toNat % 4096
      | .c5 => w.toNat / 32 % 128
      | .s4 => w.toNat / 16 % 256 := by
  cases f <;> simp [reservedBits, BitVec.extractLsb'_toNat, Nat.shiftRight_eq_div_pow]

/-- All an accepting decode says (R83). -/
theorem decodeAt_ok {p : Port} {w : Word} {i : Instr} :
    decodeAt p w = .ok i ↔
      ∃ f, opcodeRow (opcode w) = some (f, p) ∧ operandForm w = some i ∧ reservedBits f w = 0 := by
  unfold decodeAt
  rcases h1 : opcodeRow (opcode w) with _ | ⟨f, q⟩
  · simp
  · rcases h2 : operandForm w with _ | j
    · simp
    · by_cases hp : p = q
      · by_cases hr : reservedBits f w = 0
        · simp [hp, hr]
        · simp [hp, hr]
      · simp [hp, Ne.symm hp]

/-- The row of an assigned opcode names the port and the opcode of the command with that opcode (R71, R79). -/
theorem operandForm_row {w : Word} {i : Instr} {f : Format} {p : Port} (h1 : opcodeRow (opcode w) = some (f, p))
    (h2 : operandForm w = some i) : i.port = p ∧ i.op = opcode w := by
  unfold operandForm at h2
  generalize opcode w = o at *
  unfold opcodeRow at h1
  split at h1 <;> simp_all <;> subst h2 <;> exact ⟨h1.2, rfl⟩

/-- A word decodes only on the port that admits its command (R79). -/
theorem decodeAt_port {p : Port} {w : Word} {i : Instr} (h : decodeAt p w = .ok i) : i.port = p := by
  obtain ⟨f, h1, h2, -⟩ := decodeAt_ok.1 h
  exact (operandForm_row h1 h2).1

/-- The port the host places a word on is the port of its command. -/
theorem admittingPort_eq {w : Word} {i : Instr} (h : decodeWord w = .ok i) : admittingPort w = i.port :=
  (decodeAt_port h).symm

end Sys2Proof
end

