-- ==== Sys2Proof/Laws/State.lean ====
section
/-! SUPPORT. What each named update of the state does to each field: one lemma a field, so that no proof unfolds an update. -/

namespace Sys2Proof.Machine

/-! respond -/

@[simp] theorem respond_cfg (p : Port) (st : Status) (v : Word) (s : State) : (respond p st v s).cfg = s.cfg := rfl
@[simp] theorem respond_slot (p : Port) (st : Status) (v : Word) (s : State) : (respond p st v s).slot = s.slot := rfl
@[simp] theorem respond_head (p : Port) (st : Status) (v : Word) (s : State) : (respond p st v s).head = s.head := rfl
@[simp] theorem respond_tail (p : Port) (st : Status) (v : Word) (s : State) : (respond p st v s).tail = s.tail := rfl
@[simp] theorem respond_headC (p : Port) (st : Status) (v : Word) (s : State) : (respond p st v s).headC = s.headC := rfl
@[simp] theorem respond_tailP (p : Port) (st : Status) (v : Word) (s : State) : (respond p st v s).tailP = s.tailP := rfl
@[simp] theorem respond_asmSt (p : Port) (st : Status) (v : Word) (s : State) : (respond p st v s).asmSt = s.asmSt := rfl
@[simp] theorem respond_asmCnt (p : Port) (st : Status) (v : Word) (s : State) : (respond p st v s).asmCnt = s.asmCnt := rfl
@[simp] theorem respond_fbuf (p : Port) (st : Status) (v : Word) (s : State) : (respond p st v s).fbuf = s.fbuf := rfl
@[simp] theorem respond_vframe (p : Port) (st : Status) (v : Word) (s : State) : (respond p st v s).vframe = s.vframe := rfl
@[simp] theorem respond_vvalid (p : Port) (st : Status) (v : Word) (s : State) : (respond p st v s).vvalid = s.vvalid := rfl
@[simp] theorem respond_pollRem (p : Port) (st : Status) (v : Word) (s : State) : (respond p st v s).pollRem = s.pollRem := rfl
@[simp] theorem respond_pollLen (p : Port) (st : Status) (v : Word) (s : State) : (respond p st v s).pollLen = s.pollLen := rfl
@[simp] theorem respond_pollNew (p : Port) (st : Status) (v : Word) (s : State) : (respond p st v s).pollNew = s.pollNew := rfl
@[simp] theorem respond_pollBad (p : Port) (st : Status) (v : Word) (s : State) : (respond p st v s).pollBad = s.pollBad := rfl
@[simp] theorem respond_cntOvf (p : Port) (st : Status) (v : Word) (s : State) : (respond p st v s).cntOvf = s.cntOvf := rfl
@[simp] theorem respond_cntResync (p : Port) (st : Status) (v : Word) (s : State) : (respond p st v s).cntResync = s.cntResync := rfl
@[simp] theorem respond_cntEnderr (p : Port) (st : Status) (v : Word) (s : State) : (respond p st v s).cntEnderr = s.cntEnderr := rfl
@[simp] theorem respond_cntSumerr (p : Port) (st : Status) (v : Word) (s : State) : (respond p st v s).cntSumerr = s.cntSumerr := rfl
@[simp] theorem respond_cntFrame (p : Port) (st : Status) (v : Word) (s : State) : (respond p st v s).cntFrame = s.cntFrame := rfl
@[simp] theorem respond_faultCause (p : Port) (st : Status) (v : Word) (s : State) : (respond p st v s).faultCause = s.faultCause := rfl
@[simp] theorem respond_faultWord (p : Port) (st : Status) (v : Word) (s : State) : (respond p st v s).faultWord = s.faultWord := rfl
@[simp] theorem respond_faultPort (p : Port) (st : Status) (v : Word) (s : State) : (respond p st v s).faultPort = s.faultPort := rfl
@[simp] theorem respond_response (p : Port) (st : Status) (v : Word) (s : State) : (respond p st v s).response = some { port := p, status := st, value := v } := rfl
@[simp] theorem respond_turns (p : Port) (st : Status) (v : Word) (s : State) : (respond p st v s).turns = s.turns := rfl
@[simp] theorem respond_freeCount (p : Port) (st : Status) (v : Word) (s : State) : (respond p st v s).freeCount = s.freeCount := rfl
@[simp] theorem respond_storageDraw (p : Port) (st : Status) (v : Word) (s : State) : (respond p st v s).storageDraw = s.storageDraw := rfl

/-! noResponse -/

@[simp] theorem noResponse_cfg (s : State) : (noResponse s).cfg = s.cfg := rfl
@[simp] theorem noResponse_slot (s : State) : (noResponse s).slot = s.slot := rfl
@[simp] theorem noResponse_head (s : State) : (noResponse s).head = s.head := rfl
@[simp] theorem noResponse_tail (s : State) : (noResponse s).tail = s.tail := rfl
@[simp] theorem noResponse_headC (s : State) : (noResponse s).headC = s.headC := rfl
@[simp] theorem noResponse_tailP (s : State) : (noResponse s).tailP = s.tailP := rfl
@[simp] theorem noResponse_asmSt (s : State) : (noResponse s).asmSt = s.asmSt := rfl
@[simp] theorem noResponse_asmCnt (s : State) : (noResponse s).asmCnt = s.asmCnt := rfl
@[simp] theorem noResponse_fbuf (s : State) : (noResponse s).fbuf = s.fbuf := rfl
@[simp] theorem noResponse_vframe (s : State) : (noResponse s).vframe = s.vframe := rfl
@[simp] theorem noResponse_vvalid (s : State) : (noResponse s).vvalid = s.vvalid := rfl
@[simp] theorem noResponse_pollRem (s : State) : (noResponse s).pollRem = s.pollRem := rfl
@[simp] theorem noResponse_pollLen (s : State) : (noResponse s).pollLen = s.pollLen := rfl
@[simp] theorem noResponse_pollNew (s : State) : (noResponse s).pollNew = s.pollNew := rfl
@[simp] theorem noResponse_pollBad (s : State) : (noResponse s).pollBad = s.pollBad := rfl
@[simp] theorem noResponse_cntOvf (s : State) : (noResponse s).cntOvf = s.cntOvf := rfl
@[simp] theorem noResponse_cntResync (s : State) : (noResponse s).cntResync = s.cntResync := rfl
@[simp] theorem noResponse_cntEnderr (s : State) : (noResponse s).cntEnderr = s.cntEnderr := rfl
@[simp] theorem noResponse_cntSumerr (s : State) : (noResponse s).cntSumerr = s.cntSumerr := rfl
@[simp] theorem noResponse_cntFrame (s : State) : (noResponse s).cntFrame = s.cntFrame := rfl
@[simp] theorem noResponse_faultCause (s : State) : (noResponse s).faultCause = s.faultCause := rfl
@[simp] theorem noResponse_faultWord (s : State) : (noResponse s).faultWord = s.faultWord := rfl
@[simp] theorem noResponse_faultPort (s : State) : (noResponse s).faultPort = s.faultPort := rfl
@[simp] theorem noResponse_response (s : State) : (noResponse s).response = none := rfl
@[simp] theorem noResponse_turns (s : State) : (noResponse s).turns = s.turns := rfl
@[simp] theorem noResponse_freeCount (s : State) : (noResponse s).freeCount = s.freeCount := rfl
@[simp] theorem noResponse_storageDraw (s : State) : (noResponse s).storageDraw = s.storageDraw := rfl

/-! recordFault -/

@[simp] theorem recordFault_cfg (p : Port) (w : Word) (c : Cause) (s : State) : (recordFault p w c s).cfg = s.cfg := rfl
@[simp] theorem recordFault_slot (p : Port) (w : Word) (c : Cause) (s : State) : (recordFault p w c s).slot = s.slot := rfl
@[simp] theorem recordFault_head (p : Port) (w : Word) (c : Cause) (s : State) : (recordFault p w c s).head = s.head := rfl
@[simp] theorem recordFault_tail (p : Port) (w : Word) (c : Cause) (s : State) : (recordFault p w c s).tail = s.tail := rfl
@[simp] theorem recordFault_headC (p : Port) (w : Word) (c : Cause) (s : State) : (recordFault p w c s).headC = s.headC := rfl
@[simp] theorem recordFault_tailP (p : Port) (w : Word) (c : Cause) (s : State) : (recordFault p w c s).tailP = s.tailP := rfl
@[simp] theorem recordFault_asmSt (p : Port) (w : Word) (c : Cause) (s : State) : (recordFault p w c s).asmSt = s.asmSt := rfl
@[simp] theorem recordFault_asmCnt (p : Port) (w : Word) (c : Cause) (s : State) : (recordFault p w c s).asmCnt = s.asmCnt := rfl
@[simp] theorem recordFault_fbuf (p : Port) (w : Word) (c : Cause) (s : State) : (recordFault p w c s).fbuf = s.fbuf := rfl
@[simp] theorem recordFault_vframe (p : Port) (w : Word) (c : Cause) (s : State) : (recordFault p w c s).vframe = s.vframe := rfl
@[simp] theorem recordFault_vvalid (p : Port) (w : Word) (c : Cause) (s : State) : (recordFault p w c s).vvalid = s.vvalid := rfl
@[simp] theorem recordFault_pollRem (p : Port) (w : Word) (c : Cause) (s : State) : (recordFault p w c s).pollRem = s.pollRem := rfl
@[simp] theorem recordFault_pollLen (p : Port) (w : Word) (c : Cause) (s : State) : (recordFault p w c s).pollLen = s.pollLen := rfl
@[simp] theorem recordFault_pollNew (p : Port) (w : Word) (c : Cause) (s : State) : (recordFault p w c s).pollNew = s.pollNew := rfl
@[simp] theorem recordFault_pollBad (p : Port) (w : Word) (c : Cause) (s : State) : (recordFault p w c s).pollBad = s.pollBad := rfl
@[simp] theorem recordFault_cntOvf (p : Port) (w : Word) (c : Cause) (s : State) : (recordFault p w c s).cntOvf = s.cntOvf := rfl
@[simp] theorem recordFault_cntResync (p : Port) (w : Word) (c : Cause) (s : State) : (recordFault p w c s).cntResync = s.cntResync := rfl
@[simp] theorem recordFault_cntEnderr (p : Port) (w : Word) (c : Cause) (s : State) : (recordFault p w c s).cntEnderr = s.cntEnderr := rfl
@[simp] theorem recordFault_cntSumerr (p : Port) (w : Word) (c : Cause) (s : State) : (recordFault p w c s).cntSumerr = s.cntSumerr := rfl
@[simp] theorem recordFault_cntFrame (p : Port) (w : Word) (c : Cause) (s : State) : (recordFault p w c s).cntFrame = s.cntFrame := rfl
@[simp] theorem recordFault_faultCause (p : Port) (w : Word) (c : Cause) (s : State) : (recordFault p w c s).faultCause = s.faultCause ||| Cause.bit c := rfl
@[simp] theorem recordFault_faultWord (p : Port) (w : Word) (c : Cause) (s : State) : (recordFault p w c s).faultWord = if s.faultCause = 0 then w else s.faultWord := rfl
@[simp] theorem recordFault_faultPort (p : Port) (w : Word) (c : Cause) (s : State) : (recordFault p w c s).faultPort = if s.faultCause = 0 then p else s.faultPort := rfl
@[simp] theorem recordFault_response (p : Port) (w : Word) (c : Cause) (s : State) : (recordFault p w c s).response = s.response := rfl
@[simp] theorem recordFault_turns (p : Port) (w : Word) (c : Cause) (s : State) : (recordFault p w c s).turns = s.turns := rfl
@[simp] theorem recordFault_freeCount (p : Port) (w : Word) (c : Cause) (s : State) : (recordFault p w c s).freeCount = s.freeCount := rfl
@[simp] theorem recordFault_storageDraw (p : Port) (w : Word) (c : Cause) (s : State) : (recordFault p w c s).storageDraw = s.storageDraw := rfl

/-! raiseFault -/

@[simp] theorem raiseFault_cfg (p : Port) (w : Word) (c : Cause) (s : State) : (raiseFault p w c s).cfg = s.cfg := rfl
@[simp] theorem raiseFault_slot (p : Port) (w : Word) (c : Cause) (s : State) : (raiseFault p w c s).slot = s.slot := rfl
@[simp] theorem raiseFault_head (p : Port) (w : Word) (c : Cause) (s : State) : (raiseFault p w c s).head = s.head := rfl
@[simp] theorem raiseFault_tail (p : Port) (w : Word) (c : Cause) (s : State) : (raiseFault p w c s).tail = s.tail := rfl
@[simp] theorem raiseFault_headC (p : Port) (w : Word) (c : Cause) (s : State) : (raiseFault p w c s).headC = s.headC := rfl
@[simp] theorem raiseFault_tailP (p : Port) (w : Word) (c : Cause) (s : State) : (raiseFault p w c s).tailP = s.tailP := rfl
@[simp] theorem raiseFault_asmSt (p : Port) (w : Word) (c : Cause) (s : State) : (raiseFault p w c s).asmSt = s.asmSt := rfl
@[simp] theorem raiseFault_asmCnt (p : Port) (w : Word) (c : Cause) (s : State) : (raiseFault p w c s).asmCnt = s.asmCnt := rfl
@[simp] theorem raiseFault_fbuf (p : Port) (w : Word) (c : Cause) (s : State) : (raiseFault p w c s).fbuf = s.fbuf := rfl
@[simp] theorem raiseFault_vframe (p : Port) (w : Word) (c : Cause) (s : State) : (raiseFault p w c s).vframe = s.vframe := rfl
@[simp] theorem raiseFault_vvalid (p : Port) (w : Word) (c : Cause) (s : State) : (raiseFault p w c s).vvalid = s.vvalid := rfl
@[simp] theorem raiseFault_pollRem (p : Port) (w : Word) (c : Cause) (s : State) : (raiseFault p w c s).pollRem = s.pollRem := rfl
@[simp] theorem raiseFault_pollLen (p : Port) (w : Word) (c : Cause) (s : State) : (raiseFault p w c s).pollLen = s.pollLen := rfl
@[simp] theorem raiseFault_pollNew (p : Port) (w : Word) (c : Cause) (s : State) : (raiseFault p w c s).pollNew = s.pollNew := rfl
@[simp] theorem raiseFault_pollBad (p : Port) (w : Word) (c : Cause) (s : State) : (raiseFault p w c s).pollBad = s.pollBad := rfl
@[simp] theorem raiseFault_cntOvf (p : Port) (w : Word) (c : Cause) (s : State) : (raiseFault p w c s).cntOvf = s.cntOvf := rfl
@[simp] theorem raiseFault_cntResync (p : Port) (w : Word) (c : Cause) (s : State) : (raiseFault p w c s).cntResync = s.cntResync := rfl
@[simp] theorem raiseFault_cntEnderr (p : Port) (w : Word) (c : Cause) (s : State) : (raiseFault p w c s).cntEnderr = s.cntEnderr := rfl
@[simp] theorem raiseFault_cntSumerr (p : Port) (w : Word) (c : Cause) (s : State) : (raiseFault p w c s).cntSumerr = s.cntSumerr := rfl
@[simp] theorem raiseFault_cntFrame (p : Port) (w : Word) (c : Cause) (s : State) : (raiseFault p w c s).cntFrame = s.cntFrame := rfl
@[simp] theorem raiseFault_faultCause (p : Port) (w : Word) (c : Cause) (s : State) : (raiseFault p w c s).faultCause = s.faultCause ||| Cause.bit c := rfl
@[simp] theorem raiseFault_faultWord (p : Port) (w : Word) (c : Cause) (s : State) : (raiseFault p w c s).faultWord = if s.faultCause = 0 then w else s.faultWord := rfl
@[simp] theorem raiseFault_faultPort (p : Port) (w : Word) (c : Cause) (s : State) : (raiseFault p w c s).faultPort = if s.faultCause = 0 then p else s.faultPort := rfl
@[simp] theorem raiseFault_response (p : Port) (w : Word) (c : Cause) (s : State) : (raiseFault p w c s).response = some { port := p, status := .fault, value := BitVec.ofNat 16 (Cause.code c) } := rfl
@[simp] theorem raiseFault_turns (p : Port) (w : Word) (c : Cause) (s : State) : (raiseFault p w c s).turns = s.turns := rfl
@[simp] theorem raiseFault_freeCount (p : Port) (w : Word) (c : Cause) (s : State) : (raiseFault p w c s).freeCount = s.freeCount := rfl
@[simp] theorem raiseFault_storageDraw (p : Port) (w : Word) (c : Cause) (s : State) : (raiseFault p w c s).storageDraw = s.storageDraw := rfl

/-! advanceHead -/

@[simp] theorem advanceHead_cfg (s : State) : (advanceHead s).cfg = s.cfg := rfl
@[simp] theorem advanceHead_slot (s : State) : (advanceHead s).slot = s.slot := rfl
@[simp] theorem advanceHead_head (s : State) : (advanceHead s).head = nextIndex s.cfg s.head := rfl
@[simp] theorem advanceHead_tail (s : State) : (advanceHead s).tail = s.tail := rfl
@[simp] theorem advanceHead_headC (s : State) : (advanceHead s).headC = if s.cfg.syncMode = .immediate then nextIndex s.cfg s.head else s.headC := rfl
@[simp] theorem advanceHead_tailP (s : State) : (advanceHead s).tailP = s.tailP := rfl
@[simp] theorem advanceHead_asmSt (s : State) : (advanceHead s).asmSt = s.asmSt := rfl
@[simp] theorem advanceHead_asmCnt (s : State) : (advanceHead s).asmCnt = s.asmCnt := rfl
@[simp] theorem advanceHead_fbuf (s : State) : (advanceHead s).fbuf = s.fbuf := rfl
@[simp] theorem advanceHead_vframe (s : State) : (advanceHead s).vframe = s.vframe := rfl
@[simp] theorem advanceHead_vvalid (s : State) : (advanceHead s).vvalid = s.vvalid := rfl
@[simp] theorem advanceHead_pollRem (s : State) : (advanceHead s).pollRem = s.pollRem := rfl
@[simp] theorem advanceHead_pollLen (s : State) : (advanceHead s).pollLen = s.pollLen := rfl
@[simp] theorem advanceHead_pollNew (s : State) : (advanceHead s).pollNew = s.pollNew := rfl
@[simp] theorem advanceHead_pollBad (s : State) : (advanceHead s).pollBad = s.pollBad := rfl
@[simp] theorem advanceHead_cntOvf (s : State) : (advanceHead s).cntOvf = s.cntOvf := rfl
@[simp] theorem advanceHead_cntResync (s : State) : (advanceHead s).cntResync = s.cntResync := rfl
@[simp] theorem advanceHead_cntEnderr (s : State) : (advanceHead s).cntEnderr = s.cntEnderr := rfl
@[simp] theorem advanceHead_cntSumerr (s : State) : (advanceHead s).cntSumerr = s.cntSumerr := rfl
@[simp] theorem advanceHead_cntFrame (s : State) : (advanceHead s).cntFrame = s.cntFrame := rfl
@[simp] theorem advanceHead_faultCause (s : State) : (advanceHead s).faultCause = s.faultCause := rfl
@[simp] theorem advanceHead_faultWord (s : State) : (advanceHead s).faultWord = s.faultWord := rfl
@[simp] theorem advanceHead_faultPort (s : State) : (advanceHead s).faultPort = s.faultPort := rfl
@[simp] theorem advanceHead_response (s : State) : (advanceHead s).response = s.response := rfl
@[simp] theorem advanceHead_turns (s : State) : (advanceHead s).turns = s.turns := rfl
@[simp] theorem advanceHead_freeCount (s : State) : (advanceHead s).freeCount = s.freeCount := rfl
@[simp] theorem advanceHead_storageDraw (s : State) : (advanceHead s).storageDraw = s.storageDraw := rfl

/-! advanceTail -/

@[simp] theorem advanceTail_cfg (s : State) : (advanceTail s).cfg = s.cfg := rfl
@[simp] theorem advanceTail_slot (s : State) : (advanceTail s).slot = s.slot := rfl
@[simp] theorem advanceTail_head (s : State) : (advanceTail s).head = s.head := rfl
@[simp] theorem advanceTail_tail (s : State) : (advanceTail s).tail = nextIndex s.cfg s.tail := rfl
@[simp] theorem advanceTail_headC (s : State) : (advanceTail s).headC = s.headC := rfl
@[simp] theorem advanceTail_tailP (s : State) : (advanceTail s).tailP = if s.cfg.syncMode = .immediate then nextIndex s.cfg s.tail else s.tailP := rfl
@[simp] theorem advanceTail_asmSt (s : State) : (advanceTail s).asmSt = s.asmSt := rfl
@[simp] theorem advanceTail_asmCnt (s : State) : (advanceTail s).asmCnt = s.asmCnt := rfl
@[simp] theorem advanceTail_fbuf (s : State) : (advanceTail s).fbuf = s.fbuf := rfl
@[simp] theorem advanceTail_vframe (s : State) : (advanceTail s).vframe = s.vframe := rfl
@[simp] theorem advanceTail_vvalid (s : State) : (advanceTail s).vvalid = s.vvalid := rfl
@[simp] theorem advanceTail_pollRem (s : State) : (advanceTail s).pollRem = s.pollRem := rfl
@[simp] theorem advanceTail_pollLen (s : State) : (advanceTail s).pollLen = s.pollLen := rfl
@[simp] theorem advanceTail_pollNew (s : State) : (advanceTail s).pollNew = s.pollNew := rfl
@[simp] theorem advanceTail_pollBad (s : State) : (advanceTail s).pollBad = s.pollBad := rfl
@[simp] theorem advanceTail_cntOvf (s : State) : (advanceTail s).cntOvf = s.cntOvf := rfl
@[simp] theorem advanceTail_cntResync (s : State) : (advanceTail s).cntResync = s.cntResync := rfl
@[simp] theorem advanceTail_cntEnderr (s : State) : (advanceTail s).cntEnderr = s.cntEnderr := rfl
@[simp] theorem advanceTail_cntSumerr (s : State) : (advanceTail s).cntSumerr = s.cntSumerr := rfl
@[simp] theorem advanceTail_cntFrame (s : State) : (advanceTail s).cntFrame = s.cntFrame := rfl
@[simp] theorem advanceTail_faultCause (s : State) : (advanceTail s).faultCause = s.faultCause := rfl
@[simp] theorem advanceTail_faultWord (s : State) : (advanceTail s).faultWord = s.faultWord := rfl
@[simp] theorem advanceTail_faultPort (s : State) : (advanceTail s).faultPort = s.faultPort := rfl
@[simp] theorem advanceTail_response (s : State) : (advanceTail s).response = s.response := rfl
@[simp] theorem advanceTail_turns (s : State) : (advanceTail s).turns = s.turns := rfl
@[simp] theorem advanceTail_freeCount (s : State) : (advanceTail s).freeCount = s.freeCount := rfl
@[simp] theorem advanceTail_storageDraw (s : State) : (advanceTail s).storageDraw = s.storageDraw := rfl

/-! countOverflow -/

@[simp] theorem countOverflow_cfg (s : State) : (countOverflow s).cfg = s.cfg := rfl
@[simp] theorem countOverflow_slot (s : State) : (countOverflow s).slot = s.slot := rfl
@[simp] theorem countOverflow_head (s : State) : (countOverflow s).head = s.head := rfl
@[simp] theorem countOverflow_tail (s : State) : (countOverflow s).tail = s.tail := rfl
@[simp] theorem countOverflow_headC (s : State) : (countOverflow s).headC = s.headC := rfl
@[simp] theorem countOverflow_tailP (s : State) : (countOverflow s).tailP = s.tailP := rfl
@[simp] theorem countOverflow_asmSt (s : State) : (countOverflow s).asmSt = s.asmSt := rfl
@[simp] theorem countOverflow_asmCnt (s : State) : (countOverflow s).asmCnt = s.asmCnt := rfl
@[simp] theorem countOverflow_fbuf (s : State) : (countOverflow s).fbuf = s.fbuf := rfl
@[simp] theorem countOverflow_vframe (s : State) : (countOverflow s).vframe = s.vframe := rfl
@[simp] theorem countOverflow_vvalid (s : State) : (countOverflow s).vvalid = s.vvalid := rfl
@[simp] theorem countOverflow_pollRem (s : State) : (countOverflow s).pollRem = s.pollRem := rfl
@[simp] theorem countOverflow_pollLen (s : State) : (countOverflow s).pollLen = s.pollLen := rfl
@[simp] theorem countOverflow_pollNew (s : State) : (countOverflow s).pollNew = s.pollNew := rfl
@[simp] theorem countOverflow_pollBad (s : State) : (countOverflow s).pollBad = s.pollBad := rfl
@[simp] theorem countOverflow_cntOvf (s : State) : (countOverflow s).cntOvf = s.cntOvf + 1 := rfl
@[simp] theorem countOverflow_cntResync (s : State) : (countOverflow s).cntResync = s.cntResync := rfl
@[simp] theorem countOverflow_cntEnderr (s : State) : (countOverflow s).cntEnderr = s.cntEnderr := rfl
@[simp] theorem countOverflow_cntSumerr (s : State) : (countOverflow s).cntSumerr = s.cntSumerr := rfl
@[simp] theorem countOverflow_cntFrame (s : State) : (countOverflow s).cntFrame = s.cntFrame := rfl
@[simp] theorem countOverflow_faultCause (s : State) : (countOverflow s).faultCause = s.faultCause := rfl
@[simp] theorem countOverflow_faultWord (s : State) : (countOverflow s).faultWord = s.faultWord := rfl
@[simp] theorem countOverflow_faultPort (s : State) : (countOverflow s).faultPort = s.faultPort := rfl
@[simp] theorem countOverflow_response (s : State) : (countOverflow s).response = s.response := rfl
@[simp] theorem countOverflow_turns (s : State) : (countOverflow s).turns = s.turns := rfl
@[simp] theorem countOverflow_freeCount (s : State) : (countOverflow s).freeCount = s.freeCount := rfl
@[simp] theorem countOverflow_storageDraw (s : State) : (countOverflow s).storageDraw = s.storageDraw := rfl

/-! syncH -/

@[simp] theorem syncH_cfg (s : State) : (syncH s).cfg = s.cfg := rfl
@[simp] theorem syncH_slot (s : State) : (syncH s).slot = s.slot := rfl
@[simp] theorem syncH_head (s : State) : (syncH s).head = s.head := rfl
@[simp] theorem syncH_tail (s : State) : (syncH s).tail = s.tail := rfl
@[simp] theorem syncH_headC (s : State) : (syncH s).headC = nextIndex s.cfg s.headC := rfl
@[simp] theorem syncH_tailP (s : State) : (syncH s).tailP = s.tailP := rfl
@[simp] theorem syncH_asmSt (s : State) : (syncH s).asmSt = s.asmSt := rfl
@[simp] theorem syncH_asmCnt (s : State) : (syncH s).asmCnt = s.asmCnt := rfl
@[simp] theorem syncH_fbuf (s : State) : (syncH s).fbuf = s.fbuf := rfl
@[simp] theorem syncH_vframe (s : State) : (syncH s).vframe = s.vframe := rfl
@[simp] theorem syncH_vvalid (s : State) : (syncH s).vvalid = s.vvalid := rfl
@[simp] theorem syncH_pollRem (s : State) : (syncH s).pollRem = s.pollRem := rfl
@[simp] theorem syncH_pollLen (s : State) : (syncH s).pollLen = s.pollLen := rfl
@[simp] theorem syncH_pollNew (s : State) : (syncH s).pollNew = s.pollNew := rfl
@[simp] theorem syncH_pollBad (s : State) : (syncH s).pollBad = s.pollBad := rfl
@[simp] theorem syncH_cntOvf (s : State) : (syncH s).cntOvf = s.cntOvf := rfl
@[simp] theorem syncH_cntResync (s : State) : (syncH s).cntResync = s.cntResync := rfl
@[simp] theorem syncH_cntEnderr (s : State) : (syncH s).cntEnderr = s.cntEnderr := rfl
@[simp] theorem syncH_cntSumerr (s : State) : (syncH s).cntSumerr = s.cntSumerr := rfl
@[simp] theorem syncH_cntFrame (s : State) : (syncH s).cntFrame = s.cntFrame := rfl
@[simp] theorem syncH_faultCause (s : State) : (syncH s).faultCause = s.faultCause := rfl
@[simp] theorem syncH_faultWord (s : State) : (syncH s).faultWord = s.faultWord := rfl
@[simp] theorem syncH_faultPort (s : State) : (syncH s).faultPort = s.faultPort := rfl
@[simp] theorem syncH_response (s : State) : (syncH s).response = none := rfl
@[simp] theorem syncH_turns (s : State) : (syncH s).turns = s.turns := rfl
@[simp] theorem syncH_freeCount (s : State) : (syncH s).freeCount = s.freeCount := rfl
@[simp] theorem syncH_storageDraw (s : State) : (syncH s).storageDraw = s.storageDraw := rfl

/-! syncT -/

@[simp] theorem syncT_cfg (s : State) : (syncT s).cfg = s.cfg := rfl
@[simp] theorem syncT_slot (s : State) : (syncT s).slot = s.slot := rfl
@[simp] theorem syncT_head (s : State) : (syncT s).head = s.head := rfl
@[simp] theorem syncT_tail (s : State) : (syncT s).tail = s.tail := rfl
@[simp] theorem syncT_headC (s : State) : (syncT s).headC = s.headC := rfl
@[simp] theorem syncT_tailP (s : State) : (syncT s).tailP = nextIndex s.cfg s.tailP := rfl
@[simp] theorem syncT_asmSt (s : State) : (syncT s).asmSt = s.asmSt := rfl
@[simp] theorem syncT_asmCnt (s : State) : (syncT s).asmCnt = s.asmCnt := rfl
@[simp] theorem syncT_fbuf (s : State) : (syncT s).fbuf = s.fbuf := rfl
@[simp] theorem syncT_vframe (s : State) : (syncT s).vframe = s.vframe := rfl
@[simp] theorem syncT_vvalid (s : State) : (syncT s).vvalid = s.vvalid := rfl
@[simp] theorem syncT_pollRem (s : State) : (syncT s).pollRem = s.pollRem := rfl
@[simp] theorem syncT_pollLen (s : State) : (syncT s).pollLen = s.pollLen := rfl
@[simp] theorem syncT_pollNew (s : State) : (syncT s).pollNew = s.pollNew := rfl
@[simp] theorem syncT_pollBad (s : State) : (syncT s).pollBad = s.pollBad := rfl
@[simp] theorem syncT_cntOvf (s : State) : (syncT s).cntOvf = s.cntOvf := rfl
@[simp] theorem syncT_cntResync (s : State) : (syncT s).cntResync = s.cntResync := rfl
@[simp] theorem syncT_cntEnderr (s : State) : (syncT s).cntEnderr = s.cntEnderr := rfl
@[simp] theorem syncT_cntSumerr (s : State) : (syncT s).cntSumerr = s.cntSumerr := rfl
@[simp] theorem syncT_cntFrame (s : State) : (syncT s).cntFrame = s.cntFrame := rfl
@[simp] theorem syncT_faultCause (s : State) : (syncT s).faultCause = s.faultCause := rfl
@[simp] theorem syncT_faultWord (s : State) : (syncT s).faultWord = s.faultWord := rfl
@[simp] theorem syncT_faultPort (s : State) : (syncT s).faultPort = s.faultPort := rfl
@[simp] theorem syncT_response (s : State) : (syncT s).response = none := rfl
@[simp] theorem syncT_turns (s : State) : (syncT s).turns = s.turns := rfl
@[simp] theorem syncT_freeCount (s : State) : (syncT s).freeCount = s.freeCount := rfl
@[simp] theorem syncT_storageDraw (s : State) : (syncT s).storageDraw = s.storageDraw := rfl

/-! startPoll -/

@[simp] theorem startPoll_cfg (n : Nat) (s : State) : (startPoll n s).cfg = s.cfg := rfl
@[simp] theorem startPoll_slot (n : Nat) (s : State) : (startPoll n s).slot = s.slot := rfl
@[simp] theorem startPoll_head (n : Nat) (s : State) : (startPoll n s).head = s.head := rfl
@[simp] theorem startPoll_tail (n : Nat) (s : State) : (startPoll n s).tail = s.tail := rfl
@[simp] theorem startPoll_headC (n : Nat) (s : State) : (startPoll n s).headC = s.headC := rfl
@[simp] theorem startPoll_tailP (n : Nat) (s : State) : (startPoll n s).tailP = s.tailP := rfl
@[simp] theorem startPoll_asmSt (n : Nat) (s : State) : (startPoll n s).asmSt = s.asmSt := rfl
@[simp] theorem startPoll_asmCnt (n : Nat) (s : State) : (startPoll n s).asmCnt = s.asmCnt := rfl
@[simp] theorem startPoll_fbuf (n : Nat) (s : State) : (startPoll n s).fbuf = s.fbuf := rfl
@[simp] theorem startPoll_vframe (n : Nat) (s : State) : (startPoll n s).vframe = s.vframe := rfl
@[simp] theorem startPoll_vvalid (n : Nat) (s : State) : (startPoll n s).vvalid = s.vvalid := rfl
@[simp] theorem startPoll_pollRem (n : Nat) (s : State) : (startPoll n s).pollRem = BitVec.ofNat 16 n := rfl
@[simp] theorem startPoll_pollLen (n : Nat) (s : State) : (startPoll n s).pollLen = BitVec.ofNat 16 n := rfl
@[simp] theorem startPoll_pollNew (n : Nat) (s : State) : (startPoll n s).pollNew = false := rfl
@[simp] theorem startPoll_pollBad (n : Nat) (s : State) : (startPoll n s).pollBad = false := rfl
@[simp] theorem startPoll_cntOvf (n : Nat) (s : State) : (startPoll n s).cntOvf = s.cntOvf := rfl
@[simp] theorem startPoll_cntResync (n : Nat) (s : State) : (startPoll n s).cntResync = s.cntResync := rfl
@[simp] theorem startPoll_cntEnderr (n : Nat) (s : State) : (startPoll n s).cntEnderr = s.cntEnderr := rfl
@[simp] theorem startPoll_cntSumerr (n : Nat) (s : State) : (startPoll n s).cntSumerr = s.cntSumerr := rfl
@[simp] theorem startPoll_cntFrame (n : Nat) (s : State) : (startPoll n s).cntFrame = s.cntFrame := rfl
@[simp] theorem startPoll_faultCause (n : Nat) (s : State) : (startPoll n s).faultCause = s.faultCause := rfl
@[simp] theorem startPoll_faultWord (n : Nat) (s : State) : (startPoll n s).faultWord = s.faultWord := rfl
@[simp] theorem startPoll_faultPort (n : Nat) (s : State) : (startPoll n s).faultPort = s.faultPort := rfl
@[simp] theorem startPoll_response (n : Nat) (s : State) : (startPoll n s).response = s.response := rfl
@[simp] theorem startPoll_turns (n : Nat) (s : State) : (startPoll n s).turns = s.turns := rfl
@[simp] theorem startPoll_freeCount (n : Nat) (s : State) : (startPoll n s).freeCount = s.freeCount := rfl
@[simp] theorem startPoll_storageDraw (n : Nat) (s : State) : (startPoll n s).storageDraw = s.storageDraw := rfl

/-! pollCount -/

@[simp] theorem pollCount_cfg (ev : Event) (s : State) : (pollCount ev s).cfg = s.cfg := rfl
@[simp] theorem pollCount_slot (ev : Event) (s : State) : (pollCount ev s).slot = s.slot := rfl
@[simp] theorem pollCount_head (ev : Event) (s : State) : (pollCount ev s).head = s.head := rfl
@[simp] theorem pollCount_tail (ev : Event) (s : State) : (pollCount ev s).tail = s.tail := rfl
@[simp] theorem pollCount_headC (ev : Event) (s : State) : (pollCount ev s).headC = s.headC := rfl
@[simp] theorem pollCount_tailP (ev : Event) (s : State) : (pollCount ev s).tailP = s.tailP := rfl
@[simp] theorem pollCount_asmSt (ev : Event) (s : State) : (pollCount ev s).asmSt = s.asmSt := rfl
@[simp] theorem pollCount_asmCnt (ev : Event) (s : State) : (pollCount ev s).asmCnt = s.asmCnt := rfl
@[simp] theorem pollCount_fbuf (ev : Event) (s : State) : (pollCount ev s).fbuf = s.fbuf := rfl
@[simp] theorem pollCount_vframe (ev : Event) (s : State) : (pollCount ev s).vframe = s.vframe := rfl
@[simp] theorem pollCount_vvalid (ev : Event) (s : State) : (pollCount ev s).vvalid = s.vvalid := rfl
@[simp] theorem pollCount_pollRem (ev : Event) (s : State) : (pollCount ev s).pollRem = s.pollRem - 1 := rfl
@[simp] theorem pollCount_pollLen (ev : Event) (s : State) : (pollCount ev s).pollLen = s.pollLen := rfl
@[simp] theorem pollCount_pollNew (ev : Event) (s : State) : (pollCount ev s).pollNew = (s.pollNew || Event.isFrame ev) := rfl
@[simp] theorem pollCount_pollBad (ev : Event) (s : State) : (pollCount ev s).pollBad = (s.pollBad || Event.isBad ev) := rfl
@[simp] theorem pollCount_cntOvf (ev : Event) (s : State) : (pollCount ev s).cntOvf = s.cntOvf := rfl
@[simp] theorem pollCount_cntResync (ev : Event) (s : State) : (pollCount ev s).cntResync = s.cntResync := rfl
@[simp] theorem pollCount_cntEnderr (ev : Event) (s : State) : (pollCount ev s).cntEnderr = s.cntEnderr := rfl
@[simp] theorem pollCount_cntSumerr (ev : Event) (s : State) : (pollCount ev s).cntSumerr = s.cntSumerr := rfl
@[simp] theorem pollCount_cntFrame (ev : Event) (s : State) : (pollCount ev s).cntFrame = s.cntFrame := rfl
@[simp] theorem pollCount_faultCause (ev : Event) (s : State) : (pollCount ev s).faultCause = s.faultCause := rfl
@[simp] theorem pollCount_faultWord (ev : Event) (s : State) : (pollCount ev s).faultWord = s.faultWord := rfl
@[simp] theorem pollCount_faultPort (ev : Event) (s : State) : (pollCount ev s).faultPort = s.faultPort := rfl
@[simp] theorem pollCount_response (ev : Event) (s : State) : (pollCount ev s).response = if s.pollRem = 1 then some { port := .C, status := pollStatus (s.pollNew || Event.isFrame ev) (s.pollBad || Event.isBad ev), value := s.pollLen } else none := rfl
@[simp] theorem pollCount_turns (ev : Event) (s : State) : (pollCount ev s).turns = s.turns := rfl
@[simp] theorem pollCount_freeCount (ev : Event) (s : State) : (pollCount ev s).freeCount = s.freeCount := rfl
@[simp] theorem pollCount_storageDraw (ev : Event) (s : State) : (pollCount ev s).storageDraw = s.storageDraw := rfl

/-! countEnderr -/

@[simp] theorem countEnderr_cfg (s : State) : (countEnderr s).cfg = s.cfg := rfl
@[simp] theorem countEnderr_slot (s : State) : (countEnderr s).slot = s.slot := rfl
@[simp] theorem countEnderr_head (s : State) : (countEnderr s).head = s.head := rfl
@[simp] theorem countEnderr_tail (s : State) : (countEnderr s).tail = s.tail := rfl
@[simp] theorem countEnderr_headC (s : State) : (countEnderr s).headC = s.headC := rfl
@[simp] theorem countEnderr_tailP (s : State) : (countEnderr s).tailP = s.tailP := rfl
@[simp] theorem countEnderr_asmSt (s : State) : (countEnderr s).asmSt = s.asmSt := rfl
@[simp] theorem countEnderr_asmCnt (s : State) : (countEnderr s).asmCnt = s.asmCnt := rfl
@[simp] theorem countEnderr_fbuf (s : State) : (countEnderr s).fbuf = s.fbuf := rfl
@[simp] theorem countEnderr_vframe (s : State) : (countEnderr s).vframe = s.vframe := rfl
@[simp] theorem countEnderr_vvalid (s : State) : (countEnderr s).vvalid = s.vvalid := rfl
@[simp] theorem countEnderr_pollRem (s : State) : (countEnderr s).pollRem = s.pollRem := rfl
@[simp] theorem countEnderr_pollLen (s : State) : (countEnderr s).pollLen = s.pollLen := rfl
@[simp] theorem countEnderr_pollNew (s : State) : (countEnderr s).pollNew = s.pollNew := rfl
@[simp] theorem countEnderr_pollBad (s : State) : (countEnderr s).pollBad = s.pollBad := rfl
@[simp] theorem countEnderr_cntOvf (s : State) : (countEnderr s).cntOvf = s.cntOvf := rfl
@[simp] theorem countEnderr_cntResync (s : State) : (countEnderr s).cntResync = s.cntResync := rfl
@[simp] theorem countEnderr_cntEnderr (s : State) : (countEnderr s).cntEnderr = s.cntEnderr + 1 := rfl
@[simp] theorem countEnderr_cntSumerr (s : State) : (countEnderr s).cntSumerr = s.cntSumerr := rfl
@[simp] theorem countEnderr_cntFrame (s : State) : (countEnderr s).cntFrame = s.cntFrame := rfl
@[simp] theorem countEnderr_faultCause (s : State) : (countEnderr s).faultCause = s.faultCause := rfl
@[simp] theorem countEnderr_faultWord (s : State) : (countEnderr s).faultWord = s.faultWord := rfl
@[simp] theorem countEnderr_faultPort (s : State) : (countEnderr s).faultPort = s.faultPort := rfl
@[simp] theorem countEnderr_response (s : State) : (countEnderr s).response = s.response := rfl
@[simp] theorem countEnderr_turns (s : State) : (countEnderr s).turns = s.turns := rfl
@[simp] theorem countEnderr_freeCount (s : State) : (countEnderr s).freeCount = s.freeCount := rfl
@[simp] theorem countEnderr_storageDraw (s : State) : (countEnderr s).storageDraw = s.storageDraw := rfl

/-! countSumerr -/

@[simp] theorem countSumerr_cfg (s : State) : (countSumerr s).cfg = s.cfg := rfl
@[simp] theorem countSumerr_slot (s : State) : (countSumerr s).slot = s.slot := rfl
@[simp] theorem countSumerr_head (s : State) : (countSumerr s).head = s.head := rfl
@[simp] theorem countSumerr_tail (s : State) : (countSumerr s).tail = s.tail := rfl
@[simp] theorem countSumerr_headC (s : State) : (countSumerr s).headC = s.headC := rfl
@[simp] theorem countSumerr_tailP (s : State) : (countSumerr s).tailP = s.tailP := rfl
@[simp] theorem countSumerr_asmSt (s : State) : (countSumerr s).asmSt = s.asmSt := rfl
@[simp] theorem countSumerr_asmCnt (s : State) : (countSumerr s).asmCnt = s.asmCnt := rfl
@[simp] theorem countSumerr_fbuf (s : State) : (countSumerr s).fbuf = s.fbuf := rfl
@[simp] theorem countSumerr_vframe (s : State) : (countSumerr s).vframe = s.vframe := rfl
@[simp] theorem countSumerr_vvalid (s : State) : (countSumerr s).vvalid = s.vvalid := rfl
@[simp] theorem countSumerr_pollRem (s : State) : (countSumerr s).pollRem = s.pollRem := rfl
@[simp] theorem countSumerr_pollLen (s : State) : (countSumerr s).pollLen = s.pollLen := rfl
@[simp] theorem countSumerr_pollNew (s : State) : (countSumerr s).pollNew = s.pollNew := rfl
@[simp] theorem countSumerr_pollBad (s : State) : (countSumerr s).pollBad = s.pollBad := rfl
@[simp] theorem countSumerr_cntOvf (s : State) : (countSumerr s).cntOvf = s.cntOvf := rfl
@[simp] theorem countSumerr_cntResync (s : State) : (countSumerr s).cntResync = s.cntResync := rfl
@[simp] theorem countSumerr_cntEnderr (s : State) : (countSumerr s).cntEnderr = s.cntEnderr := rfl
@[simp] theorem countSumerr_cntSumerr (s : State) : (countSumerr s).cntSumerr = s.cntSumerr + 1 := rfl
@[simp] theorem countSumerr_cntFrame (s : State) : (countSumerr s).cntFrame = s.cntFrame := rfl
@[simp] theorem countSumerr_faultCause (s : State) : (countSumerr s).faultCause = s.faultCause := rfl
@[simp] theorem countSumerr_faultWord (s : State) : (countSumerr s).faultWord = s.faultWord := rfl
@[simp] theorem countSumerr_faultPort (s : State) : (countSumerr s).faultPort = s.faultPort := rfl
@[simp] theorem countSumerr_response (s : State) : (countSumerr s).response = s.response := rfl
@[simp] theorem countSumerr_turns (s : State) : (countSumerr s).turns = s.turns := rfl
@[simp] theorem countSumerr_freeCount (s : State) : (countSumerr s).freeCount = s.freeCount := rfl
@[simp] theorem countSumerr_storageDraw (s : State) : (countSumerr s).storageDraw = s.storageDraw := rfl

/-! countResync -/

@[simp] theorem countResync_cfg (s : State) : (countResync s).cfg = s.cfg := rfl
@[simp] theorem countResync_slot (s : State) : (countResync s).slot = s.slot := rfl
@[simp] theorem countResync_head (s : State) : (countResync s).head = s.head := rfl
@[simp] theorem countResync_tail (s : State) : (countResync s).tail = s.tail := rfl
@[simp] theorem countResync_headC (s : State) : (countResync s).headC = s.headC := rfl
@[simp] theorem countResync_tailP (s : State) : (countResync s).tailP = s.tailP := rfl
@[simp] theorem countResync_asmSt (s : State) : (countResync s).asmSt = s.asmSt := rfl
@[simp] theorem countResync_asmCnt (s : State) : (countResync s).asmCnt = s.asmCnt := rfl
@[simp] theorem countResync_fbuf (s : State) : (countResync s).fbuf = s.fbuf := rfl
@[simp] theorem countResync_vframe (s : State) : (countResync s).vframe = s.vframe := rfl
@[simp] theorem countResync_vvalid (s : State) : (countResync s).vvalid = s.vvalid := rfl
@[simp] theorem countResync_pollRem (s : State) : (countResync s).pollRem = s.pollRem := rfl
@[simp] theorem countResync_pollLen (s : State) : (countResync s).pollLen = s.pollLen := rfl
@[simp] theorem countResync_pollNew (s : State) : (countResync s).pollNew = s.pollNew := rfl
@[simp] theorem countResync_pollBad (s : State) : (countResync s).pollBad = s.pollBad := rfl
@[simp] theorem countResync_cntOvf (s : State) : (countResync s).cntOvf = s.cntOvf := rfl
@[simp] theorem countResync_cntResync (s : State) : (countResync s).cntResync = s.cntResync + 1 := rfl
@[simp] theorem countResync_cntEnderr (s : State) : (countResync s).cntEnderr = s.cntEnderr := rfl
@[simp] theorem countResync_cntSumerr (s : State) : (countResync s).cntSumerr = s.cntSumerr := rfl
@[simp] theorem countResync_cntFrame (s : State) : (countResync s).cntFrame = s.cntFrame := rfl
@[simp] theorem countResync_faultCause (s : State) : (countResync s).faultCause = s.faultCause := rfl
@[simp] theorem countResync_faultWord (s : State) : (countResync s).faultWord = s.faultWord := rfl
@[simp] theorem countResync_faultPort (s : State) : (countResync s).faultPort = s.faultPort := rfl
@[simp] theorem countResync_response (s : State) : (countResync s).response = s.response := rfl
@[simp] theorem countResync_turns (s : State) : (countResync s).turns = s.turns := rfl
@[simp] theorem countResync_freeCount (s : State) : (countResync s).freeCount = s.freeCount := rfl
@[simp] theorem countResync_storageDraw (s : State) : (countResync s).storageDraw = s.storageDraw := rfl

/-! acceptFrame -/

@[simp] theorem acceptFrame_cfg (s : State) : (acceptFrame s).cfg = s.cfg := rfl
@[simp] theorem acceptFrame_slot (s : State) : (acceptFrame s).slot = s.slot := rfl
@[simp] theorem acceptFrame_head (s : State) : (acceptFrame s).head = s.head := rfl
@[simp] theorem acceptFrame_tail (s : State) : (acceptFrame s).tail = s.tail := rfl
@[simp] theorem acceptFrame_headC (s : State) : (acceptFrame s).headC = s.headC := rfl
@[simp] theorem acceptFrame_tailP (s : State) : (acceptFrame s).tailP = s.tailP := rfl
@[simp] theorem acceptFrame_asmSt (s : State) : (acceptFrame s).asmSt = s.asmSt := rfl
@[simp] theorem acceptFrame_asmCnt (s : State) : (acceptFrame s).asmCnt = s.asmCnt := rfl
@[simp] theorem acceptFrame_fbuf (s : State) : (acceptFrame s).fbuf = s.fbuf := rfl
@[simp] theorem acceptFrame_vframe (s : State) : (acceptFrame s).vframe = s.vframe := rfl
@[simp] theorem acceptFrame_vvalid (s : State) : (acceptFrame s).vvalid = true := rfl
@[simp] theorem acceptFrame_pollRem (s : State) : (acceptFrame s).pollRem = s.pollRem := rfl
@[simp] theorem acceptFrame_pollLen (s : State) : (acceptFrame s).pollLen = s.pollLen := rfl
@[simp] theorem acceptFrame_pollNew (s : State) : (acceptFrame s).pollNew = s.pollNew := rfl
@[simp] theorem acceptFrame_pollBad (s : State) : (acceptFrame s).pollBad = s.pollBad := rfl
@[simp] theorem acceptFrame_cntOvf (s : State) : (acceptFrame s).cntOvf = s.cntOvf := rfl
@[simp] theorem acceptFrame_cntResync (s : State) : (acceptFrame s).cntResync = s.cntResync := rfl
@[simp] theorem acceptFrame_cntEnderr (s : State) : (acceptFrame s).cntEnderr = s.cntEnderr := rfl
@[simp] theorem acceptFrame_cntSumerr (s : State) : (acceptFrame s).cntSumerr = s.cntSumerr := rfl
@[simp] theorem acceptFrame_cntFrame (s : State) : (acceptFrame s).cntFrame = s.cntFrame + 1 := rfl
@[simp] theorem acceptFrame_faultCause (s : State) : (acceptFrame s).faultCause = s.faultCause := rfl
@[simp] theorem acceptFrame_faultWord (s : State) : (acceptFrame s).faultWord = s.faultWord := rfl
@[simp] theorem acceptFrame_faultPort (s : State) : (acceptFrame s).faultPort = s.faultPort := rfl
@[simp] theorem acceptFrame_response (s : State) : (acceptFrame s).response = s.response := rfl
@[simp] theorem acceptFrame_turns (s : State) : (acceptFrame s).turns = s.turns := rfl
@[simp] theorem acceptFrame_freeCount (s : State) : (acceptFrame s).freeCount = s.freeCount := rfl
@[simp] theorem acceptFrame_storageDraw (s : State) : (acceptFrame s).storageDraw = s.storageDraw := rfl

/-! openFrame -/

@[simp] theorem openFrame_cfg (s : State) : (openFrame s).cfg = s.cfg := rfl
@[simp] theorem openFrame_slot (s : State) : (openFrame s).slot = s.slot := rfl
@[simp] theorem openFrame_head (s : State) : (openFrame s).head = s.head := rfl
@[simp] theorem openFrame_tail (s : State) : (openFrame s).tail = s.tail := rfl
@[simp] theorem openFrame_headC (s : State) : (openFrame s).headC = s.headC := rfl
@[simp] theorem openFrame_tailP (s : State) : (openFrame s).tailP = s.tailP := rfl
@[simp] theorem openFrame_asmSt (s : State) : (openFrame s).asmSt = .filling := rfl
@[simp] theorem openFrame_asmCnt (s : State) : (openFrame s).asmCnt = 1 := rfl
@[simp] theorem openFrame_fbuf (s : State) : (openFrame s).fbuf = s.fbuf := rfl
@[simp] theorem openFrame_vframe (s : State) : (openFrame s).vframe = s.vframe := rfl
@[simp] theorem openFrame_vvalid (s : State) : (openFrame s).vvalid = s.vvalid := rfl
@[simp] theorem openFrame_pollRem (s : State) : (openFrame s).pollRem = s.pollRem := rfl
@[simp] theorem openFrame_pollLen (s : State) : (openFrame s).pollLen = s.pollLen := rfl
@[simp] theorem openFrame_pollNew (s : State) : (openFrame s).pollNew = s.pollNew := rfl
@[simp] theorem openFrame_pollBad (s : State) : (openFrame s).pollBad = s.pollBad := rfl
@[simp] theorem openFrame_cntOvf (s : State) : (openFrame s).cntOvf = s.cntOvf := rfl
@[simp] theorem openFrame_cntResync (s : State) : (openFrame s).cntResync = s.cntResync := rfl
@[simp] theorem openFrame_cntEnderr (s : State) : (openFrame s).cntEnderr = s.cntEnderr := rfl
@[simp] theorem openFrame_cntSumerr (s : State) : (openFrame s).cntSumerr = s.cntSumerr := rfl
@[simp] theorem openFrame_cntFrame (s : State) : (openFrame s).cntFrame = s.cntFrame := rfl
@[simp] theorem openFrame_faultCause (s : State) : (openFrame s).faultCause = s.faultCause := rfl
@[simp] theorem openFrame_faultWord (s : State) : (openFrame s).faultWord = s.faultWord := rfl
@[simp] theorem openFrame_faultPort (s : State) : (openFrame s).faultPort = s.faultPort := rfl
@[simp] theorem openFrame_response (s : State) : (openFrame s).response = s.response := rfl
@[simp] theorem openFrame_turns (s : State) : (openFrame s).turns = s.turns := rfl
@[simp] theorem openFrame_freeCount (s : State) : (openFrame s).freeCount = s.freeCount := rfl
@[simp] theorem openFrame_storageDraw (s : State) : (openFrame s).storageDraw = s.storageDraw := rfl

/-! growFrame -/

@[simp] theorem growFrame_cfg (s : State) : (growFrame s).cfg = s.cfg := rfl
@[simp] theorem growFrame_slot (s : State) : (growFrame s).slot = s.slot := rfl
@[simp] theorem growFrame_head (s : State) : (growFrame s).head = s.head := rfl
@[simp] theorem growFrame_tail (s : State) : (growFrame s).tail = s.tail := rfl
@[simp] theorem growFrame_headC (s : State) : (growFrame s).headC = s.headC := rfl
@[simp] theorem growFrame_tailP (s : State) : (growFrame s).tailP = s.tailP := rfl
@[simp] theorem growFrame_asmSt (s : State) : (growFrame s).asmSt = s.asmSt := rfl
@[simp] theorem growFrame_asmCnt (s : State) : (growFrame s).asmCnt = s.asmCnt + 1 := rfl
@[simp] theorem growFrame_fbuf (s : State) : (growFrame s).fbuf = s.fbuf := rfl
@[simp] theorem growFrame_vframe (s : State) : (growFrame s).vframe = s.vframe := rfl
@[simp] theorem growFrame_vvalid (s : State) : (growFrame s).vvalid = s.vvalid := rfl
@[simp] theorem growFrame_pollRem (s : State) : (growFrame s).pollRem = s.pollRem := rfl
@[simp] theorem growFrame_pollLen (s : State) : (growFrame s).pollLen = s.pollLen := rfl
@[simp] theorem growFrame_pollNew (s : State) : (growFrame s).pollNew = s.pollNew := rfl
@[simp] theorem growFrame_pollBad (s : State) : (growFrame s).pollBad = s.pollBad := rfl
@[simp] theorem growFrame_cntOvf (s : State) : (growFrame s).cntOvf = s.cntOvf := rfl
@[simp] theorem growFrame_cntResync (s : State) : (growFrame s).cntResync = s.cntResync := rfl
@[simp] theorem growFrame_cntEnderr (s : State) : (growFrame s).cntEnderr = s.cntEnderr := rfl
@[simp] theorem growFrame_cntSumerr (s : State) : (growFrame s).cntSumerr = s.cntSumerr := rfl
@[simp] theorem growFrame_cntFrame (s : State) : (growFrame s).cntFrame = s.cntFrame := rfl
@[simp] theorem growFrame_faultCause (s : State) : (growFrame s).faultCause = s.faultCause := rfl
@[simp] theorem growFrame_faultWord (s : State) : (growFrame s).faultWord = s.faultWord := rfl
@[simp] theorem growFrame_faultPort (s : State) : (growFrame s).faultPort = s.faultPort := rfl
@[simp] theorem growFrame_response (s : State) : (growFrame s).response = s.response := rfl
@[simp] theorem growFrame_turns (s : State) : (growFrame s).turns = s.turns := rfl
@[simp] theorem growFrame_freeCount (s : State) : (growFrame s).freeCount = s.freeCount := rfl
@[simp] theorem growFrame_storageDraw (s : State) : (growFrame s).storageDraw = s.storageDraw := rfl

/-! closeFrame -/

@[simp] theorem closeFrame_cfg (s : State) : (closeFrame s).cfg = s.cfg := rfl
@[simp] theorem closeFrame_slot (s : State) : (closeFrame s).slot = s.slot := rfl
@[simp] theorem closeFrame_head (s : State) : (closeFrame s).head = s.head := rfl
@[simp] theorem closeFrame_tail (s : State) : (closeFrame s).tail = s.tail := rfl
@[simp] theorem closeFrame_headC (s : State) : (closeFrame s).headC = s.headC := rfl
@[simp] theorem closeFrame_tailP (s : State) : (closeFrame s).tailP = s.tailP := rfl
@[simp] theorem closeFrame_asmSt (s : State) : (closeFrame s).asmSt = .idle := rfl
@[simp] theorem closeFrame_asmCnt (s : State) : (closeFrame s).asmCnt = 0 := rfl
@[simp] theorem closeFrame_fbuf (s : State) : (closeFrame s).fbuf = s.fbuf := rfl
@[simp] theorem closeFrame_vframe (s : State) : (closeFrame s).vframe = s.vframe := rfl
@[simp] theorem closeFrame_vvalid (s : State) : (closeFrame s).vvalid = s.vvalid := rfl
@[simp] theorem closeFrame_pollRem (s : State) : (closeFrame s).pollRem = s.pollRem := rfl
@[simp] theorem closeFrame_pollLen (s : State) : (closeFrame s).pollLen = s.pollLen := rfl
@[simp] theorem closeFrame_pollNew (s : State) : (closeFrame s).pollNew = s.pollNew := rfl
@[simp] theorem closeFrame_pollBad (s : State) : (closeFrame s).pollBad = s.pollBad := rfl
@[simp] theorem closeFrame_cntOvf (s : State) : (closeFrame s).cntOvf = s.cntOvf := rfl
@[simp] theorem closeFrame_cntResync (s : State) : (closeFrame s).cntResync = s.cntResync := rfl
@[simp] theorem closeFrame_cntEnderr (s : State) : (closeFrame s).cntEnderr = s.cntEnderr := rfl
@[simp] theorem closeFrame_cntSumerr (s : State) : (closeFrame s).cntSumerr = s.cntSumerr := rfl
@[simp] theorem closeFrame_cntFrame (s : State) : (closeFrame s).cntFrame = s.cntFrame := rfl
@[simp] theorem closeFrame_faultCause (s : State) : (closeFrame s).faultCause = s.faultCause := rfl
@[simp] theorem closeFrame_faultWord (s : State) : (closeFrame s).faultWord = s.faultWord := rfl
@[simp] theorem closeFrame_faultPort (s : State) : (closeFrame s).faultPort = s.faultPort := rfl
@[simp] theorem closeFrame_response (s : State) : (closeFrame s).response = s.response := rfl
@[simp] theorem closeFrame_turns (s : State) : (closeFrame s).turns = s.turns := rfl
@[simp] theorem closeFrame_freeCount (s : State) : (closeFrame s).freeCount = s.freeCount := rfl
@[simp] theorem closeFrame_storageDraw (s : State) : (closeFrame s).storageDraw = s.storageDraw := rfl

/-! putBack -/

@[simp] theorem putBack_cfg (t : Turn) (s : State) : (putBack t s).cfg = s.cfg := rfl
@[simp] theorem putBack_slot (t : Turn) (s : State) : (putBack t s).slot = s.slot := rfl
@[simp] theorem putBack_head (t : Turn) (s : State) : (putBack t s).head = s.head := rfl
@[simp] theorem putBack_tail (t : Turn) (s : State) : (putBack t s).tail = s.tail := rfl
@[simp] theorem putBack_headC (t : Turn) (s : State) : (putBack t s).headC = s.headC := rfl
@[simp] theorem putBack_tailP (t : Turn) (s : State) : (putBack t s).tailP = s.tailP := rfl
@[simp] theorem putBack_asmSt (t : Turn) (s : State) : (putBack t s).asmSt = s.asmSt := rfl
@[simp] theorem putBack_asmCnt (t : Turn) (s : State) : (putBack t s).asmCnt = s.asmCnt := rfl
@[simp] theorem putBack_fbuf (t : Turn) (s : State) : (putBack t s).fbuf = s.fbuf := rfl
@[simp] theorem putBack_vframe (t : Turn) (s : State) : (putBack t s).vframe = s.vframe := rfl
@[simp] theorem putBack_vvalid (t : Turn) (s : State) : (putBack t s).vvalid = s.vvalid := rfl
@[simp] theorem putBack_pollRem (t : Turn) (s : State) : (putBack t s).pollRem = s.pollRem := rfl
@[simp] theorem putBack_pollLen (t : Turn) (s : State) : (putBack t s).pollLen = s.pollLen := rfl
@[simp] theorem putBack_pollNew (t : Turn) (s : State) : (putBack t s).pollNew = s.pollNew := rfl
@[simp] theorem putBack_pollBad (t : Turn) (s : State) : (putBack t s).pollBad = s.pollBad := rfl
@[simp] theorem putBack_cntOvf (t : Turn) (s : State) : (putBack t s).cntOvf = s.cntOvf := rfl
@[simp] theorem putBack_cntResync (t : Turn) (s : State) : (putBack t s).cntResync = s.cntResync := rfl
@[simp] theorem putBack_cntEnderr (t : Turn) (s : State) : (putBack t s).cntEnderr = s.cntEnderr := rfl
@[simp] theorem putBack_cntSumerr (t : Turn) (s : State) : (putBack t s).cntSumerr = s.cntSumerr := rfl
@[simp] theorem putBack_cntFrame (t : Turn) (s : State) : (putBack t s).cntFrame = s.cntFrame := rfl
@[simp] theorem putBack_faultCause (t : Turn) (s : State) : (putBack t s).faultCause = s.faultCause := rfl
@[simp] theorem putBack_faultWord (t : Turn) (s : State) : (putBack t s).faultWord = s.faultWord := rfl
@[simp] theorem putBack_faultPort (t : Turn) (s : State) : (putBack t s).faultPort = s.faultPort := rfl
@[simp] theorem putBack_response (t : Turn) (s : State) : (putBack t s).response = s.response := rfl
@[simp] theorem putBack_turns (t : Turn) (s : State) : (putBack t s).turns = t :: s.turns := rfl
@[simp] theorem putBack_freeCount (t : Turn) (s : State) : (putBack t s).freeCount = s.freeCount := rfl
@[simp] theorem putBack_storageDraw (t : Turn) (s : State) : (putBack t s).storageDraw = s.storageDraw := rfl

/-! drawChoice -/

@[simp] theorem drawChoice_cfg (s : State) : (drawChoice s).cfg = s.cfg := rfl
@[simp] theorem drawChoice_slot (s : State) : (drawChoice s).slot = s.slot := rfl
@[simp] theorem drawChoice_head (s : State) : (drawChoice s).head = s.head := rfl
@[simp] theorem drawChoice_tail (s : State) : (drawChoice s).tail = s.tail := rfl
@[simp] theorem drawChoice_headC (s : State) : (drawChoice s).headC = s.headC := rfl
@[simp] theorem drawChoice_tailP (s : State) : (drawChoice s).tailP = s.tailP := rfl
@[simp] theorem drawChoice_asmSt (s : State) : (drawChoice s).asmSt = s.asmSt := rfl
@[simp] theorem drawChoice_asmCnt (s : State) : (drawChoice s).asmCnt = s.asmCnt := rfl
@[simp] theorem drawChoice_fbuf (s : State) : (drawChoice s).fbuf = s.fbuf := rfl
@[simp] theorem drawChoice_vframe (s : State) : (drawChoice s).vframe = s.vframe := rfl
@[simp] theorem drawChoice_vvalid (s : State) : (drawChoice s).vvalid = s.vvalid := rfl
@[simp] theorem drawChoice_pollRem (s : State) : (drawChoice s).pollRem = s.pollRem := rfl
@[simp] theorem drawChoice_pollLen (s : State) : (drawChoice s).pollLen = s.pollLen := rfl
@[simp] theorem drawChoice_pollNew (s : State) : (drawChoice s).pollNew = s.pollNew := rfl
@[simp] theorem drawChoice_pollBad (s : State) : (drawChoice s).pollBad = s.pollBad := rfl
@[simp] theorem drawChoice_cntOvf (s : State) : (drawChoice s).cntOvf = s.cntOvf := rfl
@[simp] theorem drawChoice_cntResync (s : State) : (drawChoice s).cntResync = s.cntResync := rfl
@[simp] theorem drawChoice_cntEnderr (s : State) : (drawChoice s).cntEnderr = s.cntEnderr := rfl
@[simp] theorem drawChoice_cntSumerr (s : State) : (drawChoice s).cntSumerr = s.cntSumerr := rfl
@[simp] theorem drawChoice_cntFrame (s : State) : (drawChoice s).cntFrame = s.cntFrame := rfl
@[simp] theorem drawChoice_faultCause (s : State) : (drawChoice s).faultCause = s.faultCause := rfl
@[simp] theorem drawChoice_faultWord (s : State) : (drawChoice s).faultWord = s.faultWord := rfl
@[simp] theorem drawChoice_faultPort (s : State) : (drawChoice s).faultPort = s.faultPort := rfl
@[simp] theorem drawChoice_response (s : State) : (drawChoice s).response = s.response := rfl
@[simp] theorem drawChoice_turns (s : State) : (drawChoice s).turns = s.turns := rfl
@[simp] theorem drawChoice_freeCount (s : State) : (drawChoice s).freeCount = s.freeCount + 1 := rfl
@[simp] theorem drawChoice_storageDraw (s : State) : (drawChoice s).storageDraw = s.storageDraw := rfl

/-! resetStep -/

@[simp] theorem resetStep_cfg (s : State) : (resetStep s).cfg = s.cfg := rfl
@[simp] theorem resetStep_slot (s : State) : (resetStep s).slot = [] := rfl
@[simp] theorem resetStep_head (s : State) : (resetStep s).head = 0 := rfl
@[simp] theorem resetStep_tail (s : State) : (resetStep s).tail = 0 := rfl
@[simp] theorem resetStep_headC (s : State) : (resetStep s).headC = 0 := rfl
@[simp] theorem resetStep_tailP (s : State) : (resetStep s).tailP = 0 := rfl
@[simp] theorem resetStep_asmSt (s : State) : (resetStep s).asmSt = .idle := rfl
@[simp] theorem resetStep_asmCnt (s : State) : (resetStep s).asmCnt = 0 := rfl
@[simp] theorem resetStep_fbuf (s : State) : (resetStep s).fbuf = [] := rfl
@[simp] theorem resetStep_vframe (s : State) : (resetStep s).vframe = [] := rfl
@[simp] theorem resetStep_vvalid (s : State) : (resetStep s).vvalid = false := rfl
@[simp] theorem resetStep_pollRem (s : State) : (resetStep s).pollRem = 0 := rfl
@[simp] theorem resetStep_pollLen (s : State) : (resetStep s).pollLen = 0 := rfl
@[simp] theorem resetStep_pollNew (s : State) : (resetStep s).pollNew = false := rfl
@[simp] theorem resetStep_pollBad (s : State) : (resetStep s).pollBad = false := rfl
@[simp] theorem resetStep_cntOvf (s : State) : (resetStep s).cntOvf = 0 := rfl
@[simp] theorem resetStep_cntResync (s : State) : (resetStep s).cntResync = 0 := rfl
@[simp] theorem resetStep_cntEnderr (s : State) : (resetStep s).cntEnderr = 0 := rfl
@[simp] theorem resetStep_cntSumerr (s : State) : (resetStep s).cntSumerr = 0 := rfl
@[simp] theorem resetStep_cntFrame (s : State) : (resetStep s).cntFrame = 0 := rfl
@[simp] theorem resetStep_faultCause (s : State) : (resetStep s).faultCause = 0 := rfl
@[simp] theorem resetStep_faultWord (s : State) : (resetStep s).faultWord = 0 := rfl
@[simp] theorem resetStep_faultPort (s : State) : (resetStep s).faultPort = .P := rfl
@[simp] theorem resetStep_response (s : State) : (resetStep s).response = none := rfl
@[simp] theorem resetStep_turns (s : State) : (resetStep s).turns = s.turns := rfl
@[simp] theorem resetStep_freeCount (s : State) : (resetStep s).freeCount = s.freeCount := rfl
@[simp] theorem resetStep_storageDraw (s : State) : (resetStep s).storageDraw = s.storageDraw + 1 := rfl

/-! setSpace -/

@[simp] theorem setSpace_rb_slot (s : State) (m : Memory) : (s.setSpace .rb m).slot = m := rfl
@[simp] theorem setSpace_rb_fbuf (s : State) (m : Memory) : (s.setSpace .rb m).fbuf = s.fbuf := rfl
@[simp] theorem setSpace_rb_vframe (s : State) (m : Memory) : (s.setSpace .rb m).vframe = s.vframe := rfl
@[simp] theorem setSpace_fb_slot (s : State) (m : Memory) : (s.setSpace .fb m).slot = s.slot := rfl
@[simp] theorem setSpace_fb_fbuf (s : State) (m : Memory) : (s.setSpace .fb m).fbuf = m := rfl
@[simp] theorem setSpace_fb_vframe (s : State) (m : Memory) : (s.setSpace .fb m).vframe = s.vframe := rfl
@[simp] theorem setSpace_vf_slot (s : State) (m : Memory) : (s.setSpace .vf m).slot = s.slot := rfl
@[simp] theorem setSpace_vf_fbuf (s : State) (m : Memory) : (s.setSpace .vf m).fbuf = s.fbuf := rfl
@[simp] theorem setSpace_vf_vframe (s : State) (m : Memory) : (s.setSpace .vf m).vframe = m := rfl
@[simp] theorem setSpace_cfg (s : State) (sp : Space) (m : Memory) : (s.setSpace sp m).cfg = s.cfg := by cases sp <;> rfl
@[simp] theorem setSpace_head (s : State) (sp : Space) (m : Memory) : (s.setSpace sp m).head = s.head := by cases sp <;> rfl
@[simp] theorem setSpace_tail (s : State) (sp : Space) (m : Memory) : (s.setSpace sp m).tail = s.tail := by cases sp <;> rfl
@[simp] theorem setSpace_headC (s : State) (sp : Space) (m : Memory) : (s.setSpace sp m).headC = s.headC := by cases sp <;> rfl
@[simp] theorem setSpace_tailP (s : State) (sp : Space) (m : Memory) : (s.setSpace sp m).tailP = s.tailP := by cases sp <;> rfl
@[simp] theorem setSpace_asmSt (s : State) (sp : Space) (m : Memory) : (s.setSpace sp m).asmSt = s.asmSt := by cases sp <;> rfl
@[simp] theorem setSpace_asmCnt (s : State) (sp : Space) (m : Memory) : (s.setSpace sp m).asmCnt = s.asmCnt := by cases sp <;> rfl
@[simp] theorem setSpace_vvalid (s : State) (sp : Space) (m : Memory) : (s.setSpace sp m).vvalid = s.vvalid := by cases sp <;> rfl
@[simp] theorem setSpace_pollRem (s : State) (sp : Space) (m : Memory) : (s.setSpace sp m).pollRem = s.pollRem := by cases sp <;> rfl
@[simp] theorem setSpace_pollLen (s : State) (sp : Space) (m : Memory) : (s.setSpace sp m).pollLen = s.pollLen := by cases sp <;> rfl
@[simp] theorem setSpace_pollNew (s : State) (sp : Space) (m : Memory) : (s.setSpace sp m).pollNew = s.pollNew := by cases sp <;> rfl
@[simp] theorem setSpace_pollBad (s : State) (sp : Space) (m : Memory) : (s.setSpace sp m).pollBad = s.pollBad := by cases sp <;> rfl
@[simp] theorem setSpace_cntOvf (s : State) (sp : Space) (m : Memory) : (s.setSpace sp m).cntOvf = s.cntOvf := by cases sp <;> rfl
@[simp] theorem setSpace_cntResync (s : State) (sp : Space) (m : Memory) : (s.setSpace sp m).cntResync = s.cntResync := by cases sp <;> rfl
@[simp] theorem setSpace_cntEnderr (s : State) (sp : Space) (m : Memory) : (s.setSpace sp m).cntEnderr = s.cntEnderr := by cases sp <;> rfl
@[simp] theorem setSpace_cntSumerr (s : State) (sp : Space) (m : Memory) : (s.setSpace sp m).cntSumerr = s.cntSumerr := by cases sp <;> rfl
@[simp] theorem setSpace_cntFrame (s : State) (sp : Space) (m : Memory) : (s.setSpace sp m).cntFrame = s.cntFrame := by cases sp <;> rfl
@[simp] theorem setSpace_faultCause (s : State) (sp : Space) (m : Memory) : (s.setSpace sp m).faultCause = s.faultCause := by cases sp <;> rfl
@[simp] theorem setSpace_faultWord (s : State) (sp : Space) (m : Memory) : (s.setSpace sp m).faultWord = s.faultWord := by cases sp <;> rfl
@[simp] theorem setSpace_faultPort (s : State) (sp : Space) (m : Memory) : (s.setSpace sp m).faultPort = s.faultPort := by cases sp <;> rfl
@[simp] theorem setSpace_response (s : State) (sp : Space) (m : Memory) : (s.setSpace sp m).response = s.response := by cases sp <;> rfl
@[simp] theorem setSpace_turns (s : State) (sp : Space) (m : Memory) : (s.setSpace sp m).turns = s.turns := by cases sp <;> rfl
@[simp] theorem setSpace_freeCount (s : State) (sp : Space) (m : Memory) : (s.setSpace sp m).freeCount = s.freeCount := by cases sp <;> rfl
@[simp] theorem setSpace_storageDraw (s : State) (sp : Space) (m : Memory) : (s.setSpace sp m).storageDraw = s.storageDraw := by cases sp <;> rfl

@[simp] theorem space_rb (s : State) : s.space .rb = s.slot := rfl
@[simp] theorem space_fb (s : State) : s.space .fb = s.fbuf := rfl
@[simp] theorem space_vf (s : State) : s.space .vf = s.vframe := rfl
@[simp] theorem size_rb (c : Config) : Space.size c .rb = c.n := rfl
@[simp] theorem size_fb (c : Config) : Space.size c .fb = 25 := rfl
@[simp] theorem size_vf (c : Config) : Space.size c .vf = 25 := rfl

/-- A space reads back what it was set to. -/
@[simp] theorem space_setSpace (s : State) (sp : Space) (m : Memory) : (s.setSpace sp m).space sp = m := by
  cases sp <;> rfl

/-- Setting one space leaves the others. -/
theorem space_setSpace_ne (s : State) {sp sp' : Space} (m : Memory) (h : sp' ≠ sp) :
    (s.setSpace sp m).space sp' = s.space sp' := by
  cases sp <;> cases sp' <;> first | rfl | exact absurd rfl h

end Sys2Proof.Machine
end

