-- ==== Sys2Proof/Laws/Index.lean ====
section
/-! SUPPORT. Index arithmetic modulo N turned into case distinctions linear arithmetic can settle (R2, R7, R106). -/

namespace Sys2Proof.Machine

theorem n_pos (c : Config) : 0 < c.n := Nat.two_pow_pos _

theorem two_le_n {c : Config} (h : c.wf) : 2 ≤ c.n := by
  have : 2 ^ 1 ≤ 2 ^ c.k := Nat.pow_le_pow_right (by decide) h.1
  simpa [Config.n] using this

theorem n_le_word {c : Config} (h : c.wf) : c.n ≤ 65536 := by
  have : 2 ^ c.k ≤ 2 ^ 16 := Nat.pow_le_pow_right (by decide) h.2
  simpa [Config.n] using this

/-- A number below 2N, reduced modulo N. -/
theorem mod_of_lt_double {a n : Nat} (h : a < 2 * n) : a % n = if a < n then a else a - n := by
  split
  · exact Nat.mod_eq_of_lt ‹_›
  · rw [Nat.mod_eq_sub_mod (by omega), Nat.mod_eq_of_lt (by omega)]

theorem nextIndex_lt (c : Config) (i : Nat) : nextIndex c i < c.n := Nat.mod_lt _ (n_pos c)

theorem nextIndex_of_lt {c : Config} {i : Nat} (h : i < c.n) :
    nextIndex c i = if i + 1 < c.n then i + 1 else 0 := by
  unfold nextIndex
  split
  · exact Nat.mod_eq_of_lt ‹_›
  · rw [show i + 1 = c.n by omega, Nat.mod_self]

/-- The next index, as linear arithmetic takes it. -/
theorem nextIndex_spec {c : Config} {i : Nat} (h : i < c.n) :
    (i + 1 < c.n ∧ nextIndex c i = i + 1) ∨ (i + 1 = c.n ∧ nextIndex c i = 0) := by
  rw [nextIndex_of_lt h]
  split <;> omega

theorem indexSub_lt (c : Config) (a b : Nat) : indexSub c a b < c.n := Nat.mod_lt _ (n_pos c)

theorem indexSub_of_lt {c : Config} {a b : Nat} (ha : a < c.n) (hb : b < c.n) :
    indexSub c a b = if b ≤ a then a - b else a + c.n - b := by
  unfold indexSub
  rw [Nat.mod_eq_of_lt hb, mod_of_lt_double (by omega)]
  split <;> split <;> omega

/-- A distance, as linear arithmetic takes it. -/
theorem indexSub_spec {c : Config} {a b : Nat} (ha : a < c.n) (hb : b < c.n) :
    (b ≤ a ∧ indexSub c a b + b = a) ∨ (a < b ∧ indexSub c a b + b = a + c.n) := by
  rw [indexSub_of_lt ha hb]
  split <;> omega

@[simp] theorem indexSub_self (c : Config) (a : Nat) : indexSub c a a = 0 := by
  unfold indexSub
  have := n_pos c
  have h := Nat.mod_lt a this
  rw [Nat.add_mod]
  rcases Nat.eq_zero_or_pos (a % c.n) with h0 | h0
  · simp [h0]
  · rw [Nat.mod_eq_of_lt (show c.n - a % c.n < c.n by omega), show a % c.n + (c.n - a % c.n) = c.n by omega, Nat.mod_self]

theorem indexSub_eq_zero {c : Config} {a b : Nat} (ha : a < c.n) (hb : b < c.n) : indexSub c a b = 0 ↔ a = b := by
  rw [indexSub_of_lt ha hb]
  split <;> omega

/-- The slot `j` places after `i`. -/
theorem slotAfter_of_lt {i j n : Nat} (hi : i < n) (hj : j < n) :
    (i + j) % n = if i + j < n then i + j else i + j - n := mod_of_lt_double (by omega)

/-- The slot `j` places after the next index is the slot `j + 1` places after this one. -/
theorem slotAfter_next (c : Config) (i j : Nat) : (nextIndex c i + j) % c.n = (i + (j + 1)) % c.n := by
  unfold nextIndex
  rw [Nat.mod_add_mod, Nat.add_assoc, Nat.add_comm 1 j]

end Sys2Proof.Machine
end

