-- ==== Sys2Proof/Laws/Memory.lean ====
section
/-! SUPPORT. The laws of storage: read after write, canonical form, the addresses listed (R51), and one lemma for each
operation that says all it can do. -/

namespace Sys2Proof.Machine

@[simp] theorem read_nil (a : Nat) : Memory.read [] a = none := rfl

/-- Reading where one wrote gives what was written (R51). -/
@[simp] theorem read_write_same (m : Memory) (a : Nat) (v : Byte) : Memory.read (Memory.write m a v) a = some v := by
  induction m with
  | nil => simp [Memory.write, Memory.read]
  | cons c m ih =>
    obtain ⟨k, u⟩ := c
    simp only [Memory.write]
    split
    · simp [Memory.read]
    · split
      · simp [Memory.read]
      · simp [Memory.read, *]

/-- A write leaves every other address (R51). -/
theorem read_write_other (m : Memory) {a b : Nat} (v : Byte) (h : b ≠ a) :
    Memory.read (Memory.write m a v) b = Memory.read m b := by
  induction m with
  | nil => simp [Memory.write, Memory.read, Ne.symm h]
  | cons c m ih =>
    obtain ⟨k, u⟩ := c
    simp only [Memory.write]
    split
    · simp [Memory.read, Ne.symm h]
    · split
      · subst k
        simp [Memory.read, Ne.symm h]
      · simp only [Memory.read, ih]

theorem read_write (m : Memory) (a b : Nat) (v : Byte) :
    Memory.read (Memory.write m a v) b = if b = a then some v else Memory.read m b := by
  split
  · subst b; exact read_write_same m a v
  · exact read_write_other m v ‹_›

/-- The canonical form, one cell at a time. -/
theorem wf_cons {c : Host.Cell} {m : Memory} :
    Memory.wf (c :: m) = true ↔ (∀ d ∈ m.head?, c.1 < d.1) ∧ Memory.wf m = true := by
  cases m <;> simp [Memory.wf]

theorem head_write (m : Memory) (a : Nat) (v : Byte) :
    ∀ d ∈ (Memory.write m a v).head?, d.1 = a ∨ d ∈ m.head? := by
  cases m with
  | nil => simp [Memory.write]
  | cons c m =>
    obtain ⟨k, u⟩ := c
    simp only [Memory.write]
    split
    · simp
    · split <;> simp

/-- A write keeps the canonical form. -/
theorem write_wf {m : Memory} (a : Nat) (v : Byte) (h : Memory.wf m = true) : Memory.wf (Memory.write m a v) = true := by
  induction m with
  | nil => rfl
  | cons c m ih =>
    obtain ⟨k, u⟩ := c
    obtain ⟨h1, h2⟩ := wf_cons.1 h
    simp only [Memory.write]
    split
    · exact wf_cons.2 ⟨by simpa, h⟩
    · split
      · subst k
        exact wf_cons.2 ⟨h1, h2⟩
      · refine wf_cons.2 ⟨fun d hd => ?_, ih h2⟩
        rcases head_write m a v d hd with h3 | h3
        · simp only at *; omega
        · exact h1 d h3

/-- The cells after a write are the cells before it and the one written. -/
theorem mem_write {m : Memory} {a : Nat} {v : Byte} {d : Host.Cell} (h : d ∈ Memory.write m a v) : d = (a, v) ∨ d ∈ m := by
  induction m with
  | nil => simpa [Memory.write] using h
  | cons c m ih =>
    obtain ⟨k, u⟩ := c
    simp only [Memory.write] at h
    split at h
    · simpa using h
    · split at h
      · rcases List.mem_cons.1 h with h | h
        · exact .inl h
        · exact .inr (.tail _ h)
      · rcases List.mem_cons.1 h with h | h
        · exact .inr (h ▸ .head _)
        · rcases ih h with h | h
          · exact .inl h
          · exact .inr (.tail _ h)

theorem write_below {m : Memory} {a n : Nat} {v : Byte} (ha : a < n) (h : ∀ d ∈ m, d.1 < n) :
    ∀ d ∈ Memory.write m a v, d.1 < n := by
  intro d hd
  rcases mem_write hd with rfl | hd
  · exact ha
  · exact h d hd

/-- Nothing is listed below the first cell of a canonical memory. -/
theorem read_none_of_head_lt {m : Memory} {a : Nat} (h : Memory.wf m = true) (ha : ∀ d ∈ m.head?, a < d.1) :
    Memory.read m a = none := by
  induction m with
  | nil => rfl
  | cons c m ih =>
    obtain ⟨k, u⟩ := c
    have hk : a < k := ha (k, u) (by simp)
    obtain ⟨h1, h2⟩ := wf_cons.1 h
    simp only [Memory.read, show k ≠ a by omega, if_false]
    exact ih h2 fun d hd => lt_trans hk (h1 d hd)

/-- Two canonical memories that read the same at every address are the same list. -/
theorem eq_of_read_eq {m m' : Memory} (h : Memory.wf m = true) (h' : Memory.wf m' = true)
    (hr : ∀ a, Memory.read m a = Memory.read m' a) : m = m' := by
  induction m generalizing m' with
  | nil =>
    cases m' with
    | nil => rfl
    | cons d m' => have := hr d.1; simp [Memory.read] at this
  | cons c m ih =>
    obtain ⟨k, u⟩ := c
    obtain ⟨h1, h2⟩ := wf_cons.1 h
    cases m' with
    | nil => have := hr k; simp [Memory.read] at this
    | cons d m' =>
      obtain ⟨k', u'⟩ := d
      obtain ⟨h1', h2'⟩ := wf_cons.1 h'
      have hk : k = k' := by
        rcases lt_trichotomy k k' with hlt | heq | hgt
        · have := hr k
          rw [read_none_of_head_lt (m := (k', u') :: m') h' (by simpa)] at this
          simp [Memory.read] at this
        · exact heq
        · have := hr k'
          rw [read_none_of_head_lt (m := (k, u) :: m) h (by simpa)] at this
          simp [Memory.read] at this
      subst k'
      have hu : u = u' := by simpa [Memory.read] using hr k
      subst u'
      congr 1
      refine ih h2 h2' fun a => ?_
      by_cases ha : k = a
      · subst a
        rw [read_none_of_head_lt h2 h1, read_none_of_head_lt h2' h1']
      · simpa [Memory.read, ha] using hr a

/-! Through the state. -/

theorem byteAt_setSpace (s : State) (sp : Space) (m : Memory) (a : Nat) :
    (s.setSpace sp m).byteAt sp a = Memory.read m a := by simp [State.byteAt]

theorem byteAt_setSpace_ne (s : State) {sp sp' : Space} (m : Memory) (h : sp' ≠ sp) (a : Nat) :
    (s.setSpace sp m).byteAt sp' a = s.byteAt sp' a := by simp [State.byteAt, space_setSpace_ne s m h]

/-- A byte written since reset is what its address holds (R51). -/
theorem cell_of_byteAt {s : State} {sp : Space} {a : Nat} {v : Byte} (h : s.byteAt sp a = some v) : s.cell sp a = v := by
  simp [State.cell, h]

/-- What an address holds depends on the bytes written in its space and on the draw alone. -/
theorem cell_congr {s t : State} {sp : Space} (a : Nat) (h : t.space sp = s.space sp) (hd : t.storageDraw = s.storageDraw) :
    t.cell sp a = s.cell sp a := by
  simp only [State.cell, State.byteAt, h, hd]

/-- Where one wrote, the address holds what was written, and every other address holds what it held (R51). -/
theorem cell_write (s : State) (sp : Space) (a : Nat) (v : Byte) (b : Nat) :
    (s.setSpace sp (Memory.write (s.space sp) a v)).cell sp b = if b = a then v else s.cell sp b := by
  simp only [State.cell, byteAt_setSpace, setSpace_storageDraw, read_write]
  by_cases h : b = a
  · simp only [if_pos h]
  · simp only [if_neg h, State.byteAt]

/-- All a read can do. -/
theorem memRead_ok {sp : Space} {a : Nat} {s : State} {v : Byte} :
    memRead sp a s = .ok v ↔ a < sp.size s.cfg ∧ v = s.cell sp a := by
  unfold memRead
  split <;> simp_all [eq_comm]

theorem memRead_eq {sp : Space} {a : Nat} {s : State} (ha : a < sp.size s.cfg) : memRead sp a s = .ok (s.cell sp a) :=
  memRead_ok.2 ⟨ha, rfl⟩

/-- All a write can do. -/
theorem memWrite_ok {sp : Space} {a : Nat} {v : Byte} {s t : State} :
    memWrite sp a v s = .ok t ↔ a < sp.size s.cfg ∧ t = s.setSpace sp (Memory.write (s.space sp) a v) := by
  unfold memWrite
  split <;> simp_all [eq_comm]

theorem memWrite_eq {sp : Space} {a : Nat} (v : Byte) {s : State} (ha : a < sp.size s.cfg) :
    memWrite sp a v s = .ok (s.setSpace sp (Memory.write (s.space sp) a v)) := memWrite_ok.2 ⟨ha, rfl⟩

/-- All a run of reads inside a space can do: it answers the bytes its addresses hold. -/
theorem readRun_eq {sp : Space} {a n : Nat} {s : State} (h : a + n ≤ sp.size s.cfg) :
    readRun sp a n s = .ok ((List.range n).map fun j => s.cell sp (a + j)) := by
  induction n generalizing a with
  | zero => rfl
  | succ n ih =>
    have hshift : ∀ j, a + 1 + j = a + (j + 1) := fun j => by omega
    unfold readRun
    simp only [memRead_eq (s := s) (sp := sp) (a := a) (by omega), ih (a := a + 1) (by omega), List.range_succ_eq_map,
      List.map_cons, List.map_map, Nat.add_zero, hshift]
    rfl

/-- Bytes written one after the other into a space, as a list of cells. -/
def writeCells : Nat → List Byte → Memory → Memory
  | _, [], m => m
  | a, v :: vs, m => writeCells (a + 1) vs (Memory.write m a v)

/-- All a run of writes can do. -/
theorem writeRun_eq {sp : Space} {a : Nat} {vs : List Byte} {s : State} (h : a + vs.length ≤ sp.size s.cfg) :
    writeRun sp a vs s = .ok (s.setSpace sp (writeCells a vs (s.space sp))) := by
  induction vs generalizing a s with
  | nil => cases sp <;> rfl
  | cons v vs ih =>
    rw [List.length_cons] at h
    unfold writeRun
    rw [memWrite_eq v (by omega)]
    simp only
    rw [ih (by simp only [setSpace_cfg]; omega)]
    simp only [space_setSpace, writeCells]
    cases sp <;> rfl

theorem writeCells_wf {a : Nat} {vs : List Byte} {m : Memory} (h : Memory.wf m = true) :
    Memory.wf (writeCells a vs m) = true := by
  induction vs generalizing a m with
  | nil => exact h
  | cons v vs ih => exact ih (write_wf a v h)

theorem writeCells_below {a n : Nat} {vs : List Byte} {m : Memory} (h : ∀ d ∈ m, d.1 < n) (hl : a + vs.length ≤ n) :
    ∀ d ∈ writeCells a vs m, d.1 < n := by
  induction vs generalizing a m with
  | nil => exact h
  | cons v vs ih =>
    rw [List.length_cons] at hl
    exact ih (write_below (by omega) h) (by omega)

/-- What a run of writes leaves at each address. -/
theorem read_writeCells (a : Nat) (vs : List Byte) (m : Memory) (b : Nat) :
    Memory.read (writeCells a vs m) b =
      if a ≤ b ∧ b < a + vs.length then vs[b - a]? else Memory.read m b := by
  induction vs generalizing a m with
  | nil => simp [writeCells]
  | cons v vs ih =>
    rw [writeCells, ih, read_write, List.length_cons]
    by_cases h1 : a + 1 ≤ b ∧ b < a + 1 + vs.length
    · rw [if_pos h1, if_pos (by omega), show b - a = (b - (a + 1)) + 1 by omega, List.getElem?_cons_succ]
    · rw [if_neg h1]
      by_cases h2 : b = a
      · subst b; simp
      · rw [if_neg h2, if_neg (by omega)]

end Sys2Proof.Machine
end

