-- ==== Sys2Proof/Laws/Steps.lean ====
section
/-! SUPPORT. For each shared operation and meaning, once, everything it can do: the lemmas the proofs cite instead of unfolding. -/

namespace Sys2Proof.Machine

/-! Shared operations. -/

theorem takeByte_ok {s t : State} {b : Byte} :
    takeByte s = .ok (b, t) ↔ s.tail < s.cfg.n ∧ b = s.cell .rb s.tail ∧ t = advanceTail s := by
  unfold takeByte
  constructor
  · intro h
    split at h
    · cases h
    · rename_i v hv
      have := memRead_ok.1 hv
      cases h
      exact ⟨this.1, this.2, rfl⟩
  · rintro ⟨h1, rfl, rfl⟩
    rw [memRead_eq (sp := .rb) h1]

theorem polling_eq_false {s : State} (h : s.pollRem = 0) : s.polling = false := by rw [State.polling, h]; rfl

theorem polling_eq_true {s : State} (h : s.pollRem ≠ 0) : s.polling = true := by
  rw [State.polling, bne_iff_ne]; exact h

theorem whenNotPolling_idle {s : State} (r : Result) (h : s.pollRem = 0) : whenNotPolling s r = r := by
  simp [whenNotPolling, polling_eq_false h]

theorem whenNotPolling_busy {s : State} (r : Result) (h : s.pollRem ≠ 0) :
    whenNotPolling s r = .fault .consumerBusy := by
  simp [whenNotPolling, polling_eq_true h]

theorem whenNotPolling_next {s t : State} {r : Result} : whenNotPolling s r = .next t ↔ s.pollRem = 0 ∧ r = .next t := by
  by_cases h : s.pollRem = 0
  · rw [whenNotPolling_idle r h]
    exact ⟨fun h1 => ⟨h, h1⟩, fun h1 => h1.2⟩
  · rw [whenNotPolling_busy r h]
    exact ⟨nofun, fun h1 => absurd h1.1 h⟩

/-! The assembler (R123 to R127). -/

/-- A window of 25 bytes is loaded into the valid-frame register (R127). -/
def loadFrame (f : List Byte) (s : State) : State := s.setSpace .vf (writeCells 0 f s.vframe)

/-- A byte kept at address `a` of the partial frame. -/
def keepByte (a : Nat) (b : Byte) (s : State) : State := s.setSpace .fb (Memory.write s.fbuf a b)

theorem validate_endErr {f : List Byte} (s : State) (h : endOk f = false) : validate f s = .ok (.endErr, countEnderr s) := by
  simp [validate, h]

theorem validate_sumErr {f : List Byte} (s : State) (h : endOk f = true) (h' : sumOk f = false) :
    validate f s = .ok (.sumErr, countSumerr s) := by simp [validate, h, h']

theorem validate_frame {f : List Byte} (s : State) (hl : f.length = 25) (h : endOk f = true) (h' : sumOk f = true) :
    validate f s = .ok (.frame, acceptFrame (loadFrame f s)) := by
  unfold validate
  rw [if_neg (by simp [h]), if_neg (by simp [h']), writeRun_eq (by simp [hl])]
  rfl

/-- All Validate can do with a whole window. -/
theorem validate_cases {f : List Byte} (s : State) (hl : f.length = 25) :
    (endOk f = false ∧ validate f s = .ok (.endErr, countEnderr s)) ∨
    (endOk f = true ∧ sumOk f = false ∧ validate f s = .ok (.sumErr, countSumerr s)) ∨
    (endOk f = true ∧ sumOk f = true ∧ validate f s = .ok (.frame, acceptFrame (loadFrame f s))) := by
  cases h1 : endOk f
  · exact .inl ⟨rfl, validate_endErr s h1⟩
  · cases h2 : sumOk f
    · exact .inr (.inl ⟨rfl, rfl, validate_sumErr s h1 h2⟩)
    · exact .inr (.inr ⟨rfl, rfl, validate_frame s hl h1 h2⟩)

theorem asmStep_idle_start {s : State} (h : s.asmSt = .idle) :
    asmStep startMarker s = .ok (.kept, openFrame (keepByte 0 startMarker s)) := by
  simp only [asmStep, h, asmStepIdle, if_true]
  rw [memWrite_eq startMarker (sp := .fb) (by simp)]
  rfl

theorem asmStep_idle_discard {s : State} {b : Byte} (h : s.asmSt = .idle) (hb : b ≠ startMarker) :
    asmStep b s = .ok (.discard, countResync s) := by
  simp [asmStep, h, asmStepIdle, hb]

theorem asmStep_filling_kept {s : State} (b : Byte) (h : s.asmSt = .filling) (hc : s.asmCnt.toNat < 24) :
    asmStep b s = .ok (.kept, growFrame (keepByte s.asmCnt.toNat b s)) := by
  simp only [asmStep, h, asmStepFilling]
  rw [memWrite_eq b (sp := .fb) (by simp only [size_fb]; omega)]
  have : s.asmCnt.toNat + 1 < frameLen := by simp only [frameLen]; omega
  simp only [this, if_true]
  rfl

/-- The 25th byte completes the window: the 24 bytes the partial frame holds, and that byte (R124). -/
theorem asmStep_filling_last {s : State} (b : Byte) (h : s.asmSt = .filling) (hc : s.asmCnt.toNat = 24) :
    asmStep b s = validate ((List.range 24).map (s.cell .fb) ++ [b]) (closeFrame (keepByte 24 b s)) := by
  simp only [asmStep, h, asmStepFilling]
  rw [memWrite_eq b (sp := .fb) (by simp only [size_fb]; omega)]
  have : ¬ s.asmCnt.toNat + 1 < frameLen := by simp only [frameLen]; omega
  simp only [this, if_false]
  rw [readRun_eq (by simp)]
  simp only [hc]
  congr 2
  refine List.map_congr_left fun j hj => ?_
  have := List.mem_range.1 hj
  rw [cell_write, if_neg (by omega), Nat.zero_add]

/-- What AsmStep does not write. -/
def sameOutsideAssembler (s t : State) : Prop :=
  t.cfg = s.cfg ∧ t.slot = s.slot ∧ t.head = s.head ∧ t.tail = s.tail ∧ t.headC = s.headC ∧ t.tailP = s.tailP ∧
  t.pollRem = s.pollRem ∧ t.pollLen = s.pollLen ∧ t.pollNew = s.pollNew ∧ t.pollBad = s.pollBad ∧ t.cntOvf = s.cntOvf ∧
  t.faultCause = s.faultCause ∧ t.faultWord = s.faultWord ∧ t.faultPort = s.faultPort ∧ t.response = s.response ∧
  t.turns = s.turns ∧ t.freeCount = s.freeCount ∧ t.storageDraw = s.storageDraw

/-- A run of writes that succeeds is inside its space, and is one change of the space. -/
theorem writeRun_ok {sp : Space} {a : Nat} {vs : List Byte} {s t : State} (h : writeRun sp a vs s = .ok t) :
    (vs ≠ [] → a + vs.length ≤ sp.size s.cfg) ∧ t = s.setSpace sp (writeCells a vs (s.space sp)) := by
  induction vs generalizing a s with
  | nil =>
    obtain rfl : s = t := by simpa [writeRun] using h
    exact ⟨nofun, by cases sp <;> rfl⟩
  | cons v vs ih =>
    unfold writeRun at h
    rcases hw : memWrite sp a v s with f | u
    · simp [hw] at h
    · obtain ⟨h1, rfl⟩ := memWrite_ok.1 hw
      simp only [hw] at h
      obtain ⟨h2, rfl⟩ := ih h
      refine ⟨fun _ => ?_, ?_⟩
      · rw [List.length_cons]
        cases vs with
        | nil => simp only [List.length_nil]; omega
        | cons x xs => have := h2 nofun; simp only [setSpace_cfg] at this; omega
      · simp only [space_setSpace, writeCells]
        cases sp <;> rfl

/-- Validate, from any state and with any window, writes nothing outside the assembler's domain and keeps storage in form. -/
theorem validate_writes {f : List Byte} {s t : State} {ev : Event} (h : validate f s = .ok (ev, t)) :
    sameOutsideAssembler s t ∧ (s.storageForm → t.storageForm) := by
  unfold validate at h
  split at h
  · obtain ⟨-, rfl⟩ := by simpa using h
    exact ⟨⟨rfl, rfl, rfl, rfl, rfl, rfl, rfl, rfl, rfl, rfl, rfl, rfl, rfl, rfl, rfl, rfl, rfl, rfl⟩, id⟩
  · split at h
    · obtain ⟨-, rfl⟩ := by simpa using h
      exact ⟨⟨rfl, rfl, rfl, rfl, rfl, rfl, rfl, rfl, rfl, rfl, rfl, rfl, rfl, rfl, rfl, rfl, rfl, rfl⟩, id⟩
    · rcases hw : writeRun .vf 0 f s with e | u
      · simp [hw] at h
      · simp only [hw] at h
        obtain ⟨-, rfl⟩ := by simpa using h
        obtain ⟨h1, rfl⟩ := writeRun_ok hw
        refine ⟨⟨rfl, rfl, rfl, rfl, rfl, rfl, rfl, rfl, rfl, rfl, rfl, rfl, rfl, rfl, rfl, rfl, rfl, rfl⟩, fun hs => ?_⟩
        refine ⟨⟨hs.1.1, hs.1.2.1, writeCells_wf hs.1.2.2⟩, hs.2.1, hs.2.2.1, ?_⟩
        cases f with
        | nil => exact hs.2.2.2
        | cons x xs => exact writeCells_below hs.2.2.2 (h1 nofun)

theorem validate_same {f : List Byte} {s t : State} {ev : Event} (h : validate f s = .ok (ev, t)) :
    sameOutsideAssembler s t := (validate_writes h).1

/-- AsmStep, from any state, writes nothing outside the assembler's domain and keeps storage in form (R41, R50). -/
theorem asmStep_writes {b : Byte} {s t : State} {ev : Event} (h : asmStep b s = .ok (ev, t)) :
    sameOutsideAssembler s t ∧ (s.storageForm → t.storageForm) := by
  have hkeep : ∀ {a : Nat} {u : State}, memWrite .fb a b s = .ok u →
      sameOutsideAssembler s u ∧ (s.storageForm → u.storageForm) := by
    intro a u hw
    obtain ⟨h1, rfl⟩ := memWrite_ok.1 hw
    refine ⟨⟨rfl, rfl, rfl, rfl, rfl, rfl, rfl, rfl, rfl, rfl, rfl, rfl, rfl, rfl, rfl, rfl, rfl, rfl⟩, fun hs => ?_⟩
    exact ⟨⟨hs.1.1, write_wf a b hs.1.2.1, hs.1.2.2⟩, hs.2.1, write_below h1 hs.2.2.1, hs.2.2.2⟩
  unfold asmStep at h
  split at h
  · unfold asmStepIdle at h
    split at h
    · rcases hw : memWrite .fb 0 b s with e | u
      · simp [hw] at h
      · simp only [hw] at h
        obtain ⟨-, rfl⟩ := by simpa using h
        have hk := hkeep hw
        exact ⟨hk.1, hk.2⟩
    · obtain ⟨-, rfl⟩ := by simpa using h
      exact ⟨⟨rfl, rfl, rfl, rfl, rfl, rfl, rfl, rfl, rfl, rfl, rfl, rfl, rfl, rfl, rfl, rfl, rfl, rfl⟩, id⟩
  · unfold asmStepFilling at h
    rcases hw : memWrite .fb s.asmCnt.toNat b s with e | u
    · simp [hw] at h
    · simp only [hw] at h
      split at h
      · obtain ⟨-, rfl⟩ := by simpa using h
        have hk := hkeep hw
        exact ⟨hk.1, hk.2⟩
      · rcases hr : readRun .fb 0 24 u with e | f
        · simp [hr] at h
        · simp only [hr] at h
          obtain ⟨h1, h2⟩ := validate_writes h
          obtain ⟨h3, h4⟩ := hkeep hw
          obtain ⟨c1, c2, c3, c4, c5, c6, c7, c8, c9, c10, c11, c12, c13, c14, c15, c16, c17, c18⟩ := h1
          obtain ⟨d1, d2, d3, d4, d5, d6, d7, d8, d9, d10, d11, d12, d13, d14, d15, d16, d17, d18⟩ := h3
          exact ⟨⟨c1.trans d1, c2.trans d2, c3.trans d3, c4.trans d4, c5.trans d5, c6.trans d6, c7.trans d7,
            c8.trans d8, c9.trans d9, c10.trans d10, c11.trans d11, c12.trans d12, c13.trans d13, c14.trans d14,
            c15.trans d15, c16.trans d16, c17.trans d17, c18.trans d18⟩, fun hs => h2 (h4 hs)⟩

/-- All AsmStep can do in a state whose assembler is in form. -/
theorem asmStep_cases {s : State} (b : Byte) (ha : s.asmForm) :
    (s.asmSt = .idle ∧ b = startMarker ∧ asmStep b s = .ok (.kept, openFrame (keepByte 0 startMarker s))) ∨
    (s.asmSt = .idle ∧ b ≠ startMarker ∧ asmStep b s = .ok (.discard, countResync s)) ∨
    (s.asmSt = .filling ∧ s.asmCnt.toNat < 24 ∧ asmStep b s = .ok (.kept, growFrame (keepByte s.asmCnt.toNat b s))) ∨
    (s.asmSt = .filling ∧ s.asmCnt.toNat = 24 ∧
      asmStep b s = validate ((List.range 24).map (s.cell .fb) ++ [b]) (closeFrame (keepByte 24 b s))) := by
  have hst : s.asmSt = .idle ∨ s.asmSt = .filling := by cases s.asmSt <;> simp
  rcases hst with h | h
  · by_cases hb : b = startMarker
    · subst b
      exact .inl ⟨h, rfl, asmStep_idle_start h⟩
    · exact .inr (.inl ⟨h, hb, asmStep_idle_discard h hb⟩)
  · have hc := ha.2 h
    by_cases h24 : s.asmCnt.toNat < 24
    · exact .inr (.inr (.inl ⟨h, h24, asmStep_filling_kept b h h24⟩))
    · have h24' : s.asmCnt.toNat = 24 := by omega
      exact .inr (.inr (.inr ⟨h, h24', asmStep_filling_last b h h24'⟩))

/-! The meanings, each with the states it can answer. -/

theorem execPush_next {b : Byte} {s t : State} (h : execPush b s = .next t) :
    (nextIndex s.cfg s.head = s.tailP ∧ t = respond .P .full 0 (countOverflow s)) ∨
    (nextIndex s.cfg s.head ≠ s.tailP ∧ s.head < s.cfg.n ∧
      t = respond .P .ok 0 (advanceHead (s.setSpace .rb (Memory.write s.slot s.head b)))) := by
  unfold execPush at h
  split at h
  · exact .inl ⟨‹_›, by simpa [eq_comm] using h⟩
  · rcases hw : memWrite .rb s.head b s with f | u
    · simp [hw] at h
    · obtain ⟨h1, rfl⟩ := memWrite_ok.1 hw
      exact .inr ⟨‹_›, h1, by simpa [hw, eq_comm] using h⟩

theorem execPop_next {s t : State} (h : execPop s = .next t) :
    s.pollRem = 0 ∧ ((s.headC = s.tail ∧ t = respond .C .empty 0 s) ∨
      (s.headC ≠ s.tail ∧ s.tail < s.cfg.n ∧
        t = respond .C .ok ((s.cell .rb s.tail).setWidth 16) (advanceTail s))) := by
  unfold execPop at h
  obtain ⟨h0, h⟩ := whenNotPolling_next.1 h
  refine ⟨h0, ?_⟩
  split at h
  · exact .inl ⟨‹_›, by simpa [eq_comm] using h⟩
  · rcases hw : takeByte s with f | ⟨b, u⟩
    · simp [hw] at h
    · obtain ⟨h1, rfl, rfl⟩ := takeByte_ok.1 hw
      exact .inr ⟨‹_›, h1, by simpa [hw, eq_comm] using h⟩

theorem execLen_next {s t : State} (h : execLen s = .next t) :
    s.pollRem = 0 ∧ t = respond .C .ok (BitVec.ofNat 16 s.visible) s := by
  obtain ⟨h0, h⟩ := whenNotPolling_next.1 h
  exact ⟨h0, by simpa [eq_comm] using h⟩

theorem execPoll_next {s t : State} (h : execPoll s = .next t) :
    s.pollRem = 0 ∧ ((s.visible = 0 ∧ t = respond .C .none 0 (startPoll s.visible s)) ∨
      (s.visible ≠ 0 ∧ t = noResponse (startPoll s.visible s))) := by
  obtain ⟨h0, h⟩ := whenNotPolling_next.1 h
  refine ⟨h0, ?_⟩
  split at h
  · exact .inl ⟨‹_›, by simpa [eq_comm] using h⟩
  · exact .inr ⟨‹_›, by simpa [eq_comm] using h⟩

/-- DECODE answers with a value or a fault and writes nothing but that and the fault record. -/
theorem execDecode_next {ch : Nat} {s t : State} (h : execDecode ch s = .next t) :
    s.pollRem = 0 ∧ ((∃ c, t = raiseFault .C (encode (.decode ch)) c s) ∨
      (ch ≤ 15 ∧ s.vvalid = true ∧ ∃ v, extract ch s = .ok v ∧ t = respond .C .ok v s)) := by
  obtain ⟨h0, h⟩ := whenNotPolling_next.1 h
  refine ⟨h0, ?_⟩
  split at h
  · exact .inl ⟨_, by simpa [eq_comm] using h⟩
  · split at h
    · exact .inl ⟨_, by simpa [eq_comm] using h⟩
    · rcases hx : extract ch s with f | v
      · simp [hx] at h
      · exact .inr ⟨by omega, by simpa using ‹¬ s.vvalid = false›, v, rfl, by simpa [hx, eq_comm] using h⟩

/-- RDSTAT answers with a word or a fault and writes nothing but that and the fault record. -/
theorem execRdstat_next {sel : Nat} {s t : State} (h : execRdstat sel s = .next t) :
    s.pollRem = 0 ∧ ((∃ w, statWord sel s = some w ∧ t = respond .C .ok w s) ∨
      (statWord sel s = none ∧ t = raiseFault .C (encode (.rdstat sel)) .illegal s)) := by
  obtain ⟨h0, h⟩ := whenNotPolling_next.1 h
  refine ⟨h0, ?_⟩
  split at h
  · rename_i w hw
    exact .inl ⟨w, hw, by simpa [eq_comm] using h⟩
  · exact .inr ⟨‹_›, by simpa [eq_comm] using h⟩

theorem microStep_next {s t : State} (h : microStep s = .next t) :
    s.tail < s.cfg.n ∧ ∃ ev u, asmStep (s.cell .rb s.tail) (advanceTail s) = .ok (ev, u) ∧ t = pollCount ev u := by
  unfold microStep at h
  rcases hw : takeByte s with f | ⟨b, u⟩
  · simp [hw] at h
  · obtain ⟨h1, rfl, rfl⟩ := takeByte_ok.1 hw
    rcases ha : asmStep (s.cell .rb s.tail) (advanceTail s) with f | ⟨ev, u⟩
    · simp [hw, ha] at h
    · exact ⟨h1, ev, u, rfl, by simpa [hw, ha, eq_comm] using h⟩

/-- A word issued either is refused by the decode and recorded, or runs its command. -/
theorem issue_cases (p : Port) (w : Word) (s : State) :
    (∃ c, decodeAt p w = .error c ∧ issue p w s = .next (raiseFault p w c s)) ∨
    (∃ i, decodeAt p w = .ok i ∧ issue p w s = exec i s) := by
  unfold issue
  rcases decodeAt p w with c | i
  · exact .inl ⟨c, rfl, rfl⟩
  · exact .inr ⟨i, rfl, rfl⟩

/-- A turn of the block's own is one of its enabled steps. -/
theorem mem_ownTurns {s : State} {t : Turn} (h : t ∈ s.ownTurns) :
    (t = .microStep ∧ s.polling = true) ∨ (t = .syncH ∧ s.syncHEnabled = true) ∨ (t = .syncT ∧ s.syncTEnabled = true) := by
  obtain ⟨ho, he⟩ := List.mem_filter.1 h
  simp only [ownSteps, List.mem_cons, List.not_mem_nil, or_false] at ho
  rcases ho with rfl | rfl | rfl
  · exact .inl ⟨rfl, he⟩
  · exact .inr (.inl ⟨rfl, he⟩)
  · exact .inr (.inr ⟨rfl, he⟩)

/-- Quiescent (R194) says that no step of the block's own is enabled. -/
theorem quiescent_iff {s : State} : s.quiescent ↔ s.ownTurns = [] := by
  have hp : s.pollRem = 0 ↔ s.polling = false := by simp [State.polling]
  have hh : s.syncHEnabled = false ↔ (s.cfg.syncMode = .deferred → s.headC = s.head) := by simp [State.syncHEnabled]
  have ht : s.syncTEnabled = false ↔ (s.cfg.syncMode = .deferred → s.tailP = s.tail) := by simp [State.syncTEnabled]
  simp only [State.quiescent, State.ownTurns, ownSteps, List.filter_eq_nil_iff, List.forall_mem_cons, List.not_mem_nil,
    false_implies, implies_true, and_true, Turn.enabled, Bool.not_eq_true, hp, hh, ht, ← forall_and]

/-- With no turn left: either nothing of the block's own is enabled and the step passes, or it takes one of its own turns. -/
theorem runOwn_cases (s : State) :
    (s.ownTurns = [] ∧ runOwn s = .next (noResponse s)) ∨ (∃ t ∈ s.ownTurns, runOwn s = runTurn t (drawChoice s)) := by
  unfold runOwn
  rcases h : s.ownTurns[Config.freeChoice s.freeCount % s.ownTurns.length]? with _ | t
  · refine .inl ⟨?_, rfl⟩
    rcases ho : s.ownTurns with _ | ⟨t, ts⟩
    · rfl
    · rw [List.getElem?_eq_none_iff] at h
      have hpos : 0 < s.ownTurns.length := by rw [ho]; exact Nat.succ_pos _
      exact absurd (Nat.mod_lt (Config.freeChoice s.freeCount) hpos) (by omega)
  · exact .inr ⟨t, List.mem_of_getElem? h, rfl⟩

/-- All a step can do: the next turn's step, or one of the block's own, or nothing. -/
theorem step_cases (s : State) :
    (∃ t ts, s.turns = t :: ts ∧ step s = runTurn t { s with turns := ts }) ∨
    (s.turns = [] ∧ s.ownTurns = [] ∧ step s = .next (noResponse s)) ∨
    (s.turns = [] ∧ ∃ t ∈ s.ownTurns, step s = runTurn t (drawChoice s)) := by
  unfold step nextTurn
  rcases h : s.turns with _ | ⟨t, ts⟩
  · rcases runOwn_cases s with ⟨h1, h2⟩ | ⟨t, h1, h2⟩
    · exact .inr (.inl ⟨rfl, h1, h2⟩)
    · exact .inr (.inr ⟨rfl, t, h1, h2⟩)
  · exact .inl ⟨t, ts, rfl, rfl⟩

/-- All a turn can do. -/
theorem runTurn_cases (t : Turn) (s : State) :
    (∃ p w, t = .command p w ∧ (p = .P ∨ s.pollRem = 0) ∧ runTurn t s = issue p w s) ∨
    (∃ w, t = .command .C w ∧ s.pollRem ≠ 0 ∧ runTurn t s = microStep (putBack t s)) ∨
    (t = .microStep ∧ s.pollRem ≠ 0 ∧ runTurn t s = microStep s) ∨
    (t = .syncH ∧ s.cfg.syncMode = .deferred ∧ s.headC ≠ s.head ∧ runTurn t s = .next (syncH s)) ∨
    (t = .syncT ∧ s.cfg.syncMode = .deferred ∧ s.tailP ≠ s.tail ∧ runTurn t s = .next (syncT s)) ∨
    (t = .reset ∧ runTurn t s = .next (resetStep s)) ∨
    runTurn t s = .next (noResponse s) := by
  rcases t with ⟨p, w⟩ | _ | _ | _ | _
  · rcases p with _ | _
    · exact .inl ⟨.P, w, rfl, .inl rfl, rfl⟩
    · by_cases h : s.pollRem = 0
      · exact .inl ⟨.C, w, rfl, .inr h, by simp [runTurn, polling_eq_false h]⟩
      · exact .inr (.inl ⟨w, rfl, h, by simp [runTurn, polling_eq_true h]⟩)
  · by_cases h : s.pollRem = 0
    · simp [runTurn, polling_eq_false h]
    · exact .inr (.inr (.inl ⟨rfl, h, by simp [runTurn, polling_eq_true h]⟩))
  · by_cases h : s.syncHEnabled = true
    · have h' : s.cfg.syncMode = .deferred ∧ s.headC ≠ s.head := by simpa [State.syncHEnabled] using h
      exact .inr (.inr (.inr (.inl ⟨rfl, h'.1, h'.2, by simp [runTurn, h]⟩)))
    · simp [runTurn, h]
  · by_cases h : s.syncTEnabled = true
    · have h' : s.cfg.syncMode = .deferred ∧ s.tailP ≠ s.tail := by simpa [State.syncTEnabled] using h
      exact .inr (.inr (.inr (.inr (.inl ⟨rfl, h'.1, h'.2, by simp [runTurn, h]⟩))))
    · simp [runTurn, h]
  · exact .inr (.inr (.inr (.inr (.inr (.inl ⟨rfl, rfl⟩)))))

end Sys2Proof.Machine
end

