-- ==== Sys2Proof/Laws/Invariant.lean ====
section
/-! SUPPORT. What each update does to the parts of the invariant and to the bytes held: the pieces a proof over a step is made of. -/

namespace Sys2Proof.Machine

/-! The distances between the indices, as linear arithmetic takes them. -/

theorem visible_spec {s : State} (h : s.indexForm) :
    (s.tail ≤ s.headC ∧ s.visible + s.tail = s.headC) ∨ (s.headC < s.tail ∧ s.visible + s.tail = s.headC + s.cfg.n) :=
  indexSub_spec h.2.2.1 h.2.1

theorem lagH_spec {s : State} (h : s.indexForm) :
    (s.headC ≤ s.head ∧ s.lagH + s.headC = s.head) ∨ (s.head < s.headC ∧ s.lagH + s.headC = s.head + s.cfg.n) :=
  indexSub_spec h.1 h.2.2.1

theorem lagT_spec {s : State} (h : s.indexForm) :
    (s.tailP ≤ s.tail ∧ s.lagT + s.tailP = s.tail) ∨ (s.tail < s.tailP ∧ s.lagT + s.tailP = s.tail + s.cfg.n) :=
  indexSub_spec h.2.1 h.2.2.2

theorem occupancy_spec {s : State} (h : s.indexForm) :
    (s.tail ≤ s.head ∧ s.occupancy + s.tail = s.head) ∨ (s.head < s.tail ∧ s.occupancy + s.tail = s.head + s.cfg.n) :=
  indexSub_spec h.1 h.2.1

theorem producerView_spec {s : State} (h : s.indexForm) :
    (s.tailP ≤ s.head ∧ s.producerView + s.tailP = s.head) ∨
      (s.head < s.tailP ∧ s.producerView + s.tailP = s.head + s.cfg.n) := indexSub_spec h.1 h.2.2.2

theorem visible_lt (s : State) : s.visible < s.cfg.n := indexSub_lt _ _ _
theorem lagH_lt (s : State) : s.lagH < s.cfg.n := indexSub_lt _ _ _
theorem lagT_lt (s : State) : s.lagT < s.cfg.n := indexSub_lt _ _ _
theorem occupancy_lt (s : State) : s.occupancy < s.cfg.n := indexSub_lt _ _ _
theorem producerView_lt (s : State) : s.producerView < s.cfg.n := indexSub_lt _ _ _

/-- R106: the occupancy is what is visible and what lags. -/
theorem occupancy_eq {s : State} (h : s.indexForm) (hb : s.ringBound) : s.occupancy = s.lagH + s.visible := by
  have := visible_spec h; have := lagH_spec h; have := occupancy_spec h
  have := occupancy_lt s; have := n_pos s.cfg
  simp only [State.ringBound] at hb
  omega

/-- R106: the producer's view of the occupancy is the occupancy and what lags of `tail`. -/
theorem producerView_eq {s : State} (h : s.indexForm) (hb : s.ringBound) : s.producerView = s.occupancy + s.lagT := by
  have := occupancy_eq h hb
  have := lagT_spec h; have := producerView_spec h; have := occupancy_spec h
  have := producerView_lt s; have := n_pos s.cfg
  simp only [State.ringBound] at hb
  omega

theorem visible_eq_zero {s : State} (h : s.indexForm) : s.visible = 0 ↔ s.headC = s.tail :=
  indexSub_eq_zero h.2.2.1 h.2.1

theorem lagH_eq_zero {s : State} (h : s.indexForm) : s.lagH = 0 ↔ s.head = s.headC := indexSub_eq_zero h.1 h.2.2.1

theorem lagT_eq_zero {s : State} (h : s.indexForm) : s.lagT = 0 ↔ s.tail = s.tailP := indexSub_eq_zero h.2.1 h.2.2.2

/-- The FULL test of R100 says that the producer sees N - 1 bytes held. -/
theorem full_iff {s : State} (h : s.indexForm) (hn : 2 ≤ s.cfg.n) :
    nextIndex s.cfg s.head = s.tailP ↔ s.producerView = s.cfg.n - 1 := by
  have := producerView_spec h; have := nextIndex_spec h.1; have := producerView_lt s
  obtain ⟨h1, h2, h3, h4⟩ := h
  omega

/-! An accepted PUSH. -/

theorem push_indexForm {s : State} (h : s.indexForm) : (advanceHead s).indexForm := by
  refine ⟨nextIndex_lt _ _, h.2.1, ?_, h.2.2.2⟩
  simp only [advanceHead_headC, advanceHead_cfg]
  split
  · exact nextIndex_lt _ _
  · exact h.2.2.1

theorem push_viewForm {s : State} (h : s.viewForm) : (advanceHead s).viewForm := by
  intro hi
  have hi' : s.cfg.syncMode = .immediate := hi
  simp [hi', (h hi').2]

/-- An accepted PUSH adds one byte to what is held, which in IMMEDIATE mode is visible at once (R106). -/
theorem push_distances {s : State} (h : s.indexForm) (hb : s.ringBound) (hv : s.viewForm)
    (hr : nextIndex s.cfg s.head ≠ s.tailP) (hn : 2 ≤ s.cfg.n) :
    (advanceHead s).occupancy = s.occupancy + 1 ∧ (advanceHead s).lagT = s.lagT ∧
    (advanceHead s).lagH = (if s.cfg.syncMode = .immediate then s.lagH else s.lagH + 1) ∧
    (advanceHead s).visible = (if s.cfg.syncMode = .immediate then s.visible + 1 else s.visible) := by
  have h' := push_indexForm h
  have hroom : s.occupancy + s.lagT < s.cfg.n - 1 := by
    have hf : s.producerView ≠ s.cfg.n - 1 := fun hp => hr ((full_iff h hn).2 hp)
    have := producerView_lt s
    rw [producerView_eq h hb] at *
    omega
  have ho := occupancy_eq h hb
  have ho1 := occupancy_spec h; have ho2 := occupancy_spec h'
  have hl1 := lagH_spec h; have hl2 := lagH_spec h'
  have hv1 := visible_spec h; have hv2 := visible_spec h'
  have hx := nextIndex_spec h.1
  obtain ⟨h1, h2, h3, h4⟩ := h
  simp only [advanceHead_head, advanceHead_headC, advanceHead_tail, advanceHead_cfg] at *
  refine ⟨by omega, rfl, ?_, ?_⟩ <;>
  · by_cases hi : s.cfg.syncMode = .immediate
    · obtain ⟨e1, e2⟩ := hv hi
      simp only [hi, if_true] at *
      omega
    · simp only [hi, if_false] at *
      omega

/-- The slots after an accepted PUSH: the bytes held before, and the new byte behind them (R107). -/
theorem held_push {s : State} {b : Byte} (h : s.indexForm) (hb : s.ringBound) (hv : s.viewForm)
    (hr : nextIndex s.cfg s.head ≠ s.tailP) (hn : 2 ≤ s.cfg.n) :
    (advanceHead (s.setSpace .rb (Memory.write s.slot s.head b))).held = s.held ++ [some b] := by
  have hocc : (advanceHead (s.setSpace .rb (Memory.write s.slot s.head b))).occupancy = s.occupancy + 1 :=
    (push_distances h hb hv hr hn).1
  have hlt : s.occupancy < s.cfg.n := indexSub_lt _ _ _
  unfold State.held
  rw [hocc, List.range_succ, List.map_append]
  congr 1
  · refine List.map_congr_left fun j hj => ?_
    have hj' := List.mem_range.1 hj
    simp only [State.byteAt, space_rb, advanceHead_slot, setSpace_rb_slot, advanceHead_tail, setSpace_tail,
      advanceHead_cfg, setSpace_cfg]
    refine read_write_other _ b ?_
    rw [slotAfter_of_lt h.2.1 (by omega)]
    have := occupancy_spec h
    obtain ⟨h1, h2, h3, h4⟩ := h
    split <;> omega
  · simp only [List.map_cons, List.map_nil, State.byteAt, space_rb, advanceHead_slot, setSpace_rb_slot,
      advanceHead_tail, setSpace_tail, advanceHead_cfg, setSpace_cfg]
    have : (s.tail + s.occupancy) % s.cfg.n = s.head := by
      rw [slotAfter_of_lt h.2.1 hlt]
      have := occupancy_spec h
      obtain ⟨h1, h2, h3, h4⟩ := h
      split <;> omega
    rw [this, read_write_same]

/-! A byte taken by POP or a poll micro-step. -/

theorem take_indexForm {s : State} (h : s.indexForm) : (advanceTail s).indexForm := by
  refine ⟨h.1, nextIndex_lt _ _, h.2.2.1, ?_⟩
  simp only [advanceTail_tailP, advanceTail_cfg]
  split
  · exact nextIndex_lt _ _
  · exact h.2.2.2

theorem take_viewForm {s : State} (h : s.viewForm) : (advanceTail s).viewForm := by
  intro hi
  have hi' : s.cfg.syncMode = .immediate := hi
  simp [hi', (h hi').1]

/-- A byte taken leaves what is visible, and in DEFERRED mode is one position more for the producer to learn (R106). -/
theorem take_distances {s : State} (h : s.indexForm) (hb : s.ringBound) (hv : s.viewForm) (hr : s.headC ≠ s.tail) :
    (advanceTail s).visible + 1 = s.visible ∧ (advanceTail s).occupancy + 1 = s.occupancy ∧
    (advanceTail s).lagH = s.lagH ∧
    (advanceTail s).lagT = (if s.cfg.syncMode = .immediate then s.lagT else s.lagT + 1) := by
  have h' := take_indexForm h
  have ho := occupancy_eq h hb
  have ho1 := occupancy_spec h; have ho2 := occupancy_spec h'
  have hl1 := lagT_spec h; have hl2 := lagT_spec h'
  have hv1 := visible_spec h; have hv2 := visible_spec h'
  have hx := nextIndex_spec h.2.1
  obtain ⟨h1, h2, h3, h4⟩ := h
  simp only [State.ringBound] at hb
  simp only [advanceTail_head, advanceTail_headC, advanceTail_tail, advanceTail_tailP, advanceTail_cfg] at *
  refine ⟨by omega, by omega, rfl, ?_⟩
  by_cases hi : s.cfg.syncMode = .immediate
  · obtain ⟨e1, e2⟩ := hv hi
    simp only [hi, if_true] at *
    omega
  · simp only [hi, if_false] at *
    omega

/-- The byte taken is the oldest one held, and the others stay (R107). -/
theorem held_take {s : State} (h : s.indexForm) (hb : s.ringBound) (hv : s.viewForm) (hr : s.headC ≠ s.tail) :
    s.held = s.byteAt .rb s.tail :: (advanceTail s).held := by
  have ho := (take_distances h hb hv hr).2.1
  unfold State.held
  rw [← ho, List.range_succ_eq_map, List.map_cons, List.map_map]
  congr 1
  · rw [Nat.add_zero, Nat.mod_eq_of_lt h.2.1]
  · refine List.map_congr_left fun j _ => ?_
    simp only [Function.comp, Nat.succ_eq_add_one, advanceTail_tail, advanceTail_cfg, slotAfter_next]
    rfl

/-- A byte the consumer can see was written since reset (R25). -/
theorem taken_written {s : State} (h : s.indexForm) (hb : s.ringBound) (hv : s.viewForm) (hw : s.slotsWritten)
    (hr : s.headC ≠ s.tail) : ∃ b, s.byteAt .rb s.tail = some b := by
  have := hw (s.byteAt .rb s.tail) (by rw [held_take h hb hv hr]; exact List.mem_cons_self)
  exact Option.isSome_iff_exists.1 this

/-! The synchronizer. -/

theorem syncH_indexForm {s : State} (h : s.indexForm) : (syncH s).indexForm :=
  ⟨h.1, h.2.1, nextIndex_lt _ _, h.2.2.2⟩

/-- SYNC_H moves one position from what lags to what is visible (R103, R106). -/
theorem syncH_distances {s : State} (h : s.indexForm) (hb : s.ringBound) (hr : s.headC ≠ s.head) :
    (syncH s).lagH + 1 = s.lagH ∧ (syncH s).visible = s.visible + 1 ∧ (syncH s).lagT = s.lagT ∧
    (syncH s).occupancy = s.occupancy := by
  have h' := syncH_indexForm h
  have hl1 := lagH_spec h; have hl2 := lagH_spec h'
  have hv1 := visible_spec h; have hv2 := visible_spec h'
  have hx := nextIndex_spec h.2.2.1
  obtain ⟨h1, h2, h3, h4⟩ := h
  simp only [State.ringBound] at hb
  simp only [syncH_head, syncH_headC, syncH_tail, syncH_cfg] at *
  exact ⟨by omega, by omega, rfl, rfl⟩

theorem syncT_indexForm {s : State} (h : s.indexForm) : (syncT s).indexForm :=
  ⟨h.1, h.2.1, h.2.2.1, nextIndex_lt _ _⟩

/-- SYNC_T takes one position from what lags (R104, R106). -/
theorem syncT_distances {s : State} (h : s.indexForm) (hr : s.tailP ≠ s.tail) :
    (syncT s).lagT + 1 = s.lagT ∧ (syncT s).visible = s.visible ∧ (syncT s).lagH = s.lagH ∧
    (syncT s).occupancy = s.occupancy := by
  have h' := syncT_indexForm h
  have hl1 := lagT_spec h; have hl2 := lagT_spec h'
  have hx := nextIndex_spec h.2.2.2
  obtain ⟨h1, h2, h3, h4⟩ := h
  simp only [syncT_tail, syncT_tailP, syncT_cfg] at *
  exact ⟨by omega, rfl, rfl, rfl⟩

/-! The assembler. -/

theorem keepByte_fbuf (a : Nat) (b : Byte) (s : State) (j : Nat) :
    (keepByte a b s).byteAt .fb j = if j = a then some b else s.byteAt .fb j := by
  unfold keepByte
  rw [byteAt_setSpace, read_write]
  rfl

theorem keepByte_storageForm {a : Nat} (b : Byte) {s : State} (ha : a < 25) (h : s.storageForm) :
    (keepByte a b s).storageForm :=
  ⟨⟨h.1.1, write_wf a b h.1.2.1, h.1.2.2⟩, h.2.1, write_below ha h.2.2.1, h.2.2.2⟩

theorem loadFrame_storageForm {f : List Byte} {s : State} (hl : f.length = 25) (h : s.storageForm) :
    (loadFrame f s).storageForm :=
  ⟨⟨h.1.1, h.1.2.1, writeCells_wf h.1.2.2⟩, h.2.1, h.2.2.1,
    writeCells_below h.2.2.2 (by simp only [hl, frameLen]; omega)⟩

theorem frameBytes_of {s : State} {f : List Byte} (hl : f.length = 25) (h : ∀ j < 25, s.byteAt .vf j = f[j]?) :
    s.frameBytes = f := by
  unfold State.frameBytes
  have hm : (List.range frameLen).filterMap (s.byteAt .vf) = (List.range frameLen).filterMap fun j => f[j]? := by
    refine List.filterMap_congr fun j hj => h j (by simpa [frameLen] using hj)
  rw [hm]
  have hr : ∀ n (f : List Byte), f.length = n → ((List.range n).filterMap fun j => f[j]?) = f := by
    intro n
    induction n with
    | zero => intro f hf; simp [List.length_eq_zero_iff.1 hf]
    | succ n ih =>
      intro f hf
      cases f with
      | nil => simp at hf
      | cons x xs =>
        rw [List.range_succ_eq_map, List.filterMap_cons, List.filterMap_map]
        simpa [Function.comp_def] using ih xs (by simpa using hf)
  exact hr 25 f hl

/-- The valid-frame register holds the window loaded into it (R127). -/
theorem loadFrame_frameBytes {f : List Byte} (s : State) (hl : f.length = 25) : (loadFrame f s).frameBytes = f := by
  refine frameBytes_of hl fun j hj => ?_
  unfold loadFrame
  rw [byteAt_setSpace, read_writeCells, if_pos (by omega), Nat.sub_zero]

/-- A listed valid frame, byte by byte. -/
theorem byteAt_of_frameBytes {s : State} (h : s.frameBytes.length = frameLen) {j : Nat} (hj : j < 25) :
    s.byteAt .vf j = some (windowByte s.frameBytes j) := by
  have hall : ∀ n (g : Nat → Option Byte), ((List.range n).filterMap g).length = n →
      ∀ i < n, g i = ((List.range n).filterMap g)[i]? := by
    intro n
    induction n with
    | zero => intro g _ i hi; omega
    | succ n ih =>
      intro g hg i hi
      rw [List.range_succ, List.filterMap_append, List.length_append] at hg
      have hle : ((List.range n).filterMap g).length ≤ n := by
        simpa using List.length_filterMap_le g (List.range n)
      have hn : ((List.range n).filterMap g).length = n ∧ ∃ v, g n = some v := by
        rcases hv : g n with _ | v
        · simp [hv] at hg; omega
        · simp [hv] at hg; exact ⟨hg, v, rfl⟩
      obtain ⟨hn, v, hv⟩ := hn
      rw [List.range_succ, List.filterMap_append]
      by_cases hin : i < n
      · rw [List.getElem?_append_left (by omega)]
        exact ih g hn i hin
      · have : i = n := by omega
        subst i
        rw [List.getElem?_append_right (by omega), hn]
        simp [hv]
  have h25 := hall 25 (s.byteAt .vf) h j hj
  have hlen : s.frameBytes.length = 25 := h
  rw [h25]
  change s.frameBytes[j]? = _
  rw [windowByte, List.getElem?_eq_getElem (by omega), List.getD_eq_getElem?_getD, List.getElem?_eq_getElem (by omega)]
  rfl

end Sys2Proof.Machine
end

