-- ==== Sys2Proof/Laws/Keep.lean ====
section
/-! SUPPORT. Each meaning and each agent's step, from a state that meets the invariant: it answers a next state, and that state
meets the invariant. -/

namespace Sys2Proof.Machine

/-! Updates the invariant does not see. -/

theorem inv_respond {s : State} (p : Port) (st : Status) (v : Word) (h : s.Inv) : (respond p st v s).Inv := h
theorem inv_noResponse {s : State} (h : s.Inv) : (noResponse s).Inv := h
theorem inv_putBack {s : State} (t : Turn) (h : s.Inv) : (putBack t s).Inv := h
theorem inv_drawChoice {s : State} (h : s.Inv) : (drawChoice s).Inv := h
theorem inv_countOverflow {s : State} (h : s.Inv) : (countOverflow s).Inv := h
theorem inv_turns {s : State} (ts : List Turn) (h : s.Inv) : State.Inv { s with turns := ts } := h

/-! Faults (R161). -/

/-- A recorded cause leaves the record non-zero: the bits are sticky (R161). -/
theorem causeBit_or_ne_zero (x : BitVec 4) (c : Cause) : x ||| Cause.bit c ≠ 0 := by
  cases c <;> revert x <;> decide

theorem inv_raiseFault {s : State} (p : Port) (w : Word) (c : Cause) (h : s.Inv) : (raiseFault p w c s).Inv := by
  obtain ⟨h1, h2, h3, h4, h5, h6, h7, h8, h9, h10, -⟩ := h
  exact ⟨h1, h2, h3, h4, h5, h6, h7, h8, h9, h10, fun h0 => absurd h0 (causeBit_or_ne_zero _ c)⟩

/-! The ring buffer. -/

theorem execPush_inv {s : State} (b : Byte) (h : s.Inv) : ∃ t, execPush b s = .next t ∧ t.Inv := by
  unfold execPush
  by_cases hr : nextIndex s.cfg s.head = s.tailP
  · rw [if_pos hr]
    exact ⟨_, rfl, h⟩
  · rw [if_neg hr, memWrite_eq (sp := .rb) b h.2.1.1]
    refine ⟨_, rfl, inv_respond _ _ _ ?_⟩
    obtain ⟨h1, h2, h3, h4, h5, h6, h7, h8, h9, h10, h11⟩ := h
    have hn := two_le_n h1
    have hd := push_distances h2 h3 h4 hr hn
    have hroom : s.occupancy + 1 < s.cfg.n := by rw [← hd.1]; exact occupancy_lt _
    have ho := occupancy_eq h2 h3
    have hp : s.producerView ≠ s.cfg.n - 1 := fun hp => hr ((full_iff h2 hn).2 hp)
    rw [producerView_eq h2 h3] at hp
    simp only [State.ringBound] at h3
    refine ⟨h1, push_indexForm h2, ?_, push_viewForm h4, h5, ?_, ?_, h8, h9, ?_, h11⟩
    · have e1 : (advanceHead (s.setSpace .rb (Memory.write s.slot s.head b))).lagH = (advanceHead s).lagH := rfl
      have e2 : (advanceHead (s.setSpace .rb (Memory.write s.slot s.head b))).visible = (advanceHead s).visible := rfl
      have e3 : (advanceHead (s.setSpace .rb (Memory.write s.slot s.head b))).lagT = (advanceHead s).lagT := rfl
      simp only [State.ringBound, space_rb]
      rw [e1, e2, e3, hd.2.1, hd.2.2.1, hd.2.2.2]
      simp only [advanceHead_cfg, setSpace_cfg]
      split <;> omega
    · exact ⟨⟨write_wf _ _ h6.1.1, h6.1.2⟩, write_below h2.1 h6.2.1, h6.2.2⟩
    · intro x hx
      rw [space_rb, held_push h2 h3 h4 hr hn] at hx
      rcases List.mem_append.1 hx with hx | hx
      · exact h7 x hx
      · rw [List.mem_singleton.1 hx]; rfl
    · have e2 : (advanceHead (s.setSpace .rb (Memory.write s.slot s.head b))).visible = (advanceHead s).visible := rfl
      simp only [State.pollBound, space_rb]
      rw [e2, hd.2.2.2]
      refine ⟨?_, h10.2⟩
      simp only [advanceHead_pollRem, setSpace_pollRem]
      have := h10.1
      split <;> omega

/-- The invariant after a byte is taken, but for the poll, which still counts the byte. -/
theorem take_parts {s : State} (h : s.Inv) (hr : s.headC ≠ s.tail) :
    (advanceTail s).indexForm ∧ (advanceTail s).ringBound ∧ (advanceTail s).viewForm ∧ (advanceTail s).slotsWritten ∧
      (advanceTail s).visible + 1 = s.visible := by
  obtain ⟨-, h2, h3, h4, -, -, h7, -, -, -, -⟩ := h
  have hd := take_distances h2 h3 h4 hr
  refine ⟨take_indexForm h2, ?_, take_viewForm h4, fun x hx => h7 x ?_, hd.1⟩
  · simp only [State.ringBound] at *
    rw [hd.2.2.1, hd.2.2.2]
    simp only [advanceTail_cfg]
    split <;> omega
  · rw [held_take h2 h3 h4 hr]
    exact .tail _ hx

theorem execPop_inv {s : State} (h : s.Inv) (hp : s.pollRem = 0) : ∃ t, execPop s = .next t ∧ t.Inv := by
  unfold execPop
  rw [whenNotPolling_idle _ hp]
  by_cases hr : s.headC = s.tail
  · rw [if_pos hr]
    exact ⟨_, rfl, h⟩
  · rw [if_neg hr]
    rw [takeByte_ok.2 ⟨h.2.1.2.1, rfl, rfl⟩]
    obtain ⟨p1, p2, p3, p4, p5⟩ := take_parts h hr
    obtain ⟨h1, h2, h3, h4, h5, h6, h7, h8, h9, h10, h11⟩ := h
    refine ⟨_, rfl, inv_respond _ _ _ ⟨h1, p1, p2, p3, h5, h6, p4, h8, h9, ⟨?_, h10.2⟩, h11⟩⟩
    simp [hp]

theorem execLen_inv {s : State} (h : s.Inv) (hp : s.pollRem = 0) : ∃ t, execLen s = .next t ∧ t.Inv :=
  ⟨_, whenNotPolling_idle _ hp, h⟩

theorem inv_syncH {s : State} (h : s.Inv) (hm : s.cfg.syncMode = .deferred) (hr : s.headC ≠ s.head) : (syncH s).Inv := by
  obtain ⟨h1, h2, h3, h4, h5, h6, h7, h8, h9, h10, h11⟩ := h
  have hd := syncH_distances h2 h3 hr
  refine ⟨h1, syncH_indexForm h2, ?_, ?_, h5, h6, h7, h8, h9, ?_, h11⟩
  · simp only [State.ringBound] at *
    rw [hd.2.1, hd.2.2.1]
    simp only [syncH_cfg]
    omega
  · intro hi
    simp [hm] at hi
  · refine ⟨?_, h10.2⟩
    rw [hd.2.1]
    exact Nat.le_succ_of_le h10.1

theorem inv_syncT {s : State} (h : s.Inv) (hm : s.cfg.syncMode = .deferred) (hr : s.tailP ≠ s.tail) : (syncT s).Inv := by
  obtain ⟨h1, h2, h3, h4, h5, h6, h7, h8, h9, h10, h11⟩ := h
  have hd := syncT_distances h2 hr
  refine ⟨h1, syncT_indexForm h2, ?_, ?_, h5, h6, h7, h8, h9, h10, h11⟩
  · simp only [State.ringBound] at *
    rw [hd.2.1, hd.2.2.1]
    simp only [syncT_cfg]
    omega
  · intro hi
    simp [hm] at hi

/-! The assembler. -/

/-- The part of the invariant the assembler owns. -/
abbrev State.asmInv (s : State) : Prop := s.asmForm ∧ s.storageForm ∧ s.partialWritten ∧ s.frameKept

theorem validate_inv {f : List Byte} {s : State} (hl : f.length = 25) (h0 : windowByte f 0 = startMarker)
    (hs : s.asmSt = .idle) (h : s.asmInv) : ∃ ev t, validate f s = .ok (ev, t) ∧ t.asmInv := by
  obtain ⟨h1, h2, h3, h4⟩ := h
  rcases validate_cases s hl with ⟨-, he⟩ | ⟨-, -, he⟩ | ⟨e1, e2, he⟩
  · exact ⟨_, _, he, h1, h2, h3, h4⟩
  · exact ⟨_, _, he, h1, h2, h3, h4⟩
  · refine ⟨_, _, he, h1, loadFrame_storageForm hl h2, fun hf => ?_, fun _ => ?_⟩
    · have : s.asmSt = .filling := hf
      rw [hs] at this
      cases this
    · have hb : (acceptFrame (loadFrame f s)).frameBytes = f := loadFrame_frameBytes s hl
      rw [hb]
      exact ⟨hl, h0, e1, e2⟩

theorem keepByte_asm (a : Nat) (b : Byte) (s : State) :
    (keepByte a b s).asmSt = s.asmSt ∧ (keepByte a b s).asmCnt = s.asmCnt ∧ (keepByte a b s).vframe = s.vframe ∧
      (keepByte a b s).vvalid = s.vvalid := ⟨rfl, rfl, rfl, rfl⟩

/-- AsmStep takes any byte, and keeps the part of the invariant it owns (R123 to R127, R130). -/
theorem asmStep_inv {s : State} (b : Byte) (h : s.asmInv) :
    ∃ ev t, asmStep b s = .ok (ev, t) ∧ t.asmInv ∧ sameOutsideAssembler s t := by
  obtain ⟨h1, h2, h3, h4⟩ := h
  rcases asmStep_cases b h1 with ⟨hs, -, he⟩ | ⟨hs, -, he⟩ | ⟨hs, hc, he⟩ | ⟨hs, hc, he⟩
  · have hcnt : (openFrame (keepByte 0 startMarker s)).asmCnt.toNat = 1 := rfl
    have h0 : (openFrame (keepByte 0 startMarker s)).byteAt .fb 0 = some startMarker :=
      (keepByte_fbuf 0 startMarker s 0).trans (if_pos rfl)
    refine ⟨_, _, he, ⟨⟨nofun, fun _ => ?_⟩, keepByte_storageForm _ (by omega) h2, fun _ => ?_, h4⟩,
      rfl, rfl, rfl, rfl, rfl, rfl, rfl, rfl, rfl, rfl, rfl, rfl, rfl, rfl, rfl, rfl, rfl, rfl⟩
    · rw [hcnt]; omega
    · rw [hcnt]
      refine ⟨fun j hj => ?_, h0⟩
      have : j = 0 := by omega
      subst j
      rw [h0]; rfl
  · exact ⟨_, _, he, ⟨h1, h2, h3, h4⟩,
      rfl, rfl, rfl, rfl, rfl, rfl, rfl, rfl, rfl, rfl, rfl, rfl, rfl, rfl, rfl, rfl, rfl, rfl⟩
  · have hc1 := (h1.2 hs).1
    have hcnt : (growFrame (keepByte s.asmCnt.toNat b s)).asmCnt.toNat = s.asmCnt.toNat + 1 := by
      show (s.asmCnt + 1).toNat = _
      simp only [BitVec.toNat_add]
      show (s.asmCnt.toNat + 1) % 32 = _
      omega
    have hst : (growFrame (keepByte s.asmCnt.toNat b s)).asmSt = .filling := hs
    refine ⟨_, _, he, ⟨⟨fun hi => ?_, fun _ => ?_⟩, keepByte_storageForm _ (by omega) h2, fun _ => ?_, h4⟩,
      rfl, rfl, rfl, rfl, rfl, rfl, rfl, rfl, rfl, rfl, rfl, rfl, rfl, rfl, rfl, rfl, rfl, rfl⟩
    · rw [hst] at hi
      cases hi
    · rw [hcnt]; omega
    · rw [hcnt]
      have hb := keepByte_fbuf s.asmCnt.toNat b s
      refine ⟨fun j hj => ?_, ?_⟩
      · refine Eq.trans (congrArg Option.isSome (hb j)) ?_
        by_cases hj' : j = s.asmCnt.toNat
        · rw [if_pos hj']; rfl
        · rw [if_neg hj']; exact (h3 hs).1 j (by omega)
      · refine Eq.trans (hb 0) ?_
        rw [if_neg (by omega)]
        exact (h3 hs).2
  · have hw : ((List.range 24).map (s.cell .fb) ++ [b]).length = 25 := rfl
    have h0 : windowByte ((List.range 24).map (s.cell .fb) ++ [b]) 0 = startMarker := cell_of_byteAt (h3 hs).2
    have hk : (closeFrame (keepByte 24 b s)).asmInv :=
      ⟨⟨fun _ => rfl, nofun⟩, keepByte_storageForm _ (by omega) h2, nofun, h4⟩
    obtain ⟨ev, t, hv, ht⟩ := validate_inv hw h0 rfl hk
    have hsame : sameOutsideAssembler (closeFrame (keepByte 24 b s)) t := validate_same hv
    exact ⟨ev, t, he.trans hv, ht, hsame⟩

theorem microStep_inv {s : State} (h : s.Inv) (hp : s.pollRem ≠ 0) : ∃ t, microStep s = .next t ∧ t.Inv := by
  have hpos : 0 < s.pollRem.toNat := by
    rcases Nat.eq_zero_or_pos s.pollRem.toNat with h0 | h0
    · exact absurd (BitVec.eq_of_toNat_eq h0) hp
    · exact h0
  have hb10 := h.2.2.2.2.2.2.2.2.2.1
  have hr : s.headC ≠ s.tail := fun he => by
    have := (visible_eq_zero h.2.1).2 he
    have := hb10.1
    omega
  obtain ⟨p1, p2, p3, p4, p5⟩ := take_parts h hr
  obtain ⟨h1, h2, h3, h4, h5, h6, h7, h8, h9, h10, h11⟩ := h
  obtain ⟨ev, u, hu, ⟨q1, q2, q3, q4⟩, hsame⟩ := asmStep_inv (s := advanceTail s) (s.cell .rb s.tail) ⟨h5, h6, h8, h9⟩
  refine ⟨pollCount ev u, ?_, ?_⟩
  · unfold microStep
    rw [takeByte_ok.2 ⟨h2.2.1, rfl, rfl⟩]
    simp only [hu]
  · have hrem : u.pollRem = s.pollRem := hsame.2.2.2.2.2.2.1
    have hlen : u.pollLen = s.pollLen := hsame.2.2.2.2.2.2.2.1
    have hfc : u.faultCause = s.faultCause := hsame.2.2.2.2.2.2.2.2.2.2.2.1
    have hfw : u.faultWord = s.faultWord := hsame.2.2.2.2.2.2.2.2.2.2.2.2.1
    have hfp : u.faultPort = s.faultPort := hsame.2.2.2.2.2.2.2.2.2.2.2.2.2.1
    obtain ⟨e1, e2, e3, e4, e5, e6, -⟩ := hsame
    have hvis : u.visible = (advanceTail s).visible := by simp only [State.visible, e1, e4, e5]
    have hsub : (s.pollRem - 1).toNat = s.pollRem.toNat - 1 := by
      rw [BitVec.toNat_sub_of_le (by rw [BitVec.le_def]; exact hpos)]; rfl
    refine ⟨by rw [show (pollCount ev u).cfg = u.cfg from rfl, e1]; exact h1, ?_, ?_, ?_, q1, q2, ?_, q3, q4, ?_, ?_⟩
    · show State.indexForm u
      simp only [State.indexForm, e1, e3, e4, e5, e6]
      exact p1
    · show State.ringBound u
      simp only [State.ringBound, State.lagH, State.lagT, State.visible, e1, e3, e4, e5, e6]
      exact p2
    · show State.viewForm u
      simp only [State.viewForm, e1, e3, e4, e5, e6]
      exact p3
    · show State.slotsWritten u
      simp only [State.slotsWritten, State.held, State.occupancy, State.byteAt, space_rb, e1, e2, e3, e4]
      exact p4
    · show (u.pollRem - 1).toNat ≤ u.visible ∧ (u.pollRem - 1).toNat ≤ u.pollLen.toNat
      rw [hrem, hsub, hvis, hlen]
      have := h10.1
      have := h10.2
      omega
    · show u.faultCause = 0 → u.faultWord = 0 ∧ u.faultPort = .P
      rw [hfc, hfw, hfp]
      exact h11

theorem execPoll_inv {s : State} (h : s.Inv) (hp : s.pollRem = 0) : ∃ t, execPoll s = .next t ∧ t.Inv := by
  have hst : (startPoll s.visible s).Inv := by
    obtain ⟨h1, h2, h3, h4, h5, h6, h7, h8, h9, h10, h11⟩ := h
    refine ⟨h1, h2, h3, h4, h5, h6, h7, h8, h9, ⟨?_, le_refl _⟩, h11⟩
    show (BitVec.ofNat 16 s.visible).toNat ≤ s.visible
    rw [BitVec.toNat_ofNat]
    exact Nat.mod_le _ _
  unfold execPoll
  rw [whenNotPolling_idle _ hp]
  split
  · exact ⟨_, rfl, hst⟩
  · exact ⟨_, rfl, hst⟩

/-! The decoder and the status read. -/

theorem byteOffset_lt {ch : Nat} (h : ch ≤ 15) : byteOffset ch + 2 < 25 := by
  unfold byteOffset
  omega

/-- The extraction of a channel reads three bytes of the valid-frame register, or two (R141, R142). -/
theorem extract_eq {s : State} {ch : Nat} (hc : ch ≤ 15) :
    extract ch s = .ok (match s.cfg.chWindow with
      | .w24 => field24 ch (s.cell .vf (byteOffset ch)) (s.cell .vf (byteOffset ch + 1)) (s.cell .vf (byteOffset ch + 2))
      | .w16 => field16 ch (s.cell .vf (byteOffset ch)) (s.cell .vf (byteOffset ch + 1))) := by
  have hb := byteOffset_lt hc
  have r0 := memRead_eq (s := s) (sp := .vf) (a := byteOffset ch) (by simp only [size_vf]; omega)
  have r1 := memRead_eq (s := s) (sp := .vf) (a := byteOffset ch + 1) (by simp only [size_vf]; omega)
  have r2 := memRead_eq (s := s) (sp := .vf) (a := byteOffset ch + 2) (by simp only [size_vf]; omega)
  unfold extract
  cases s.cfg.chWindow
  · simp only [extract24, r0, r1, r2]
  · simp only [extract16, r0, r1]

/-- With a frame kept, the extraction reads three bytes of it, or two (R31, R141, R142). -/
theorem extract_of_frame {s : State} {ch : Nat} (hf : validFrame s.frameBytes) (hc : ch ≤ 15) :
    extract ch s = .ok (match s.cfg.chWindow with
      | .w24 => field24 ch (windowByte s.frameBytes (byteOffset ch)) (windowByte s.frameBytes (byteOffset ch + 1))
          (windowByte s.frameBytes (byteOffset ch + 2))
      | .w16 => field16 ch (windowByte s.frameBytes (byteOffset ch)) (windowByte s.frameBytes (byteOffset ch + 1))) := by
  have hb := byteOffset_lt hc
  rw [extract_eq hc, cell_of_byteAt (byteAt_of_frameBytes hf.1 (j := byteOffset ch) (by omega)),
    cell_of_byteAt (byteAt_of_frameBytes hf.1 (j := byteOffset ch + 1) (by omega)),
    cell_of_byteAt (byteAt_of_frameBytes hf.1 (j := byteOffset ch + 2) (by omega))]

theorem execDecode_inv {s : State} (ch : Nat) (h : s.Inv) (hp : s.pollRem = 0) :
    ∃ t, execDecode ch s = .next t ∧ t.Inv := by
  unfold execDecode
  rw [whenNotPolling_idle _ hp]
  by_cases hc : ch > 15
  · rw [if_pos hc]
    exact ⟨_, rfl, inv_raiseFault _ _ _ h⟩
  · rw [if_neg hc]
    by_cases hv : s.vvalid = false
    · rw [if_pos hv]
      exact ⟨_, rfl, inv_raiseFault _ _ _ h⟩
    · rw [if_neg hv, extract_eq (by omega)]
      exact ⟨_, rfl, h⟩

theorem execRdstat_inv {s : State} (sel : Nat) (h : s.Inv) (hp : s.pollRem = 0) :
    ∃ t, execRdstat sel s = .next t ∧ t.Inv := by
  unfold execRdstat
  rw [whenNotPolling_idle _ hp]
  rcases statWord sel s with _ | w
  · exact ⟨_, rfl, inv_raiseFault _ _ _ h⟩
  · exact ⟨_, rfl, h⟩

/-! Reset (R180). -/

theorem inv_resetOf {c : Config} (h : c.wf) : (State.resetOf c).Inv := by
  have h0 : indexSub c 0 0 = 0 := indexSub_self c 0
  refine ⟨h, ⟨n_pos c, n_pos c, n_pos c, n_pos c⟩, ?_, fun _ => ⟨rfl, rfl⟩, ⟨fun _ => rfl, nofun⟩,
    ⟨⟨rfl, rfl, rfl⟩, nofun, nofun, nofun⟩, ?_, nofun, nofun, ⟨Nat.zero_le _, Nat.zero_le _⟩, fun _ => ⟨rfl, rfl⟩⟩
  · show indexSub c 0 0 + indexSub c 0 0 + indexSub c 0 0 ≤ c.n - 1
    rw [h0]
    exact Nat.zero_le _
  · intro b hb
    simp [State.held, show (State.resetOf c).occupancy = 0 from h0] at hb

theorem inv_resetStep {s : State} (h : s.Inv) : (resetStep s).Inv := inv_resetOf h.1

end Sys2Proof.Machine
end

