-- ==== Sys2Proof/Laws/Operands.lean ====
section
/-! SUPPORT. The channel field and the status fields, bit by bit and as numbers: what the proofs cite instead of unfolding them. -/

namespace Sys2Proof.Machine

/-! The windows and the fields of DECODE (R141, R142). -/

theorem window24_bit (b0 b1 b2 : Byte) {j : Nat} (h : j < 24) : (window24 b0 b1 b2).getLsbD j =
    if j < 8 then b0.getLsbD j else if j < 16 then b1.getLsbD (j - 8) else b2.getLsbD (j - 16) := by
  simp only [window24]
  interval_cases j <;> simp

theorem window16_bit (b0 b1 : Byte) {j : Nat} (h : j < 16) : (window16 b0 b1).getLsbD j =
    if j < 8 then b0.getLsbD j else b1.getLsbD (j - 8) := by
  simp only [window16]
  interval_cases j <;> simp

/-- The 11-bit mask, bit by bit. -/
theorem mask11_bit (j : Nat) {w : Nat} (h : 11 ≤ w) : (BitVec.ofNat w 0x7FF).getLsbD j = decide (j < 11) := by
  rw [BitVec.getLsbD_ofNat, show (0x7FF : Nat) = 2 ^ 11 - 1 by rfl, Nat.testBit_two_pow_sub_one]
  by_cases hj : j < 11 <;> simp [hj]
  omega

theorem field24_bit (ch : Nat) (b0 b1 b2 : Byte) (j : Nat) : (field24 ch b0 b1 b2).getLsbD j =
    (decide (j < 11) && (window24 b0 b1 b2).getLsbD (bitOffset ch + j)) := by
  unfold field24
  rw [BitVec.getLsbD_setWidth, BitVec.getLsbD_and, BitVec.getLsbD_ushiftRight, mask11_bit _ (by omega)]
  by_cases h : j < 11
  · simp [h]; intro; omega
  · simp [h]

theorem field16_bit (ch : Nat) (b0 b1 : Byte) (j : Nat) : (field16 ch b0 b1).getLsbD j =
    (decide (j < 11) && (window16 b0 b1).getLsbD (bitOffset ch + j)) := by
  unfold field16
  rw [BitVec.getLsbD_and, BitVec.getLsbD_ushiftRight, mask11_bit _ (by omega), Bool.and_comm]

theorem window16_toNat (b0 b1 : Byte) : (window16 b0 b1).toNat = b0.toNat + 256 * b1.toNat := by
  have h : window16 b0 b1 = b1 ++ b0 := by
    refine BitVec.eq_of_getLsbD_eq fun i hi => ?_
    rw [window16_bit _ _ hi, BitVec.getLsbD_append]
  have h0 := b0.isLt
  rw [h, BitVec.toNat_append, Nat.shiftLeft_eq, Nat.mul_comm, ← Nat.two_pow_add_eq_or_of_lt h0]
  omega

theorem window24_toNat (b0 b1 b2 : Byte) :
    (window24 b0 b1 b2).toNat = b0.toNat + 256 * b1.toNat + 65536 * b2.toNat := by
  have h : window24 b0 b1 b2 = b2 ++ window16 b0 b1 := by
    refine BitVec.eq_of_getLsbD_eq fun i hi => ?_
    rw [window24_bit _ _ _ hi, BitVec.getLsbD_append]
    interval_cases i <;> simp [window16]
  have h0 := (window16 b0 b1).isLt
  rw [h, BitVec.toNat_append, Nat.shiftLeft_eq, Nat.mul_comm, ← Nat.two_pow_add_eq_or_of_lt h0, window16_toNat]
  omega

theorem field24_toNat (ch : Nat) (b0 b1 b2 : Byte) : (field24 ch b0 b1 b2).toNat =
    (b0.toNat + 256 * b1.toNat + 65536 * b2.toNat) / 2 ^ bitOffset ch % 2048 := by
  unfold field24
  rw [BitVec.toNat_setWidth, BitVec.toNat_and, BitVec.toNat_ushiftRight, window24_toNat, Nat.shiftRight_eq_div_pow,
    show (BitVec.toNat 0x7FF#24) = 2 ^ 11 - 1 by rfl, Nat.and_two_pow_sub_one_eq_mod]
  omega

theorem field16_toNat (ch : Nat) (b0 b1 : Byte) : (field16 ch b0 b1).toNat =
    (b0.toNat + 256 * b1.toNat) / 2 ^ bitOffset ch % 2048 := by
  unfold field16
  rw [BitVec.toNat_and, BitVec.toNat_ushiftRight, window16_toNat, Nat.shiftRight_eq_div_pow,
    show (BitVec.toNat 0x7FF#16) = 2 ^ 11 - 1 by rfl, Nat.and_two_pow_sub_one_eq_mod]

/-! The packed status words (R152 to R154). -/

theorem asmWord_toNat (s : State) : (asmWord s).toNat =
    s.asmCnt.toNat + 32 * (if s.asmSt = .filling then 1 else 0) + 64 * (if s.vvalid = true then 1 else 0) := by
  have h : ∀ (c : BitVec 5) (a : AsmSt) (b : Bool),
      (fieldAt 0 c ||| fieldAt 5 (AsmSt.bit a) ||| fieldAt 6 (BitVec.ofBool b)).toNat =
        c.toNat + 32 * (if a = .filling then 1 else 0) + 64 * (if b = true then 1 else 0) := by
    intro c a b
    cases a <;> cases b <;> revert c <;> decide
  exact h _ _ _

theorem faultRecordWord_toNat (s : State) : (faultRecordWord s).toNat =
    s.faultCause.toNat + 256 * (if s.faultPort = .C then 1 else 0) := by
  have h : ∀ (c : BitVec 4) (p : Port), (fieldAt 0 c ||| fieldAt 8 (portBit p)).toNat =
      c.toNat + 256 * (if p = .C then 1 else 0) := by
    intro c p
    cases p <;> revert c <;> decide
  exact h _ _

theorem configWord_toNat {c : Config} (h : c.wf) : (configWord c).toNat =
    c.k + 256 * (if c.syncMode = .immediate then 1 else 0) + 512 * (if c.chWindow = .w16 then 1 else 0) := by
  obtain ⟨k, m, w⟩ := c
  obtain ⟨h1, h2⟩ : 1 ≤ k ∧ k ≤ 16 := h
  cases m <;> cases w <;> interval_cases k <;> decide

/-- Every selector of R151 has a word, and no other has. -/
theorem statWord_isSome (sel : Nat) (s : State) : (statWord sel s).isSome = decide (sel ≤ 8) := by
  by_cases h : sel ≤ 8
  · interval_cases sel <;> rfl
  · rw [decide_eq_false h]
    unfold statWord
    split <;> first | omega | rfl

end Sys2Proof.Machine
end

