-- ==== Sys2Proof/Laws/PerInstr.lean ====
section
/-! SUPPORT. Statements about every command as syntax, one lemma a constructor. -/

namespace Sys2Proof.Laws.WordForm

/-- The word of a well-formed command carries its opcode, the opcode's row admits it on the command's port, and the reserved
bits of the row's format are 0 (R71 to R75, R79). -/
def Statement (i : Instr) : Prop :=
  i.wf = true → opcode (encode i) = i.op ∧ ∃ f, opcodeRow i.op = some (f, i.port) ∧ reservedBits f (encode i) = 0

theorem push (b : Byte) : Statement (.push b) := by
  intro _
  have h : ∀ b : BitVec 8, opcode (encode (.push b)) = 1 ∧ reservedBits .p8 (encode (.push b)) = 0 := by decide
  exact ⟨(h b).1, .p8, rfl, (h b).2⟩

theorem pop : Statement .pop := fun _ => ⟨by decide, .n, rfl, by decide⟩

theorem len : Statement .len := fun _ => ⟨by decide, .n, rfl, by decide⟩

theorem poll : Statement .poll := fun _ => ⟨by decide, .n, rfl, by decide⟩

theorem decode (ch : Nat) : Statement (.decode ch) := by
  intro h
  have h' : ∀ ch < 32, opcode (encode (.decode ch)) = 5 ∧ reservedBits .c5 (encode (.decode ch)) = 0 := by decide
  have := h' ch (by simpa [Instr.wf] using h)
  exact ⟨this.1, .c5, rfl, this.2⟩

theorem rdstat (sel : Nat) : Statement (.rdstat sel) := by
  intro h
  have h' : ∀ sel < 16, opcode (encode (.rdstat sel)) = 6 ∧ reservedBits .s4 (encode (.rdstat sel)) = 0 := by decide
  have := h' sel (by simpa [Instr.wf] using h)
  exact ⟨this.1, .s4, rfl, this.2⟩

end Sys2Proof.Laws.WordForm
end

