-- ==== Sys2Proof/Laws/Runs.lean ====
section
/-! SUPPORT. Runs of several steps, byte sequences through the assembler, and what each meaning leaves: the lemmas for claims
about more than one step. -/

namespace Sys2Proof.Machine

/-! Runs. -/

/-- A step with a turn to come is that turn's. -/
theorem step_turn {s : State} {u : Turn} {ts : List Turn} (h : s.turns = u :: ts) :
    step s = runTurn u { s with turns := ts } := by
  simp only [step, nextTurn, h]

theorem run_succ {k : Nat} {s t : State} (h : step s = .next t) :
    Sys2Proof.core.run (k + 1) s = Sys2Proof.core.run k t := by
  have : Sys2Proof.core.step s = .next t := h
  simp only [Host.Core.run, this]

theorem run_one {s t : State} (h : step s = .next t) : Sys2Proof.core.run 1 s = .next t := by
  rw [run_succ h]
  rfl

/-- A run of `a + b` steps is the run of `b` steps from where the run of `a` steps ends. -/
theorem run_add {a b : Nat} {s t : State} (h : Sys2Proof.core.run a s = .next t) :
    Sys2Proof.core.run (a + b) s = Sys2Proof.core.run b t := by
  induction a generalizing s with
  | zero => cases h; rw [Nat.zero_add]
  | succ a ih =>
    rcases hs : step s with u | f | r
    · rw [run_succ hs] at h
      rw [Nat.add_right_comm, run_succ hs]
      exact ih h
    · have : Sys2Proof.core.step s = .fault f := hs
      simp [Host.Core.run, this] at h
    · have : Sys2Proof.core.step s = .refused r := hs
      simp [Host.Core.run, this] at h

/-! Runs without end (R23). -/

/-- A link that takes a turn is that turn's step, from the state with no turn to come. -/
theorem link_some {s t : State} {v : Turn} :
    s.link (some v) t ↔ Turn.enabled s v = true ∧ runTurn v { s with turns := [] } = .next t := Iff.rfl

/-- A link that takes no turn keeps all but the response. -/
theorem link_none {s t : State} : s.link none t ↔ t = { s with response := none } := Iff.rfl

/-- Which turns are enabled does not depend on the turns to come. -/
theorem enabled_turns (s : State) (ts : List Turn) (v : Turn) : Turn.enabled { s with turns := ts } v = Turn.enabled s v := by
  rcases v with ⟨_ | _, _⟩ | _ | _ | _ | _ <;> rfl

theorem turnCount_zero (turns : Nat → Option Turn) (test : Turn → Bool) (k : Nat) : turnCount turns test k 0 = 0 := rfl

/-- The first link counted, and the others. -/
theorem turnCount_succ (turns : Nat → Option Turn) (test : Turn → Bool) (k d : Nat) :
    turnCount turns test k (d + 1) = (if (turns k).any test then 1 else 0) + turnCount turns test (k + 1) d := by
  unfold turnCount
  rw [List.range_succ_eq_map, List.countP_cons, List.countP_map, Nat.add_comm]
  congr 1
  refine List.countP_congr fun j _ => ?_
  simp [Function.comp, Nat.succ_eq_add_one, Nat.add_assoc, Nat.add_comm 1 j]

/-- The links counted in two stretches. -/
theorem turnCount_add (turns : Nat → Option Turn) (test : Turn → Bool) (k d e : Nat) :
    turnCount turns test k (d + e) = turnCount turns test k d + turnCount turns test (k + d) e := by
  induction d generalizing k with
  | zero => simp [turnCount_zero]
  | succ d ih =>
    rw [Nat.add_right_comm, turnCount_succ, turnCount_succ, ih, show k + (d + 1) = k + 1 + d by omega]
    omega

/-! Byte sequences through the assembler (R131, R133). -/

theorem feed_append {as bs : List Byte} {s t u : State} {es es' : List Event} (h : feed as s = .ok (es, t))
    (h' : feed bs t = .ok (es', u)) : feed (as ++ bs) s = .ok (es ++ es', u) := by
  induction as generalizing s es with
  | nil =>
    obtain ⟨rfl, rfl⟩ : [] = es ∧ s = t := by simpa [feed] using h
    exact h'
  | cons x as ih =>
    simp only [feed, List.cons_append] at h ⊢
    rcases hx : asmStep x s with f | ⟨e, v⟩
    · simp [hx] at h
    · simp only [hx] at h ⊢
      rcases hy : feed as v with f | ⟨es1, w⟩
      · simp [hy] at h
      · simp only [hy, Except.ok.injEq, Prod.mk.injEq] at h
        obtain ⟨rfl, rfl⟩ := h
        simp only [ih hy, List.cons_append]

/-- A judged window gives the same event and the same assembler from two states with the same assembler. -/
theorem validate_sameAssembler {f : List Byte} {s s' t : State} {e : Event} (hl : f.length = 25) (h : sameAssembler s s')
    (ht : validate f s = .ok (e, t)) : ∃ t', validate f s' = .ok (e, t') ∧ sameAssembler t t' := by
  obtain ⟨a1, a2, a3, a4, a5, a6, a7, a8, a9⟩ := h
  rcases validate_cases s hl with ⟨h1, h2⟩ | ⟨h1, h2, h3⟩ | ⟨h1, h2, h3⟩
  · rw [h2] at ht; cases ht
    exact ⟨_, validate_endErr s' h1, a1, a2, a3, a4, a5, a6, congrArg (· + 1) a7, a8, a9⟩
  · rw [h3] at ht; cases ht
    exact ⟨_, validate_sumErr s' h1 h2, a1, a2, a3, a4, a5, a6, a7, congrArg (· + 1) a8, a9⟩
  · rw [h3] at ht; cases ht
    exact ⟨_, validate_frame s' hl h1 h2, a1, a2, a3, congrArg (writeCells 0 f) a4, rfl, a6, a7, a8, congrArg (· + 1) a9⟩

/-- AsmStep reads and writes the assembler alone: from two states with the same assembler it gives the same event and leaves the
same assembler (R133). -/
theorem asmStep_sameAssembler {b : Byte} {s s' t : State} {e : Event} (h : sameAssembler s s') (ha : s.asmForm)
    (hp : s.partialWritten) (ht : asmStep b s = .ok (e, t)) : ∃ t', asmStep b s' = .ok (e, t') ∧ sameAssembler t t' := by
  obtain ⟨a1, a2, a3, a4, a5, a6, a7, a8, a9⟩ := h
  rcases asmStep_cases b ha with ⟨i, rfl, h1⟩ | ⟨i, hn, h1⟩ | ⟨i, hn, h1⟩ | ⟨i, hn, h1⟩
  · rw [h1] at ht; cases ht
    exact ⟨_, asmStep_idle_start (a1.trans i), rfl, rfl, congrArg (Memory.write · 0 startMarker) a3, a4, a5, a6, a7, a8, a9⟩
  · rw [h1] at ht; cases ht
    exact ⟨_, asmStep_idle_discard (a1.trans i) hn, a1, a2, a3, a4, a5, congrArg (· + 1) a6, a7, a8, a9⟩
  · rw [h1] at ht; cases ht
    refine ⟨_, asmStep_filling_kept b (a1.trans i) (by rw [a2]; exact hn), a1, congrArg (· + 1) a2, ?_, a4, a5, a6, a7, a8, a9⟩
    show Memory.write s'.fbuf s'.asmCnt.toNat b = Memory.write s.fbuf s.asmCnt.toNat b
    rw [a3, a2]
  · rw [h1] at ht
    have hf : (List.range 24).map (s'.cell .fb) = (List.range 24).map (s.cell .fb) := by
      refine List.map_congr_left fun j hj => ?_
      obtain ⟨v, hv⟩ := Option.isSome_iff_exists.1 ((hp i).1 j (by have := List.mem_range.1 hj; omega))
      have hv' : s'.byteAt .fb j = some v := (congrArg (Memory.read · j) a3).trans hv
      rw [cell_of_byteAt hv, cell_of_byteAt hv']
    rw [asmStep_filling_last b (a1.trans i) (by rw [a2]; exact hn), hf]
    exact validate_sameAssembler (s := closeFrame (keepByte 24 b s)) rfl
      ⟨rfl, rfl, congrArg (Memory.write · 24 b) a3, a4, a5, a6, a7, a8, a9⟩ ht

/-! What a meaning leaves. -/

/-- All that any command can leave: a response alone, a counted overflow, a stored byte, a taken byte, a snapshot, a fault. -/
theorem exec_cases {i : Instr} {s t : State} (h : exec i s = .next t) :
    (∃ p st v, t = respond p st v s) ∨ t = respond .P .full 0 (countOverflow s) ∨
    (∃ b, i = .push b ∧ s.head < s.cfg.n ∧
      t = respond .P .ok 0 (advanceHead (s.setSpace .rb (Memory.write s.slot s.head b)))) ∨
    (∃ v, i = .pop ∧ t = respond .C .ok v (advanceTail s)) ∨
    (∃ r, i = .poll ∧ t = { startPoll s.visible s with response := r }) ∨
    (∃ c, ((∃ ch, i = .decode ch) ∨ ∃ sel, i = .rdstat sel) ∧ t = raiseFault .C (encode i) c s) := by
  cases i with
  | push b =>
    rcases execPush_next h with ⟨-, rfl⟩ | ⟨-, h1, rfl⟩
    · exact .inr (.inl rfl)
    · exact .inr (.inr (.inl ⟨b, rfl, h1, rfl⟩))
  | pop =>
    rcases execPop_next h with ⟨-, ⟨-, rfl⟩ | ⟨-, -, rfl⟩⟩
    · exact .inl ⟨_, _, _, rfl⟩
    · exact .inr (.inr (.inr (.inl ⟨_, rfl, rfl⟩)))
  | len =>
    obtain ⟨-, rfl⟩ := execLen_next h
    exact .inl ⟨_, _, _, rfl⟩
  | poll =>
    rcases execPoll_next h with ⟨-, ⟨-, rfl⟩ | ⟨-, rfl⟩⟩ <;>
      exact .inr (.inr (.inr (.inr (.inl ⟨_, rfl, rfl⟩))))
  | decode ch =>
    obtain ⟨-, ⟨c, rfl⟩ | ⟨-, -, v, -, rfl⟩⟩ := execDecode_next h
    · exact .inr (.inr (.inr (.inr (.inr ⟨c, .inl ⟨ch, rfl⟩, rfl⟩))))
    · exact .inl ⟨_, _, _, rfl⟩
  | rdstat sel =>
    obtain ⟨-, ⟨v, -, rfl⟩ | ⟨-, rfl⟩⟩ := execRdstat_next h
    · exact .inl ⟨_, _, _, rfl⟩
    · exact .inr (.inr (.inr (.inr (.inr ⟨_, .inr ⟨sel, rfl⟩, rfl⟩))))

/-- What a poll micro-step leaves outside the assembler (R121). -/
theorem microStep_leaves {s t : State} (h : microStep s = .next t) :
    t.cfg = s.cfg ∧ t.slot = s.slot ∧ t.head = s.head ∧ t.headC = s.headC ∧ t.tail = nextIndex s.cfg s.tail ∧
    t.tailP = (if s.cfg.syncMode = .immediate then nextIndex s.cfg s.tail else s.tailP) ∧
    t.pollRem = s.pollRem - 1 ∧ t.pollLen = s.pollLen ∧ t.cntOvf = s.cntOvf ∧ sameFaultRecord s t ∧
    t.turns = s.turns ∧ t.freeCount = s.freeCount ∧ t.storageDraw = s.storageDraw ∧ (s.storageForm → t.storageForm) := by
  obtain ⟨-, ev, u, ha, rfl⟩ := microStep_next h
  obtain ⟨⟨c1, c2, c3, c4, c5, c6, c7, c8, c9, c10, c11, c12, c13, c14, c15, c16, c17, c18⟩, hs⟩ := asmStep_writes ha
  exact ⟨c1, c2, c3, c5, c4, c6, congrArg (· - 1) c7, c8, c11, ⟨c12, c13, c14⟩, c16, c17, c18, hs⟩

/-- With a poll in progress the consumer can see a byte (R138). -/
theorem visible_of_polling {s : State} (hi : s.indexForm) (hb : s.pollBound) (hp : s.pollRem ≠ 0) : s.headC ≠ s.tail := by
  intro he
  have h0 := hb.1
  rw [(visible_eq_zero hi).2 he] at h0
  exact hp (BitVec.eq_of_toNat_eq (Nat.le_zero.1 h0))

/-- A poll micro-step takes the oldest byte held (R107, R121). -/
theorem microStep_held {s t : State} (h : s.Inv) (hp : s.pollRem ≠ 0) (ht : microStep s = .next t) :
    ∃ b, s.byteAt .rb s.tail = some b ∧ s.held = some b :: t.held := by
  obtain ⟨e1, e2, e3, -, e5, -⟩ := microStep_leaves ht
  have hr := visible_of_polling h.2.1 h.2.2.2.2.2.2.2.2.2.1 hp
  obtain ⟨b, hb⟩ := taken_written h.2.1 h.2.2.1 h.2.2.2.1 h.2.2.2.2.2.2.1 hr
  refine ⟨b, hb, ?_⟩
  rw [held_take h.2.1 h.2.2.1 h.2.2.2.1 hr, hb]
  congr 1
  simp only [State.held, State.occupancy, State.byteAt, space_rb, e1, e2, e3, e5]
  rfl

/-- The number of a well-formed command's word (R85). -/
theorem encode_toNat {i : Instr} (h : i.wf = true) : (encode i).toNat = 4096 * i.op + i.operand := by
  cases i with
  | push b =>
    have : ∀ b : BitVec 8, (encode (.push b)).toNat = 4096 * 1 + b.toNat := by decide
    exact this b
  | pop => decide
  | len => decide
  | poll => decide
  | decode ch =>
    have : ∀ ch < 32, (encode (.decode ch)).toNat = 4096 * 5 + ch := by decide
    exact this ch (by simpa [Instr.wf] using h)
  | rdstat sel =>
    have : ∀ sel < 16, (encode (.rdstat sel)).toNat = 4096 * 6 + sel := by decide
    exact this sel (by simpa [Instr.wf] using h)

end Sys2Proof.Machine
end

