-- ==== Sys2Proof/Tests/Slice0.lean ====
section
/-! SUPPORT. The model's own tests: ill-formed terms refused, words written out from the spec's encodings, one small step a test
with the expected result taken from 95_test_vectors.md, and a witness for the hypotheses of every statement that has some. -/

namespace Sys2Proof.Tests

open Sys2Proof Sys2Proof.Machine

/-! ## WellFormed: each check refuses an ill-formed term -/

theorem test_wf_refuses_channel_over_field : Instr.wf (.decode 32) = false := by decide
theorem test_wf_admits_channel_of_field : Instr.wf (.decode 31) = true := by decide
theorem test_wf_refuses_selector_over_field : Instr.wf (.rdstat 16) = false := by decide
theorem test_wf_admits_selector_of_field : Instr.wf (.rdstat 15) = true := by decide
theorem test_wf_refuses_line_with_bad_operand : Line.wf (.command .C (.decode 32)) = false := by decide
theorem test_wf_refuses_line_on_wrong_port :
    Line.wf (.command .C (.push 0x55)) = false ∧ Line.wf (.command .P .pop) = false ∧ Line.wf (.word .C 0x1055) = true := by decide
theorem test_wf_refuses_short_frame_line : Line.wf (.pushFrame (List.replicate 24 0)) = false := by decide
theorem test_wf_refuses_empty_bytes_line : Line.wf (.pushBytes []) = false := by decide
theorem test_wf_refuses_config_of_no_address_bit : ¬ Config.wf { Config.shipped with k := 0 } := by decide
theorem test_wf_refuses_config_of_17_address_bits : ¬ Config.wf { Config.shipped with k := 17 } := by decide
theorem test_wf_refuses_repeated_address : Memory.wf [(3, 1), (3, 2)] = false := by decide

/-! ## Decode: words of R72 to R75 written out, and V-ENC-1 to V-ENC-23 -/

theorem test_decode_push : decodeAt .P 0b0001000001000010#16 = .ok (.push 0x42) := by decide
theorem test_decode_pop : decodeAt .C 0b0010000000000000#16 = .ok .pop := by decide
theorem test_decode_len : decodeAt .C 0b0011000000000000#16 = .ok .len := by decide
theorem test_decode_poll : decodeAt .C 0b0100000000000000#16 = .ok .poll := by decide
theorem test_decode_decode : decodeAt .C 0b0101000000010101#16 = .ok (.decode 21) := by decide
theorem test_decode_rdstat : decodeAt .C 0b0110000000001000#16 = .ok (.rdstat 8) := by decide
theorem test_decode_refuses_unassigned :
    decodeAt .C 0x0000 = .error .illegal ∧ decodeAt .P 0xFFFF = .error .illegal ∧ decodeAt .P 0x7000 = .error .illegal := by
  decide
theorem test_decode_port_before_reserved_bits :
    decodeAt .P 0x1142 = .error .illegal ∧ decodeAt .C 0x1142 = .error .wrongPort ∧ decodeAt .P 0x5010 = .error .wrongPort := by
  decide
theorem test_decode_refuses_reserved_bits :
    decodeAt .C 0x2800 = .error .illegal ∧ decodeAt .C 0x3001 = .error .illegal ∧ decodeAt .C 0x5020 = .error .illegal ∧
      decodeAt .C 0x6010 = .error .illegal := by decide
theorem test_encode_words :
    encode (.push 0x42) = 0x1042 ∧ encode .pop = 0x2000 ∧ encode (.decode 16) = 0x5010 ∧ encode (.rdstat 8) = 0x6008 := by
  decide
theorem test_table_word_of_16_bits : decodeTableWord 16 0x101F = some (.push 0x1F) ∧ decodeTableWord 16 0x5020 = none := by
  decide

/-! ## Small states -/

/-- The reset state with the given turns to come. -/
def ready (ts : List Turn) : State := { State.reset with turns := ts }

/-- A buffer that holds `m` bytes 0x10, 0x11, … from slot 0 on, all visible; `ts` to come. -/
def filled (m : Nat) (ts : List Turn) : State :=
  { State.reset with
    slot := (List.range m).map fun j => (j, BitVec.ofNat 8 (0x10 + j))
    head := m
    headC := m
    turns := ts }

/-- One visible byte `b` and a poll of one byte in progress. -/
def polling (b : Byte) (ts : List Turn) : State :=
  { State.reset with slot := [(0, b)], head := 1, headC := 1, pollRem := 1, pollLen := 1, turns := ts }

/-- Frame A of 95_test_vectors.md: channel 0 = 1000. -/
def frameA : List Byte := [0x0F, 0xE8, 0x03] ++ List.replicate 20 0 ++ [0xFA, 0x00]

/-- Frame C of 95_test_vectors.md: channel i = (137 i + 5) mod 2048. -/
def frameC : List Byte :=
  [0x0F, 0x05, 0x70, 0xC4, 0x45, 0x40, 0x93, 0x22, 0x59, 0xED, 0x8C, 0x78, 0x4D] ++
    [0xB4, 0xE6, 0x57, 0xD1, 0x1B, 0x67, 0x7D, 0x0F, 0x9E, 0x01, 0x88, 0x00]

/-- Frame `f` kept in the valid-frame register. -/
def keeping (f : List Byte) : State := { State.reset with vvalid := true, vframe := (List.range 25).zip f }

/-- The first `c` bytes of frame `f` in the partial frame. -/
def assembling (c : Nat) (f : List Byte) : State :=
  { State.reset with asmSt := .filling, asmCnt := BitVec.ofNat 5 c, fbuf := (List.range c).zip f }

/-- The state in the other synchronizer mode. -/
def immediate (s : State) : State := { s with cfg := { s.cfg with syncMode := .immediate } }

/-- The state with the narrow channel window. -/
def narrow (s : State) : State := { s with cfg := { s.cfg with chWindow := .w16 } }

/-- Whether a step answers a next state that passes a test. -/
def answers (r : Result) (p : State → Bool) : Bool :=
  match r with
  | .next t => p t
  | .fault _ => false
  | .refused _ => false

/-- Whether a step delivers this response. -/
def replies (p : Port) (st : Status) (v : Word) (t : State) : Bool :=
  t.response == some { port := p, status := st, value := v }

/-! ## PUSH, POP, LEN, the synchronizer (B.2) -/

/-- V-RB-11: `head` wraps to 0. -/
theorem test_push_wraps :
    answers (exec (.push 0x99) { State.reset with head := 7, tail := 1, headC := 7, tailP := 1 })
      (fun t => replies .P .ok 0 t && t.head == 0 && t.headC == 7 && t.byteAt .rb 7 == some 0x99) = true := by decide

/-- V-RB-10: a stale view of `tail` refuses a PUSH that would fit. -/
theorem test_push_full_on_stale_view :
    answers (exec (.push 0x99) { State.reset with head := 7, tail := 1, headC := 7, tailP := 0 })
      (fun t => replies .P .full 0 t && t.head == 7 && t.cntOvf == 1 && t.slot == []) = true := by decide

/-- V-RB-8: in IMMEDIATE mode POP writes `tail_p` in its own step; V-RB-21: the byte is zero-extended. -/
theorem test_pop_immediate :
    answers (exec .pop (immediate { State.reset with slot := [(0, 0xFF)], head := 1, headC := 1 }))
      (fun t => replies .C .ok 0x00FF t && t.tail == 1 && t.tailP == 1) = true := by decide

/-- V-RB-2: a byte the synchronizer has not carried is not visible. -/
theorem test_pop_empty_before_sync :
    answers (exec .pop { State.reset with slot := [(0, 0x42)], head := 1 })
      (fun t => replies .C .empty 0 t && t.tail == 0) = true := by decide

/-- V-RB-17: (2 - 6) mod 8. -/
theorem test_len_wraps :
    answers (exec .len { State.reset with head := 2, tail := 6, headC := 2, tailP := 6 }) (replies .C .ok 4) = true := by decide

/-- V-RB-14: LEN counts the view, less than the occupancy. -/
theorem test_len_counts_the_view :
    answers (exec .len { State.reset with head := 4, headC := 2 }) (replies .C .ok 2) = true := by decide

/-- V-RB-12: `head_c` wraps from 7 to 0. -/
theorem test_sync_h_wraps :
    answers (step { State.reset with head := 0, tail := 1, headC := 7, tailP := 1, turns := [.syncH] })
      (fun t => t.headC == 0 && t.response == none) = true := by decide

/-- V-RB-16: `tail_p` moves one position. -/
theorem test_sync_t_moves_one :
    answers (step { State.reset with head := 3, tail := 7, headC := 3, tailP := 6, turns := [.syncT] })
      (fun t => t.tailP == 7 && t.headC == 3) = true := by decide

/-! ## POLL, the micro-step, the assembler (B.3) -/

/-- V-POLL-1: the snapshot, and no response yet. -/
theorem test_poll_snapshot :
    answers (exec .poll { State.reset with head := 2, tail := 6, headC := 2, tailP := 6 })
      (fun t => t.pollRem == 4 && t.pollLen == 4 && t.response == none) = true := by decide

/-- V-ASM-1: an empty poll completes at once. -/
theorem test_poll_empty : answers (exec .poll State.reset) (replies .C .none 0) = true := by decide

/-- V-ASM-2: a byte that is no start marker is discarded, and the poll was BAD. -/
theorem test_micro_step_discards :
    answers (step (polling 0x42 [.microStep]))
      (fun t => replies .C .bad 1 t && t.cntResync == 1 && t.tail == 1 && t.tailP == 0) = true := by decide

/-- V-ASM-14: the 25th byte completes the window and the frame is kept. -/
theorem test_micro_step_completes_frame :
    answers (microStep { assembling 24 frameA with slot := [(0, 0x00)], head := 1, headC := 1, pollRem := 1, pollLen := 1 })
      (fun t => replies .C .new 1 t && t.asmSt == .idle && t.cntFrame == 1 && t.frameBytes == frameA) = true := by decide

/-- V-ASM-7: with both the checksum and the end marker wrong only the end-marker counter moves. -/
theorem test_end_check_comes_first :
    (match asmStep 0x01 (assembling 24 (frameA.set 23 0xFB)) with
      | .ok (e, t) => e == .endErr && t.cntEnderr == 1 && t.cntSumerr == 0 && t.asmSt == .idle
      | .error _ => false) = true := by decide

/-- V-ASM-6: a wrong checksum. -/
theorem test_sum_check :
    (match asmStep 0x00 (assembling 24 (frameA.set 23 0xFB)) with
      | .ok (e, t) => e == .sumErr && t.cntEnderr == 0 && t.cntSumerr == 1 && t.vvalid == false
      | .error _ => false) = true := by decide

/-- V-ASM-13: a start marker inside a frame is data. -/
theorem test_start_marker_inside_frame_is_data :
    (match asmStep 0x0F (assembling 5 frameA) with
      | .ok (e, t) => e == .kept && t.asmCnt == 6 && t.byteAt .fb 5 == some 0x0F
      | .error _ => false) = true := by decide

/-! ## DECODE (B.4) -/

/-- Frame C, channel 5, with the 24-bit window. -/
theorem test_decode_wide : answers (exec (.decode 5) (keeping frameC)) (replies .C .ok 0x2B2) = true := by decide

/-- Frame C, channel 5, with the 16-bit window: bits 9 and 10 are lost. -/
theorem test_decode_narrow : answers (exec (.decode 5) (narrow (keeping frameC))) (replies .C .ok 0x0B2) = true := by decide

/-! ## RDSTAT (B.5) -/

/-- V-ST-8: FILLING, 24, with a valid frame. -/
theorem test_rdstat_assembler :
    answers (exec (.rdstat 5) { keeping frameA with asmSt := .filling, asmCnt := 24 }) (replies .C .ok 0x0078) = true := by decide

/-- V-ST-5: K = 16, IMMEDIATE, W16. -/
theorem test_rdstat_configuration :
    answers (exec (.rdstat 8) { State.reset with cfg := { k := 16, syncMode := .immediate, chWindow := .w16 } })
      (replies .C .ok 0x0310) = true := by decide

/-! ## Faults, reset, silence (B.6, B.7) -/

/-- V-F-2: the second fault adds its cause and keeps the first one's word and port. -/
theorem test_first_fault_is_kept :
    answers (step { ready [.command .P 0x2000] with faultCause := 1, faultWord := 0x0000, faultPort := .C })
      (fun t => replies .P .fault 2 t && t.faultCause == 3 && t.faultWord == 0 && t.faultPort == .C && t.faultO) = true := by decide

/-- V-ENC-15: the range check comes before the frame check. -/
theorem test_fault_range_before_frame :
    answers (step (ready [.command .C 0x5010]))
      (fun t => replies .C .fault 3 t && t.faultCause == 4 && t.faultWord == 0x5010) = true := by decide

/-- V-R-1, V-POLL-4: reset during a poll. -/
theorem test_reset_during_poll :
    answers (step (polling 0x42 [.reset])) (fun t => { t with storageDraw := State.reset.storageDraw } == State.reset) = true := by decide

/-- R40: a byte nothing has written since the reset is one of the new draw, in a slot written before it too. -/
theorem test_reset_draws_storage_anew :
    (match step (polling 0x42 [.reset]) with
      | .next t => t.byteAt .rb 0 = none ∧ t.cell .rb 0 = Config.freeByte 1 0 0
      | .fault _ => False
      | .refused _ => False) := ⟨rfl, rfl⟩

/-- V-POLL-5: a word on C waits while a poll is in progress, and is issued once the poll is done. -/
theorem test_word_waits_for_poll :
    answers (step (polling 0x42 [.command .C 0x3000]))
      (fun t => t.turns == [.command .C 0x3000] && t.pollRem == 0) = true := by decide

/-- A word placed by the host is the one the next step runs. -/
theorem test_placed_word_runs :
    answers (step (State.reset.withFetchWord 16 0x1042)) (fun t => replies .P .ok 0 t && t.byteAt .rb 0 == some 0x42) = true := by
  decide

/-! ## Program lines (30_encoding.md §6) -/

/-- P3, line 1: PUSHBYTES 0x42, 0x13. -/
theorem test_push_bytes_line :
    Line.turns Config.shipped (.pushBytes [0x42, 0x13]) = some [.command .P 0x1042, .command .P 0x1013] := by decide

/-- R85: an operand that does not fit is an assembler error, not a word, and so is the program with that line. -/
theorem test_assembler_error :
    Line.turns Config.shipped (.command .C (.decode 32)) = none ∧
      assemble Config.shipped [.command .C .pop, .command .C (.decode 4096)] = none ∧
      assemble Config.shipped [.command .C .pop, .command .C (.decode 31)] =
        some [.command .C 0x2000, .command .C 0x501F] := by decide

/-! ## Witnesses: states and operands that meet all the hypotheses of a statement together -/

set_option maxRecDepth 10000

theorem witness_EncodedCommandDecodesBack : Instr.wf (.decode 31) = true ∧ Instr.wf (.rdstat 15) = true := by
  constructorm* _ ∧ _ <;> decide

theorem witness_DecodedWordIsTheCommandsWord :
    decodeAt .P 0x10FF = .ok (.push 0xFF) ∧ decodeAt .C 0x501F = .ok (.decode 31) := by
  constructorm* _ ∧ _ <;> decide

/-- One word for each clause, at the ends of the opcode ranges, with its reserved bits 0 and not 0. -/
theorem witness_EveryWordDecodesByTheOpcodeMap :
    (0x0FFF#16).toNat / 4096 = 0 ∧ (0x7000#16).toNat / 4096 = 7 ∧ (0x1100#16).toNat / 4096 = 1 ∧
      (0x2001#16).toNat / 4096 = 2 ∧ (0x3000#16).toNat / 4096 = 3 ∧ (0x4000#16).toNat / 4096 = 4 ∧
      (0x503F#16).toNat / 4096 = 5 ∧ (0x6FFF#16).toNat / 4096 = 6 := by
  constructorm* _ ∧ _ <;> decide

theorem witness_StepRunsTheDecodedCommand :
    (ready [.command .C 0x2000, .syncH]).turns = .command .C 0x2000 :: [.syncH] ∧
      (ready [.command .C 0x2000, .syncH]).pollRem = 0 ∧ decodeAt .C 0x2000 = .ok .pop := by
  constructorm* _ ∧ _ <;> decide

theorem witness_StepRunsTheDecodedCommand_duringPoll :
    (polling 1 [.command .P 0x1042]).turns = .command .P 0x1042 :: [] ∧ (polling 1 [.command .P 0x1042]).pollRem ≠ 0 ∧
      decodeAt .P 0x1042 = .ok (.push 0x42) := by
  constructorm* _ ∧ _ <;> decide

theorem witness_PlacedWordIsTheNextCommand : decodeWord 0x1042 = .ok (.push 0x42) ∧ decodeWord 0x4000 = .ok .poll := by
  constructorm* _ ∧ _ <;> decide

/-- A line of each kind that stands for words, and of each kind that does not. -/
theorem witness_ProgramLinesStandForTheirWords :
    Instr.wf (.decode 31) = true ∧ Instr.wf (.decode 32) = false ∧ Port.C ≠ Instr.port (.push 0x55) ∧ frameA.length = 25 ∧
      (frameA.take 24).length ≠ 25 ∧ ([0x42] : List Byte) ≠ [] ∧
      assemble Config.shipped [.pushFrame frameA] = some (pushTurns frameA) ∧
      assemble Config.shipped [.sync] = some (syncTurns Config.shipped) ∧
      Line.turns Config.shipped (.command .C (.rdstat 16)) = none ∧
      assemble (ready [.reset]).cfg [.command .C .poll, .sync, .pushBytes [0x42]] =
        some (.command .C 0x4000 :: syncTurns Config.shipped ++ [.command .P 0x1042]) ∧
      assemble (ready [.reset]).cfg [.command .C .poll, .pushBytes []] = none := by
  constructorm* _ ∧ _ <;> decide

theorem witness_RefusedWordIsRecordedAndAnswered :
    (ready [.command .P 0x2000]).turns = .command .P 0x2000 :: [] ∧ decodeAt .P 0x2000 = .error .wrongPort ∧
      (ready [.command .C 0x7ABC]).turns = .command .C 0x7ABC :: [] ∧ (ready [.command .C 0x7ABC]).pollRem = 0 ∧
      decodeAt .C 0x7ABC = .error .illegal := by
  constructorm* _ ∧ _ <;> decide

theorem witness_ConsumerWordWaitsForThePoll :
    (polling 0x0F [.command .C 0x3000]).turns = .command .C 0x3000 :: [] ∧ (polling 0x0F [.command .C 0x3000]).pollRem ≠ 0 ∧
      (polling 0x0F [.command .C 0x3000]).Inv := by
  constructorm* _ ∧ _ <;> decide

theorem witness_ConsumerCommandNeedsNoPollInProgress : Instr.port .pop = .C ∧ (polling 0x0F []).pollRem ≠ 0 := by
  constructorm* _ ∧ _ <;> decide

theorem witness_TurnWithNoEnabledStepPasses :
    ((ready [.microStep]).turns = .microStep :: [] ∧ (ready [.microStep]).pollRem = 0) ∧
      ((ready [.syncH]).turns = .syncH :: [] ∧ (ready [.syncH]).headC = (ready [.syncH]).head) ∧
      ((immediate (filled 3 [.syncT])).turns = .syncT :: [] ∧ (immediate (filled 3 [.syncT])).cfg.syncMode = .immediate) ∧
      ((filled 3 []).turns = [] ∧ (filled 3 []).quiescent) := by
  constructorm* _ ∧ _ <;> decide

/-- A word the decode refuses, and a command that faults with a fault already recorded. -/
theorem witness_FaultingCommandChangesOnlyTheFaultRecord :
    (ready [.command .C 0x7ABC]).turns = .command .C 0x7ABC :: [] ∧ (ready [.command .C 0x7ABC]).pollRem = 0 ∧
      answers (step (ready [.command .C 0x7ABC])) (replies .C .fault 1) = true ∧
      answers (step { ready [.command .C 0x5000] with faultCause := 1 }) (replies .C .fault 4) = true := by
  constructorm* _ ∧ _ <;> decide

/-- Room for one byte more, and none. -/
theorem witness_PushStoresItsByteOrCountsAnOverflow :
    ((filled 6 []).head < (filled 6 []).cfg.n ∧ ((filled 6 []).head + 1) % (filled 6 []).cfg.n ≠ (filled 6 []).tailP) ∧
      ((filled 7 []).head < (filled 7 []).cfg.n ∧ ((filled 7 []).head + 1) % (filled 7 []).cfg.n = (filled 7 []).tailP) := by
  constructorm* _ ∧ _ <;> decide

theorem witness_PushIsFullExactlyAtTheProducersCap :
    ((filled 7 []).Inv ∧ (filled 7 []).producerView = (filled 7 []).cfg.n - 1) ∧
      ((filled 6 []).Inv ∧ (filled 6 []).producerView ≠ (filled 6 []).cfg.n - 1) := by
  constructorm* _ ∧ _ <;> decide

/-- Nothing visible, a byte, and (in a state no run reaches) a visible slot that nothing has written. -/
theorem witness_PopTakesTheByteAtTailOrIsEmpty :
    (State.reset.pollRem = 0 ∧ State.reset.headC = State.reset.tail) ∧
      ((filled 1 []).pollRem = 0 ∧ (filled 1 []).headC ≠ (filled 1 []).tail ∧ (filled 1 []).tail < (filled 1 []).cfg.n ∧
        (filled 1 []).byteAt .rb (filled 1 []).tail = some 0x10) ∧
      (({ filled 1 [] with slot := [] } : State).pollRem = 0 ∧
        ({ filled 1 [] with slot := [] } : State).headC ≠ ({ filled 1 [] with slot := [] } : State).tail ∧
        ({ filled 1 [] with slot := [] } : State).tail < ({ filled 1 [] with slot := [] } : State).cfg.n) := by
  constructorm* _ ∧ _ <;> decide

theorem witness_PopTakesTheOldestByteHeld :
    ((filled 7 []).Inv ∧ (filled 7 []).pollRem = 0 ∧ (filled 7 []).headC ≠ (filled 7 []).tail) ∧
      (State.reset.Inv ∧ State.reset.pollRem = 0 ∧ State.reset.headC = State.reset.tail) := by
  constructorm* _ ∧ _ <;> decide

theorem witness_LenAnswersTheVisibleCount : (filled 7 []).pollRem = 0 := by decide

/-- A lag of two and no lag. -/
theorem witness_LenIsBoundedAndExactWithoutLag :
    (({ filled 4 [] with headC := 2 } : State).Inv ∧ ({ filled 4 [] with headC := 2 } : State).syncHEnabled = true) ∧
      ((filled 4 []).Inv ∧ (filled 4 []).pollRem = 0 ∧ (filled 4 []).syncHEnabled = false) := by
  constructorm* _ ∧ _ <;> decide

/-- A view that lags and a view that is level, each way, and IMMEDIATE mode. -/
theorem witness_SyncMovesItsViewOnePosition :
    ({ filled 4 [.syncH] with headC := 2 } : State).turns = .syncH :: [] ∧ (filled 4 [.syncH]).turns = .syncH :: [] ∧
      ({ filled 4 [.syncT] with tail := 1 } : State).turns = .syncT :: [] ∧
      (immediate (filled 4 [.syncT])).turns = .syncT :: [] := by
  constructorm* _ ∧ _ <;> decide

/-- A state for each kind of turn of the queue statement. -/
theorem witness_EachStepActsOnTheBytesHeldAsAQueue :
    (filled 6 [.command .P (encode (.push 9))]).Inv ∧
      answers (step (filled 6 [.command .P (encode (.push 9))])) (replies .P .ok 0) = true ∧
      (filled 7 [.command .P (encode (.push 9))]).Inv ∧
      answers (step (filled 7 [.command .P (encode (.push 9))])) (replies .P .full 0) = true ∧
      (filled 1 [.command .C (encode .pop)]).Inv ∧
      answers (step (filled 1 [.command .C (encode .pop)])) (replies .C .ok 0x10) = true ∧
      (ready [.command .C (encode .pop)]).Inv ∧
      answers (step (ready [.command .C (encode .pop)])) (replies .C .empty 0) = true := by
  constructorm* _ ∧ _ <;> decide

theorem witness_EachStepActsOnTheBytesHeldAsAQueue_others :
    (polling 0x0F [.microStep]).Inv ∧ answers (step (polling 0x0F [.microStep])) (fun _ => true) = true ∧
      (polling 0x0F [.reset]).Inv ∧ answers (step (polling 0x0F [.reset])) (fun _ => true) = true ∧
      (filled 3 [.syncT]).Inv ∧ answers (step (filled 3 [.syncT])) (fun _ => true) = true ∧
      (filled 3 [.command .P 0x2000]).Inv ∧ answers (step (filled 3 [.command .P 0x2000])) (fun _ => true) = true ∧
      (filled 3 [.command .C 0x4000]).Inv ∧ answers (step (filled 3 [.command .C 0x4000])) (fun _ => true) = true := by
  constructorm* _ ∧ _ <;> decide

/-- Three turns that push a byte, carry `head` and pop it. -/
theorem witness_ReadsFollowAcceptedPushesInOrder :
    (ready [.command .P 0x1042, .syncH, .command .C 0x2000]).Inv ∧
      Turn.reset ∉ (ready [.command .P 0x1042, .syncH, .command .C 0x2000]).turns ∧
      ((traffic 3 (ready [.command .P 0x1042, .syncH, .command .C 0x2000])).map fun x => x.2) = some ([0x42], [0x42]) := by
  constructorm* _ ∧ _ <;> decide

theorem witness_CapPushesFillTheBufferAndOnePopMakesRoomForOne :
    (ready (pushTurns ([1, 2, 3, 4, 5, 6, 7] ++ [8]))).Inv ∧ (ready (pushTurns ([1, 2, 3, 4, 5, 6, 7] ++ [8]))).occupancy = 0 ∧
      (ready (pushTurns ([1, 2, 3, 4, 5, 6, 7] ++ [8]))).headC = (ready (pushTurns ([1, 2, 3, 4, 5, 6, 7] ++ [8]))).head ∧
      (ready (pushTurns ([1, 2, 3, 4, 5, 6, 7] ++ [8]))).tailP = (ready (pushTurns ([1, 2, 3, 4, 5, 6, 7] ++ [8]))).tail ∧
      ([1, 2, 3, 4, 5, 6, 7] : List Byte).length = (ready (pushTurns ([1, 2, 3, 4, 5, 6, 7] ++ [8]))).cfg.n - 1 := by
  constructorm* _ ∧ _ <;> decide

/-- The turns of the statement about one POP and one PUSH more. -/
def popThenPushes : List Turn := [.command .C (encode .pop), .syncT, .command .P (encode (.push 8)), .command .P (encode (.push 9))]

theorem witness_CapPushesFillTheBufferAndOnePopMakesRoomForOne_fullBuffer :
    (filled 7 popThenPushes).Inv ∧ (filled 7 popThenPushes).pollRem = 0 ∧
      (filled 7 popThenPushes).occupancy = (filled 7 popThenPushes).cfg.n - 1 ∧
      (filled 7 popThenPushes).tailP = (filled 7 popThenPushes).tail ∧ (filled 7 popThenPushes).headC ≠ (filled 7 popThenPushes).tail ∧
      (filled 7 popThenPushes).turns = .command .C (encode .pop) :: .syncT :: .command .P (encode (.push 8)) ::
        .command .P (encode (.push 9)) :: [] := by
  constructorm* _ ∧ _ <;> decide

/-- The same in IMMEDIATE mode: an empty buffer to fill, and a full one. -/
theorem witness_CapPushesFillTheBufferAndOnePopMakesRoomForOne_immediate :
    (immediate (ready (pushTurns ([1, 2, 3, 4, 5, 6, 7] ++ [8])))).Inv ∧
      (immediate (ready (pushTurns ([1, 2, 3, 4, 5, 6, 7] ++ [8])))).occupancy = 0 ∧
      (immediate (ready (pushTurns ([1, 2, 3, 4, 5, 6, 7] ++ [8])))).turns = pushTurns ([1, 2, 3, 4, 5, 6, 7] ++ [8]) ∧
      (immediate (filled 7 popThenPushes)).Inv ∧ (immediate (filled 7 popThenPushes)).pollRem = 0 ∧
      (immediate (filled 7 popThenPushes)).occupancy = (immediate (filled 7 popThenPushes)).cfg.n - 1 ∧
      (immediate (filled 7 popThenPushes)).tailP = (immediate (filled 7 popThenPushes)).tail ∧
      (immediate (filled 7 popThenPushes)).headC ≠ (immediate (filled 7 popThenPushes)).tail ∧
      (immediate (filled 7 popThenPushes)).turns = popThenPushes := by
  constructorm* _ ∧ _ <;> decide

theorem witness_ImmediateStepIsDeferredStepThenSync :
    (immediate (ready [.command .P 0x1042])).Inv ∧ (immediate (ready [.command .P 0x1042])).cfg.syncMode = .immediate ∧
      (immediate (ready [.command .P 0x1042])).turns = [.command .P 0x1042] := by
  constructorm* _ ∧ _ <;> decide

theorem witness_ImmediateStepIsDeferredStepThenSync_consumer :
    (immediate (filled 2 [.command .C (encode .pop)])).Inv ∧ (immediate (filled 2 [.command .C (encode .pop)])).pollRem = 0 ∧
      (immediate (filled 2 [.command .C (encode .pop)])).turns = [.command .C (encode .pop)] ∧
      (immediate { polling 0x42 [.microStep] with tailP := 0 }).Inv ∧
      (immediate { polling 0x42 [.microStep] with tailP := 0 }).turns = [.microStep] := by
  constructorm* _ ∧ _ <;> decide

theorem witness_SyncLineLevelsTheViews :
    ({ filled 4 (syncTurns Config.shipped) with headC := 2 } : State).Inv ∧
      ({ filled 4 (syncTurns Config.shipped) with headC := 2 } : State).cfg.syncMode = .deferred ∧
      Line.turns ({ filled 4 (syncTurns Config.shipped) with headC := 2 } : State).cfg .sync =
        some ({ filled 4 (syncTurns Config.shipped) with headC := 2 } : State).turns := by
  constructorm* _ ∧ _ <;> decide

/-- Something visible and nothing visible. -/
theorem witness_PollTakesItsSnapshot :
    ((filled 7 []).pollRem = 0 ∧ (filled 7 []).headC ≠ (filled 7 []).tail) ∧
      (State.reset.pollRem = 0 ∧ State.reset.headC = State.reset.tail) := by
  constructorm* _ ∧ _ <;> decide

theorem witness_IdleByteStartsOrIsDiscarded : State.reset.asmSt = .idle := by decide

theorem witness_FillingByteIsKeptWhateverItIs :
    (assembling 23 frameA).asmSt = .filling ∧ (assembling 23 frameA).asmCnt.toNat < 24 := by
  constructorm* _ ∧ _ <;> decide

/-- The three outcomes: a last byte 0x01, a wrong checksum, a valid frame. -/
theorem witness_CompletedWindowIsJudged :
    ((assembling 24 frameA).asmSt = .filling ∧ (assembling 24 frameA).asmCnt.toNat = 24 ∧
      frameA.take 24 = (List.range 24).map ((assembling 24 frameA).cell .fb) ∧
      (((frameA.take 24).take 23).map BitVec.toNat).sum % 256 = (windowByte (frameA.take 24) 23).toNat) ∧
      (frameA.set 23 0xFB).take 24 = (List.range 24).map ((assembling 24 (frameA.set 23 0xFB)).cell .fb) ∧
      ((((frameA.set 23 0xFB).take 24).take 23).map BitVec.toNat).sum % 256 ≠
        (windowByte ((frameA.set 23 0xFB).take 24) 23).toNat := by
  constructorm* _ ∧ _ <;> decide

theorem witness_MicroStepTakesOneByteThroughTheAssembler : (polling 0x42 []).Inv ∧ (polling 0x42 []).pollRem ≠ 0 := by
  constructorm* _ ∧ _ <;> decide

/-- A poll of two bytes. -/
def pollOfTwo (ts : List Turn) : State := { filled 3 ts with pollRem := 2, pollLen := 2 }

theorem witness_PollRunsItsSnapshotThroughTheAssembler :
    (pollOfTwo [.microStep, .microStep, .syncT]).Inv ∧ (pollOfTwo [.microStep, .microStep, .syncT]).pollRem ≠ 0 ∧
      (pollOfTwo [.microStep, .microStep, .syncT]).turns =
        List.replicate (pollOfTwo [.microStep, .microStep, .syncT]).pollRem.toNat .microStep ++ [.syncT] := by
  constructorm* _ ∧ _ <;> decide

theorem witness_OnlyTheConsumerCountsThePollDown :
    ((pollOfTwo [.microStep]).Inv ∧ (pollOfTwo [.microStep]).pollRem ≠ 0 ∧
      answers (step (pollOfTwo [.microStep])) (fun _ => true) = true) ∧
      answers (step (pollOfTwo [.command .C 0x2000])) (fun _ => true) = true ∧
      answers (step (pollOfTwo [.command .P 0x1042])) (fun _ => true) = true ∧
      answers (step (pollOfTwo [.syncH])) (fun _ => true) = true ∧
      answers (step (pollOfTwo [.reset])) (fun _ => true) = true := by
  constructorm* _ ∧ _ <;> decide

/-- A count of 24 with the last byte, and a count of 1 with none. -/
theorem witness_FillingEndsAfterTwentyFiveBytes :
    ((assembling 24 frameA).Inv ∧ (assembling 24 frameA).asmSt = .filling ∧
      ([0x00] : List Byte).length + (assembling 24 frameA).asmCnt.toNat = 25) ∧
      ((assembling 1 frameA).Inv ∧ ([] : List Byte).length + (assembling 1 frameA).asmCnt.toNat ≤ 25) := by
  constructorm* _ ∧ _ <;> decide

/-- A byte passed over, a frame, and the start of another. -/
theorem witness_AssemblerEmitsExactlyTheScannedFrames :
    State.reset.Inv ∧ State.reset.asmSt = .idle ∧ scannedFrames ([0x42] ++ frameA ++ [0x0F]) = [frameA] := by
  constructorm* _ ∧ _ <;> decide

theorem witness_OneChangedByteFailsTheChecksum :
    frameA.length = 25 ∧ endOk frameA = true ∧ sumOk frameA = true ∧ (0x01 : Byte) ≠ windowByte frameA 1 ∧
      (0xFB : Byte) ≠ windowByte frameA 23 := by
  constructorm* _ ∧ _ <;> decide

theorem witness_FrameAfterACorruptedFrameIsKept :
    State.reset.Inv ∧ State.reset.asmSt = .idle ∧ validFrame frameA ∧ validFrame frameC ∧
      (0x01 : Byte) ≠ windowByte frameA 5 ∧ (0x01 : Byte) ≠ windowByte frameA 24 := by
  constructorm* _ ∧ _ <;> decide

theorem witness_CountersAccountForEveryByte :
    (polling 0x42 []).Inv ∧ answers (microStep (polling 0x42 [])) (fun _ => true) = true ∧ (polling 0x42 []).pollRem ≠ 0 ∧
      (filled 7 []).Inv ∧ answers (exec (.push 1) (filled 7 [])) (fun _ => true) = true := by
  constructorm* _ ∧ _ <;> decide

/-- Channel 15 in either window. -/
theorem witness_DecodeAnswersTheChannelField :
    ((keeping frameC).Inv ∧ (keeping frameC).pollRem = 0 ∧ (keeping frameC).vvalid = true ∧ 15 ≤ 15) ∧
      ((narrow (keeping frameC)).Inv ∧ (narrow (keeping frameC)).cfg.chWindow = .w16) := by
  constructorm* _ ∧ _ <;> decide

theorem witness_DecodeBitsAreFrameBits :
    (keeping frameC).Inv ∧ (keeping frameC).vvalid = true ∧
      answers (exec (.decode 15) (keeping frameC)) (replies .C .ok 0x00C) = true ∧
      (narrow (keeping frameC)).Inv ∧ answers (exec (.decode 5) (narrow (keeping frameC))) (replies .C .ok 0x0B2) = true := by
  constructorm* _ ∧ _ <;> decide

/-- A channel of each of the three masks, and frame C's bytes for channel 5 (B.4). -/
theorem witness_NarrowWindowLosesOnlyTheNamedBits :
    2 ≤ 15 ∧ 13 ≤ 15 ∧ 15 ≤ 15 ∧ field24 5 0x22 0x59 0xED = 0x2B2 ∧ field16 5 0x22 0x59 = 0x0B2 := by
  constructorm* _ ∧ _ <;> decide

/-- Frame C is the packing of the values (137 i + 5) mod 2048. -/
theorem witness_DecodeInvertsThePacking :
    (keeping frameC).Inv ∧ (keeping frameC).pollRem = 0 ∧ (keeping frameC).vvalid = true ∧
      (∀ m < 22, (windowByte (keeping frameC).frameBytes (1 + m)).toNat =
        packed (fun i => BitVec.ofNat 11 (137 * i + 5)) / 2 ^ (8 * m) % 256) ∧ (keeping frameC).cfg.chWindow = .w24 := by
  constructorm* _ ∧ _ <;> decide

/-- Index 16, index 15 without a frame, index 15 with one. -/
theorem witness_DecodeChecksTheIndexThenTheFrame :
    State.reset.pollRem = 0 ∧ 16 > 15 ∧ 15 ≤ 15 ∧ State.reset.vvalid = false ∧ (keeping frameC).pollRem = 0 ∧
      (keeping frameC).vvalid = true := by
  constructorm* _ ∧ _ <;> decide

/-- Selectors 0, 8 and 9. -/
theorem witness_RdstatReadsEachStatusWordOrIsIllegal :
    (keeping frameA).Inv ∧ (keeping frameA).pollRem = 0 ∧ 0 ≤ 8 ∧ 8 ≤ 8 ∧ 9 > 8 := by
  constructorm* _ ∧ _ <;> decide

/-- A second fault, and a step without one. -/
theorem witness_RecordedFaultIsKeptUntilReset :
    ({ ready [.command .P 0x2000] with faultCause := 1 } : State).turns.head? ≠ some .reset ∧
      ({ ready [.command .P 0x2000] with faultCause := 1 } : State).faultCause ≠ 0 ∧
      answers (step { ready [.command .P 0x2000] with faultCause := 1 }) (fun _ => true) = true ∧
      answers (step (ready [.command .P 0x1042])) (fun _ => true) = true := by
  constructorm* _ ∧ _ <;> decide

theorem witness_DataConditionsAreNoFaults :
    (polling 0x42 []).Inv ∧ answers (microStep (polling 0x42 [])) (fun t => t.cntResync == 1) = true ∧
      answers (exec (.push 1) (filled 7 [])) (replies .P .full 0) = true ∧ answers (exec .pop State.reset) (replies .C .empty 0) = true := by
  constructorm* _ ∧ _ <;> decide

theorem witness_EachDomainWritesOnlyItsOwnState :
    ((filled 6 [.command .P 0x1042]).Inv ∧ answers (step (filled 6 [.command .P 0x1042])) (replies .P .ok 0) = true) ∧
      ((filled 6 [.command .C 0x2000]).Inv ∧ answers (step (filled 6 [.command .C 0x2000])) (replies .C .ok 0x10) = true) ∧
      ((pollOfTwo [.microStep]).Inv ∧ answers (step (pollOfTwo [.microStep])) (fun _ => true) = true) ∧
      (({ filled 6 [.syncH] with headC := 5 } : State).Inv ∧
        answers (step { filled 6 [.syncH] with headC := 5 }) (fun t => t.headC == 6) = true) := by
  constructorm* _ ∧ _ <;> decide

theorem witness_NoStepChangesTheConfiguration : answers (step (ready [.reset])) (fun _ => true) = true := by decide

theorem witness_ResetTurnGivesEveryElementItsResetValue : (polling 0x42 [.reset, .syncH]).turns = .reset :: [.syncH] := by decide

theorem witness_ResetStateMeetsTheInvariant : Config.wf { k := 16, syncMode := .immediate, chWindow := .w16 } := by decide

theorem witness_EveryStepKeepsTheInvariant :
    (filled 6 [.command .P 0x1042]).Inv ∧ answers (step (filled 6 [.command .P 0x1042])) (fun _ => true) = true := by
  constructorm* _ ∧ _ <;> decide

theorem witness_BlockCanAlwaysTakeItsNextStep : (pollOfTwo [.command .C 0x7ABC]).Inv := by decide

/-- A state outside the invariant whose storage is in form. -/
theorem witness_EveryStepKeepsStorageInForm :
    ({ filled 6 [.command .P 0x1042] with headC := 7 } : State).storageForm ∧
      ¬ ({ filled 6 [.command .P 0x1042] with headC := 7 } : State).Inv ∧
      answers (step { filled 6 [.command .P 0x1042] with headC := 7 }) (fun _ => true) = true := by
  constructorm* _ ∧ _ <;> decide

/-- A silent outside with a poll and both lags still to work off. -/
theorem witness_SilentBlockBecomesQuiescent :
    ({ pollOfTwo [] with head := 3, headC := 2 } : State).Inv ∧ ({ pollOfTwo [] with head := 3, headC := 2 } : State).turns = [] ∧
      ¬ ({ pollOfTwo [] with head := 3, headC := 2 } : State).quiescent := by
  constructorm* _ ∧ _ <;> decide

/-- A byte held, a poll of it in progress, and a reset still to come. -/
theorem witness_UnwrittenStorageIsUnobservable : (polling 0x42 [.microStep, .reset]).Inv := by decide

/-! ## Runs without end -/

/-- The states of the run that takes the turns of a list from the reset state of a configuration on, one after the other,
and then no turn. -/
def follow (c : Config) (ts : List Turn) : Nat → State
  | 0 => State.resetOf c
  | k + 1 =>
    match ts[k]? with
    | some v =>
      match step { follow c ts k with turns := [v] } with
      | .next t => t
      | .fault _ => follow c ts k
      | .refused _ => follow c ts k
    | none => { follow c ts k with response := none }

/-- Whether each turn of the list is enabled where it comes, and has a next state. -/
def legal (c : Config) (ts : List Turn) : Bool :=
  (List.range ts.length).all fun k => (ts[k]?).all fun v =>
    Turn.enabled (follow c ts k) v && answers (step { follow c ts k with turns := [v] }) (fun _ => true)

theorem follow_isRun {c : Config} {ts : List Turn} (hc : c.wf) (h : legal c ts = true) : isRun (follow c ts) (ts[·]?) := by
  refine ⟨⟨c, 0, hc, rfl⟩, fun k => ?_⟩
  rcases hk : ts[k]? with _ | v
  · simp only [State.link, follow, hk]
  · have hlt : k < ts.length := (List.getElem?_eq_some_iff.1 hk).1
    have hv := List.all_eq_true.1 h k (List.mem_range.2 hlt)
    simp only [hk, Option.all_some, Bool.and_eq_true] at hv
    obtain ⟨hv1, hv2⟩ := hv
    simp only [State.link, follow, hk]
    refine ⟨hv1, ?_⟩
    split <;> simp_all [answers]

/-- After its turns the run rests: the state keeps all but the response. -/
theorem follow_rests (c : Config) (ts : List Turn) (d : Nat) :
    ∃ r, follow c ts (ts.length + d) = { follow c ts ts.length with response := r } := by
  induction d with
  | zero => exact ⟨_, rfl⟩
  | succ d ih =>
    obtain ⟨r, hr⟩ := ih
    refine ⟨none, ?_⟩
    rw [← Nat.add_assoc, follow, List.getElem?_eq_none (by omega), hr]

theorem follow_fair {c : Config} {ts : List Turn} (h : (follow c ts ts.length).ownTurns = []) : weaklyFair (follow c ts) (ts[·]?) := by
  rintro v hv ⟨k, hk⟩
  obtain ⟨r, hr⟩ := follow_rests c ts k
  have he := (hk (ts.length + k) (by omega)).1
  rw [hr] at he
  have hm : v ∈ (follow c ts ts.length).ownTurns := by
    refine List.mem_filter.2 ⟨hv, Eq.trans ?_ he⟩
    simp only [ownSteps, List.mem_cons, List.not_mem_nil, or_false] at hv
    rcases hv with rfl | rfl | rfl <;> rfl
  rw [h] at hm
  cases hm

/-- A byte pushed, carried and polled, and its slot given back. -/
def onePoll : List Turn := [.command .P 0x1042, .syncH, .command .C 0x4000, .microStep, .syncT]

/-- The states of the run in which the producer issues POP's word on its own port for ever. -/
def endless (k : Nat) : State :=
  if k = 0 then State.reset
  else { State.reset with
    faultCause := 2, faultWord := 0x2000, faultPort := .P
    response := some { port := .P, status := .fault, value := 2 } }

theorem endless_isRun : isRun endless (fun _ => some (.command .P 0x2000)) := by
  refine ⟨⟨Config.shipped, 0, by decide, rfl⟩, fun k => ⟨rfl, ?_⟩⟩
  rcases k with _ | k
  · rfl
  · have hs : ∀ j, endless (j + 1) = endless 1 := fun j => by simp [endless]
    rw [hs k, hs (k + 1)]
    rfl

/-- A run with endlessly many commands, and a run that rests. -/
theorem witness_AnyEnabledTurnMayComeNextInARun :
    isRun endless (fun _ => some (.command .P 0x2000)) ∧ isRun (follow .shipped onePoll) (onePoll[·]?) :=
  ⟨endless_isRun, follow_isRun (by decide) (by decide)⟩

theorem witness_EveryFinitePartOfARunIsAListOfTurns :
    isRun (follow .shipped onePoll) (onePoll[·]?) ∧ (∀ j < onePoll.length, onePoll[j]? = onePoll[j]?) ∧ onePoll.length = 5 :=
  ⟨follow_isRun (by decide) (by decide), fun _ _ => rfl, rfl⟩

/-- From the state after the POLL on: a poll in progress, and no reset to come. -/
theorem witness_EveryPollCompletesInAFairRun :
    isRun (follow .shipped onePoll) (onePoll[·]?) ∧ weaklyFair (follow .shipped onePoll) (onePoll[·]?) ∧ (follow .shipped onePoll 3).pollRem ≠ 0 ∧
      turnCount (onePoll[·]?) (· == .reset) 3 1 = 0 :=
  ⟨follow_isRun (by decide) (by decide), follow_fair (by decide), by decide, by decide⟩

/-- From the state after the POLL on no traffic comes, and the state is not quiescent. -/
theorem onePoll_quiet : quietFrom (onePoll[·]?) 3 := by
  intro m hm
  have h : ∀ j < 5, 3 ≤ j → onePoll[j]? = some .microStep ∨ onePoll[j]? = some .syncT := by decide
  by_cases h5 : m < 5
  · rcases h m h5 hm with he | he <;> simp [he]
  · have hn : onePoll[m]? = none := List.getElem?_eq_none (Nat.le_of_not_lt h5)
    simp [hn]

theorem witness_FairRunWithoutTrafficBecomesQuiescent :
    isRun (follow .shipped onePoll) (onePoll[·]?) ∧ weaklyFair (follow .shipped onePoll) (onePoll[·]?) ∧ quietFrom (onePoll[·]?) 3 ∧
      ¬ (follow .shipped onePoll 3).quiescent :=
  ⟨follow_isRun (by decide) (by decide), follow_fair (by decide), onePoll_quiet, by decide⟩

theorem witness_OwnStepsAreBoundedWithoutTraffic :
    isRun (follow .shipped onePoll) (onePoll[·]?) ∧ quietFrom (onePoll[·]?) 3 ∧ turnCount (onePoll[·]?) (ownSteps.contains ·) 3 2 = 2 ∧
      (follow .shipped onePoll 3).ownWork = 2 :=
  ⟨follow_isRun (by decide) (by decide), onePoll_quiet, by decide, by decide⟩

/-- The shipped configuration in IMMEDIATE mode. -/
def shippedImmediate : Config := { Config.shipped with syncMode := .immediate }

/-- A refused word, a byte pushed and popped, a POP of nothing, LEN, a byte pushed and polled, DECODE with no frame, RDSTAT. -/
def immediateTurns : List Turn := [.command .P 0x2000, .command .P 0x1042, .command .C 0x2000, .command .C 0x2000,
  .command .C 0x3000, .command .P 0x1043, .command .C 0x4000, .microStep, .command .C 0x5000, .command .C 0x6008]

/-- A fair run in IMMEDIATE mode, whose turns after the accepted PUSH, the POP answered OK and the micro-step want a SYNC turn. -/
theorem witness_ImmediateRunHasTheResponsesOfADeferredRun :
    isRun (follow shippedImmediate immediateTurns) (immediateTurns[·]?) ∧
      weaklyFair (follow shippedImmediate immediateTurns) (immediateTurns[·]?) ∧
      (follow shippedImmediate immediateTurns 0).cfg.syncMode = .immediate ∧
      (List.range 10).map (fun k => syncAfter immediateTurns[k]? (follow shippedImmediate immediateTurns (k + 1)).response) =
        [none, some .syncH, some .syncT, none, none, some .syncH, none, some .syncT, none, none] :=
  ⟨follow_isRun (by decide) (by decide), follow_fair (by decide), rfl, by decide⟩

end Sys2Proof.Tests
end

/-! SUPPORT. Proofs of the statements of `10_state.md`, and the lemmas they need: each turn by its case, each step from a state of the
invariant, and what no meaning reads. -/

namespace Sys2Proof.Machine

/-! ## The turns, case by case (R21, R22) -/

theorem runTurn_consumerWord_idle {s : State} (w : Word) (h : s.pollRem = 0) : runTurn (.command .C w) s = issue .C w s := by
  simp [runTurn, polling_eq_false h]

theorem runTurn_consumerWord_busy {s : State} (w : Word) (h : s.pollRem ≠ 0) :
    runTurn (.command .C w) s = microStep (putBack (.command .C w) s) := by
  simp [runTurn, polling_eq_true h]

theorem runTurn_microStep_busy {s : State} (h : s.pollRem ≠ 0) : runTurn .microStep s = microStep s := by
  simp [runTurn, polling_eq_true h]

/-- Which turns are enabled (R21, R22), each as the rule says it. -/
theorem enabled_iff (s : State) (u : Turn) :
    Turn.enabled s u = true ↔
      match u with
      | .command .P _ => True
      | .command .C _ => s.pollRem = 0
      | .microStep => s.pollRem ≠ 0
      | .syncH => s.cfg.syncMode = .deferred ∧ s.headC ≠ s.head
      | .syncT => s.cfg.syncMode = .deferred ∧ s.tailP ≠ s.tail
      | .reset => True := by
  rcases u with ⟨_ | _, _⟩ | _ | _ | _ | _ <;>
    simp [Turn.enabled, State.polling, State.syncHEnabled, State.syncTEnabled]

/-- A turn that is not an enabled step passes, unless it is a word on C, which waits (logs 3 and 4). -/
theorem runTurn_passes {s : State} {u : Turn} (h : Turn.enabled s u = false) (hu : ∀ w, u ≠ .command .C w) :
    runTurn u s = .next (noResponse s) := by
  rcases u with ⟨_ | _, w⟩ | _ | _ | _ | _
  · cases h
  · exact absurd rfl (hu w)
  · exact if_neg (Bool.eq_false_iff.1 h)
  · exact if_neg (Bool.eq_false_iff.1 h)
  · exact if_neg (Bool.eq_false_iff.1 h)
  · cases h

/-- A turn of the block's own is never a reset. -/
theorem ne_reset_of_mem_ownTurns {s : State} {u : Turn} (h : u ∈ s.ownTurns) : u ≠ .reset := by
  rcases mem_ownTurns h with ⟨rfl, -⟩ | ⟨rfl, -⟩ | ⟨rfl, -⟩ <;> nofun

/-! ## A next state that meets the invariant -/

theorem State.Inv.asmForm {s : State} (h : s.Inv) : s.asmForm := by
  obtain ⟨-, -, -, -, hasm, -⟩ := h
  exact hasm

theorem State.Inv.partialWritten {s : State} (h : s.Inv) : s.partialWritten := by
  obtain ⟨-, -, -, -, -, -, -, hpartial, -⟩ := h
  exact hpartial

theorem State.Inv.frameKept {s : State} (h : s.Inv) : s.frameKept := by
  obtain ⟨-, -, -, -, -, -, -, -, hframe, -⟩ := h
  exact hframe

/-- With a poll in progress the consumer has a byte to take (R138). -/
theorem State.Inv.headC_ne_tail {s : State} (h : s.Inv) (hp : s.pollRem ≠ 0) : s.headC ≠ s.tail := by
  obtain ⟨-, hindex, -, -, -, -, -, -, -, hpoll, -⟩ := h
  exact visible_of_polling hindex hpoll hp

/-- Every command answers a next state of the invariant, on C with no poll in progress. -/
theorem exec_inv {i : Instr} {s : State} (h : s.Inv) (hp : i.port = .P ∨ s.pollRem = 0) : ∃ t, exec i s = .next t ∧ t.Inv := by
  have hc : i.port = .C → s.pollRem = 0 := fun hi => hp.resolve_left (by rw [hi]; nofun)
  cases i with
  | push b => exact execPush_inv b h
  | pop => exact execPop_inv h (hc rfl)
  | len => exact execLen_inv h (hc rfl)
  | poll => exact execPoll_inv h (hc rfl)
  | decode ch => exact execDecode_inv ch h (hc rfl)
  | rdstat sel => exact execRdstat_inv sel h (hc rfl)

/-- Every word, refused or accepted, answers a next state of the invariant. -/
theorem issue_inv {p : Port} {s : State} (w : Word) (h : s.Inv) (hp : p = .P ∨ s.pollRem = 0) :
    ∃ t, issue p w s = .next t ∧ t.Inv := by
  rcases issue_cases p w s with ⟨c, -, he⟩ | ⟨i, hi, he⟩
  · exact ⟨_, he, inv_raiseFault p w c h⟩
  · rw [he]
    exact exec_inv h (by rwa [decodeAt_port hi])

/-- Every turn, enabled or not, has a next state of the invariant. -/
theorem runTurn_inv {s : State} (u : Turn) (h : s.Inv) : ∃ t, runTurn u s = .next t ∧ t.Inv := by
  rcases runTurn_cases u s with ⟨p, w, -, hp, he⟩ | ⟨w, -, hp, he⟩ | ⟨-, hp, he⟩ | ⟨-, hm, hr, he⟩ | ⟨-, hm, hr, he⟩ |
    ⟨-, he⟩ | he <;> rw [he]
  · exact issue_inv w h hp
  · exact microStep_inv (inv_putBack u h) hp
  · exact microStep_inv h hp
  · exact ⟨_, rfl, inv_syncH h hm hr⟩
  · exact ⟨_, rfl, inv_syncT h hm hr⟩
  · exact ⟨_, rfl, inv_resetStep h⟩
  · exact ⟨_, rfl, inv_noResponse h⟩

/-- Every step from a state of the invariant has a next state of the invariant. -/
theorem step_inv {s : State} (h : s.Inv) : ∃ t, step s = .next t ∧ t.Inv := by
  rcases step_cases s with ⟨u, ts, -, he⟩ | ⟨-, -, he⟩ | ⟨-, u, -, he⟩ <;> rw [he]
  · exact runTurn_inv u (inv_turns ts h)
  · exact ⟨_, rfl, inv_noResponse h⟩
  · exact runTurn_inv u (inv_drawChoice h)

/-! ## What no meaning reads: the draw of the free bytes and the turns to come (R25, R30, R31, R23) -/

/-- The state with another draw of the free bytes and other turns to come. -/
def reframe (draw : Nat) (ts : List Turn) (s : State) : State := { s with storageDraw := draw, turns := ts }

/-- The draw a turn leaves: a reset draws anew (log 6). -/
def Turn.drawAfter : Turn → Nat → Nat
  | .reset, draw => draw + 1
  | _, draw => draw

/-- A state is what its assembler's domain holds and what AsmStep does not write. -/
theorem eq_of_sameAssembler {s t : State} (ha : sameAssembler s t) (ho : sameOutsideAssembler s t) : t = s := by
  cases s
  cases t
  simp_all [sameAssembler, sameOutsideAssembler]

/-- A slot the consumer can see holds a written byte, whatever the draw (R25). -/
theorem takenCell_reframe {s : State} (draw : Nat) (ts : List Turn) (h : s.Inv) (hr : s.headC ≠ s.tail) :
    (reframe draw ts s).cell .rb s.tail = s.cell .rb s.tail := by
  obtain ⟨-, hindex, hbound, hview, -, -, hwritten, -⟩ := h
  obtain ⟨b, hb⟩ := taken_written hindex hbound hview hwritten hr
  exact (cell_of_byteAt (s := reframe draw ts s) (sp := .rb) (a := s.tail) hb).trans (cell_of_byteAt hb).symm

/-- AsmStep reads no byte of the partial frame but the ones written (R30). -/
theorem asmStep_reframe {b : Byte} {s t : State} {ev : Event} (draw : Nat) (ts : List Turn) (ha : s.asmForm)
    (hp : s.partialWritten) (h : asmStep b s = .ok (ev, t)) :
    asmStep b (reframe draw ts s) = .ok (ev, reframe draw ts t) := by
  have hs : sameAssembler s (reframe draw ts s) := ⟨rfl, rfl, rfl, rfl, rfl, rfl, rfl, rfl, rfl⟩
  obtain ⟨t', h', hsame⟩ := asmStep_sameAssembler hs ha hp h
  have ho := (asmStep_writes h).1
  have ho' := (asmStep_writes h').1
  have : t' = reframe draw ts t := eq_of_sameAssembler hsame (by simp_all [sameOutsideAssembler, reframe])
  rw [h', this]

/-- The poll micro-step reads no byte but written ones (R25, R30). -/
theorem microStep_reframe {s t : State} (draw : Nat) (ts : List Turn) (h : s.Inv) (hp : s.pollRem ≠ 0)
    (ht : microStep s = .next t) : microStep (reframe draw ts s) = .next (reframe draw ts t) := by
  obtain ⟨hlt, ev, u, ha, rfl⟩ := microStep_next ht
  have hcell := takenCell_reframe draw ts h (h.headC_ne_tail hp)
  have ha' := asmStep_reframe (s := advanceTail s) draw ts h.asmForm h.partialWritten ha
  have htake : takeByte (reframe draw ts s) = .ok (s.cell .rb s.tail, reframe draw ts (advanceTail s)) :=
    takeByte_ok.2 ⟨hlt, hcell.symm, rfl⟩
  simp only [microStep, htake, ha']
  rfl

/-- POP reads no byte but a written one (R25). -/
theorem execPop_reframe {s t : State} (draw : Nat) (ts : List Turn) (h : s.Inv) (ht : execPop s = .next t) :
    execPop (reframe draw ts s) = .next (reframe draw ts t) := by
  obtain ⟨hp, ⟨he, rfl⟩ | ⟨hne, hlt, rfl⟩⟩ := execPop_next ht
  · exact (whenNotPolling_idle _ hp).trans (if_pos he)
  · have htake : takeByte (reframe draw ts s) = .ok (s.cell .rb s.tail, reframe draw ts (advanceTail s)) :=
      takeByte_ok.2 ⟨hlt, (takenCell_reframe draw ts h hne).symm, rfl⟩
    refine (whenNotPolling_idle _ hp).trans ((if_neg hne).trans ?_)
    rw [htake]
    rfl

/-- PUSH reads no storage. -/
theorem execPush_reframe {b : Byte} {s t : State} (draw : Nat) (ts : List Turn) (ht : execPush b s = .next t) :
    execPush b (reframe draw ts s) = .next (reframe draw ts t) := by
  rcases execPush_next ht with ⟨he, rfl⟩ | ⟨hne, hlt, rfl⟩
  · exact if_pos he
  · refine (if_neg hne).trans ?_
    rw [memWrite_eq b (sp := .rb) (s := reframe draw ts s) (a := (reframe draw ts s).head) hlt]
    rfl

/-- DECODE reads no byte but those of the valid frame, which were all written (R31). -/
theorem execDecode_reframe {ch : Nat} {s t : State} (draw : Nat) (ts : List Turn) (h : s.frameKept)
    (ht : execDecode ch s = .next t) : execDecode ch (reframe draw ts s) = .next (reframe draw ts t) := by
  have hp := (execDecode_next ht).1
  unfold execDecode at ht ⊢
  rw [whenNotPolling_idle _ hp] at ht
  refine (whenNotPolling_idle _ hp).trans ?_
  by_cases hc : ch > 15
  · rw [if_pos hc] at ht ⊢
    cases ht
    rfl
  · rw [if_neg hc] at ht ⊢
    by_cases hv : s.vvalid = false
    · rw [if_pos hv] at ht
      cases ht
      exact if_pos hv
    · rw [if_neg hv] at ht
      have hf := h (by simpa using hv)
      have hx := extract_of_frame (s := s) hf (Nat.not_lt.1 hc)
      have hx' := extract_of_frame (s := reframe draw ts s) hf (Nat.not_lt.1 hc)
      rw [hx] at ht
      cases ht
      refine (if_neg hv).trans ?_
      rw [hx']
      rfl

/-- No command reads the draw or the turns to come. -/
theorem exec_reframe {i : Instr} {s t : State} (draw : Nat) (ts : List Turn) (h : s.Inv) (ht : exec i s = .next t) :
    exec i (reframe draw ts s) = .next (reframe draw ts t) := by
  cases i with
  | push b => exact execPush_reframe draw ts ht
  | pop => exact execPop_reframe draw ts h ht
  | len =>
    obtain ⟨hp, rfl⟩ := execLen_next ht
    exact whenNotPolling_idle _ hp
  | poll =>
    obtain ⟨hp, ⟨hv, rfl⟩ | ⟨hv, rfl⟩⟩ := execPoll_next ht
    · exact (whenNotPolling_idle _ hp).trans (if_pos hv)
    · exact (whenNotPolling_idle _ hp).trans (if_neg hv)
  | decode ch => exact execDecode_reframe draw ts h.frameKept ht
  | rdstat sel =>
    have hw : statWord sel (reframe draw ts s) = statWord sel s := rfl
    obtain ⟨hp, ⟨w, hs, rfl⟩ | ⟨hs, rfl⟩⟩ := execRdstat_next ht
    all_goals
      refine (whenNotPolling_idle _ hp).trans ?_
      rw [hw, hs]
      rfl

theorem issue_reframe {p : Port} {w : Word} {s t : State} (draw : Nat) (ts : List Turn) (h : s.Inv)
    (ht : issue p w s = .next t) : issue p w (reframe draw ts s) = .next (reframe draw ts t) := by
  unfold issue at ht ⊢
  rcases hd : decodeAt p w with c | i <;> simp only [hd] at ht
  · cases ht
    rfl
  · exact exec_reframe draw ts h ht

/-- The step of an enabled turn reads neither the draw nor the turns to come, and leaves both but for the draw of a reset. -/
theorem runTurn_reframe {u : Turn} {s t : State} (draw : Nat) (ts : List Turn) (h : s.Inv)
    (he : Turn.enabled s u = true) (ht : runTurn u s = .next t) :
    runTurn u (reframe draw ts s) = .next (reframe (u.drawAfter draw) ts t) := by
  have he' := (enabled_iff s u).1 he
  rcases u with ⟨_ | _, w⟩ | _ | _ | _ | _
  · exact issue_reframe draw ts h ht
  · rw [runTurn_consumerWord_idle w he'] at ht
    exact (runTurn_consumerWord_idle (s := reframe draw ts s) w he').trans (issue_reframe draw ts h ht)
  · rw [runTurn_microStep_busy he'] at ht
    exact (runTurn_microStep_busy (s := reframe draw ts s) he').trans (microStep_reframe draw ts h he' ht)
  · cases (if_pos he).symm.trans ht
    exact if_pos he
  · cases (if_pos he).symm.trans ht
    exact if_pos he
  · cases ht
    rfl

/-- An enabled turn leaves the turns to come, and the draw but for a reset. -/
theorem runTurn_leaves {u : Turn} {s t : State} (h : s.Inv) (he : Turn.enabled s u = true) (ht : runTurn u s = .next t) :
    t.turns = s.turns ∧ t.storageDraw = u.drawAfter s.storageDraw := by
  have hsame : runTurn u s = .next (reframe (u.drawAfter s.storageDraw) s.turns t) :=
    runTurn_reframe s.storageDraw s.turns h he ht
  have heq : t = reframe (u.drawAfter s.storageDraw) s.turns t := Host.Outcome.next.inj (ht.symm.trans hsame)
  constructor <;> rw [heq] <;> rfl

/-! ## O54: the draw reaches no response (R25, R30, R31; log 6) -/

/-- The state with another draw of the free bytes. -/
def redraw (draw : Nat) (s : State) : State := { s with storageDraw := draw }

theorem reframe_eq_redraw {t : State} {ts : List Turn} (draw : Nat) (h : t.turns = ts) : reframe draw ts t = redraw draw t := by
  subst ts
  rfl

/-- A turn, enabled or not, takes the same step from another draw. -/
theorem runTurn_redraw {u : Turn} {s t : State} (draw : Nat) (h : s.Inv) (ht : runTurn u s = .next t) :
    ∃ draw', runTurn u (redraw draw s) = .next (redraw draw' t) := by
  rcases he : Turn.enabled s u with _ | _
  · by_cases hu : ∀ w, u ≠ .command .C w
    · cases (runTurn_passes he hu).symm.trans ht
      exact ⟨draw, runTurn_passes (s := redraw draw s) he hu⟩
    · obtain ⟨w, rfl⟩ := not_forall_not.1 hu
      have hp : s.pollRem ≠ 0 := fun h0 => by simp [(enabled_iff s (.command .C w)).2 h0] at he
      rw [runTurn_consumerWord_busy w hp] at ht
      obtain ⟨-, -, -, -, -, -, -, -, -, -, hts, -⟩ := microStep_leaves ht
      refine ⟨draw, (runTurn_consumerWord_busy (s := redraw draw s) w hp).trans ?_⟩
      rw [← reframe_eq_redraw draw hts]
      exact microStep_reframe (s := putBack (.command .C w) s) draw _ (inv_putBack _ h) hp ht
  · refine ⟨u.drawAfter draw, ?_⟩
    rw [← reframe_eq_redraw _ (runTurn_leaves h he ht).1]
    exact runTurn_reframe draw s.turns h he ht

/-- The block's own steps are the same ones, freely chosen alike, from another draw. -/
theorem runOwn_redraw {s t : State} (draw : Nat) (h : s.Inv) (ht : runOwn s = .next t) :
    ∃ draw', runOwn (redraw draw s) = .next (redraw draw' t) := by
  have hown : (redraw draw s).ownTurns = s.ownTurns := rfl
  have hfree : (redraw draw s).freeCount = s.freeCount := rfl
  unfold runOwn at ht ⊢
  rw [hown, hfree]
  rcases hu : s.ownTurns[Config.freeChoice s.freeCount % s.ownTurns.length]? with _ | u <;> simp only [hu] at ht
  · cases ht
    exact ⟨draw, rfl⟩
  · exact runTurn_redraw draw (inv_drawChoice h) ht

/-- A step takes the same step from another draw. -/
theorem step_redraw {s t : State} (draw : Nat) (h : s.Inv) (ht : step s = .next t) :
    ∃ draw', step (redraw draw s) = .next (redraw draw' t) := by
  rcases hts : s.turns with _ | ⟨u, ts⟩
  · have hown : ∀ r : State, r.turns = [] → step r = runOwn r := fun r hr => by simp only [step, nextTurn, hr]
    rw [hown s hts] at ht
    rw [hown (redraw draw s) hts]
    exact runOwn_redraw draw h ht
  · rw [step_turn hts] at ht
    obtain ⟨draw', h'⟩ := runTurn_redraw draw (inv_turns ts h) ht
    exact ⟨draw', (step_turn (s := redraw draw s) hts).trans h'⟩

/-- Settles O54, by induction on the number of steps: each step from a state of the invariant is the same step from another draw. -/
theorem unwrittenStorageIsUnobservable : Obligations.UnwrittenStorageIsUnobservable := by
  intro s draw k h
  change ∃ t draw', Sys2Proof.core.run k s = .next t ∧ Sys2Proof.core.run k (redraw draw s) = .next (redraw draw' t)
  induction k generalizing s draw with
  | zero => exact ⟨s, draw, rfl, rfl⟩
  | succ k ih =>
    obtain ⟨u, hu, hinv⟩ := step_inv h
    obtain ⟨draw', hu'⟩ := step_redraw draw h hu
    rw [run_succ hu, run_succ hu']
    exact ih u draw' hinv

/-! ## The word that waits, and the turn that passes (O10, O12, O5, O11) -/

/-- With a poll in progress a turn of the consumer's, a word or the micro-step, is the micro-step; the list of turns is all that
tells the two apart (R21, R186). -/
theorem step_consumer_busy {s : State} {u : Turn} {ts : List Turn} (hts : s.turns = u :: ts)
    (hu : u = .microStep ∨ ∃ w, u = .command .C w) (hp : s.pollRem ≠ 0) :
    ∃ us, step s = microStep { s with turns := us } := by
  rw [step_turn hts]
  rcases hu with rfl | ⟨w, rfl⟩
  · exact ⟨ts, runTurn_microStep_busy (s := { s with turns := ts }) hp⟩
  · exact ⟨_, runTurn_consumerWord_busy (s := { s with turns := ts }) w hp⟩

/-- Settles O10: the waiting word put back is the list of turns as it was. -/
theorem consumerWordWaitsForThePoll : Obligations.ConsumerWordWaitsForThePoll := by
  intro s w ts hts hp h
  have hback : putBack (.command .C w) { s with turns := ts } = s := by
    change { s with turns := .command .C w :: ts } = s
    rw [← hts]
  have hstep : step s = microStep s := by
    rw [step_turn hts, runTurn_consumerWord_busy (s := { s with turns := ts }) w hp, hback]
  obtain ⟨t, ht, -⟩ := microStep_inv h hp
  obtain ⟨-, -, -, -, -, -, hrem, -, -, -, hturns, -⟩ := microStep_leaves ht
  exact ⟨hstep, t, hstep.trans ht, hturns, hrem⟩

/-- Settles O5: the next turn's step issues the word, and the decode accepts it. -/
theorem stepRunsTheDecodedCommand : Obligations.StepRunsTheDecodedCommand := by
  intro s p w i ts hts hp hd
  have hissue : issue p w { s with turns := ts } = exec i { s with turns := ts } := by simp only [issue, hd]
  rw [step_turn hts, ← hissue]
  cases p with
  | P => rfl
  | C => exact runTurn_consumerWord_idle w (hp.resolve_left nofun)

/-- Settles O11: each meaning of port C starts by asking that no poll is in progress. -/
theorem consumerCommandNeedsNoPollInProgress : Obligations.ConsumerCommandNeedsNoPollInProgress := by
  intro s i hi hp
  cases i with
  | push b => cases hi
  | pop => exact whenNotPolling_busy _ hp
  | len => exact whenNotPolling_busy _ hp
  | poll => exact whenNotPolling_busy _ hp
  | decode ch => exact whenNotPolling_busy _ hp
  | rdstat sel => exact whenNotPolling_busy _ hp

/-- The step of a turn that is not enabled, and is no word on C, passes (log 3). -/
theorem step_passes {s : State} {u : Turn} {ts : List Turn} (hts : s.turns = u :: ts) (h : Turn.enabled s u = false)
    (hu : ∀ w, u ≠ .command .C w) : step s = .next { s with turns := ts, response := none } :=
  (step_turn hts).trans (runTurn_passes ((enabled_turns s ts u).trans h) hu)

/-- Settles O12: none of the three turns is enabled there, and a quiescent block has no step of its own. -/
theorem turnWithNoEnabledStepPasses : Obligations.TurnWithNoEnabledStepPasses := by
  intro s ts
  refine ⟨fun hts hp => ?_, fun hts hv => ?_, fun hts hv => ?_, fun hts hq => ?_⟩
  · refine step_passes hts (Bool.eq_false_iff.2 fun he => ?_) nofun
    exact (enabled_iff s .microStep).1 he hp
  · refine step_passes hts (Bool.eq_false_iff.2 fun he => ?_) nofun
    obtain ⟨hm, hne⟩ := (enabled_iff s .syncH).1 he
    simp [hm, hne] at hv
  · refine step_passes hts (Bool.eq_false_iff.2 fun he => ?_) nofun
    obtain ⟨hm, hne⟩ := (enabled_iff s .syncT).1 he
    simp [hm, hne] at hv
  · rcases step_cases s with ⟨u, us, hu, -⟩ | ⟨-, -, he⟩ | ⟨-, u, hu, -⟩
    · simp [hts] at hu
    · exact he
    · simp [quiescent_iff.1 hq] at hu

/-! ## Reset (O48, O49) -/

/-- Settles O48: the reset values are those of R40's table, and the indices of an empty buffer are level. -/
theorem resetStateHoldsTheResetValues : Obligations.ResetStateHoldsTheResetValues := by
  have hheld : ∀ c : Config, (State.resetOf c).held = [] := fun c => by
    have hocc : (State.resetOf c).occupancy = 0 := indexSub_self c 0
    simp [State.held, hocc]
  exact ⟨⟨.shipped, by decide, rfl⟩, fun c =>
    ⟨rfl, rfl, rfl, rfl, rfl, rfl, rfl, rfl, rfl, rfl, rfl, rfl, rfl, rfl, rfl, rfl, rfl, rfl, rfl, rfl, rfl, hheld c⟩⟩

/-- Settles O49: an empty buffer, an idle assembler and no frame leave each part of the invariant nothing to ask. -/
theorem resetStateMeetsTheInvariant : Obligations.ResetStateMeetsTheInvariant :=
  ⟨inv_resetOf (by decide), fun _ => inv_resetOf⟩

/-! ## What each agent's turn leaves (O31, O45) -/

/-- All a word on P can do: a refusal, a counted overflow, or a byte stored (R100, R161). -/
theorem issueP_next {w : Word} {s t : State} (h : issue .P w s = .next t) :
    (∃ c, t = raiseFault .P w c s) ∨ t = respond .P .full 0 (countOverflow s) ∨
      ∃ b, t = respond .P .ok 0 (advanceHead (s.setSpace .rb (Memory.write s.slot s.head b))) := by
  rcases issue_cases .P w s with ⟨c, -, he⟩ | ⟨i, hi, he⟩ <;> rw [he] at h
  · cases h
    exact .inl ⟨c, rfl⟩
  · have hport := decodeAt_port hi
    cases i with
    | push b =>
      rcases execPush_next h with ⟨-, rfl⟩ | ⟨-, -, rfl⟩
      · exact .inr (.inl rfl)
      · exact .inr (.inr ⟨b, rfl⟩)
    | pop => cases hport
    | len => cases hport
    | poll => cases hport
    | decode ch => cases hport
    | rdstat sel => cases hport

/-- What a word on P leaves: the consumer's domain and the producer's view (R41). -/
theorem issueP_leaves {w : Word} {s t : State} (h : issue .P w s = .next t) :
    t.tail = s.tail ∧ t.tailP = s.tailP ∧ sameAssembler s t ∧ samePoll s t ∧
      (s.cfg.syncMode = .deferred → t.headC = s.headC) := by
  rcases issueP_next h with ⟨c, rfl⟩ | rfl | ⟨b, rfl⟩
  · simp [sameAssembler, samePoll]
  · simp [sameAssembler, samePoll]
  · simp +contextual [sameAssembler, samePoll]

/-- What a command of the consumer leaves: the producer's domain and the consumer's view (R41). -/
theorem issueC_leaves {w : Word} {s t : State} (h : issue .C w s = .next t) :
    t.slot = s.slot ∧ t.head = s.head ∧ t.cntOvf = s.cntOvf ∧ t.headC = s.headC ∧
      (s.cfg.syncMode = .deferred → t.tailP = s.tailP) := by
  rcases issue_cases .C w s with ⟨c, -, he⟩ | ⟨i, hi, he⟩ <;> rw [he] at h
  · cases h
    simp
  · have hport := decodeAt_port hi
    cases i with
    | push b => cases hport
    | pop => rcases execPop_next h with ⟨-, ⟨-, rfl⟩ | ⟨-, -, rfl⟩⟩ <;> simp +contextual
    | len =>
      obtain ⟨-, rfl⟩ := execLen_next h
      simp
    | poll => rcases execPoll_next h with ⟨-, ⟨-, rfl⟩ | ⟨-, rfl⟩⟩ <;> simp
    | decode ch => obtain ⟨-, ⟨c, rfl⟩ | ⟨-, -, v, -, rfl⟩⟩ := execDecode_next h <;> simp
    | rdstat sel => obtain ⟨-, ⟨v, -, rfl⟩ | ⟨-, rfl⟩⟩ := execRdstat_next h <;> simp

/-- What a consumer's turn leaves, whether it is a command, a poll micro-step or a turn that passes (R41). -/
theorem step_consumer_leaves {s t : State} {u : Turn} {ts : List Turn} (hts : s.turns = u :: ts)
    (hu : u = .microStep ∨ ∃ w, u = .command .C w) (h : step s = .next t) :
    t.slot = s.slot ∧ t.head = s.head ∧ t.cntOvf = s.cntOvf ∧ t.headC = s.headC ∧
      (s.cfg.syncMode = .deferred → t.tailP = s.tailP) := by
  by_cases hp : s.pollRem = 0
  · rcases hu with rfl | ⟨w, rfl⟩
    · rw [step_passes hts (Bool.eq_false_iff.2 fun he => (enabled_iff s .microStep).1 he hp) nofun] at h
      cases h
      exact ⟨rfl, rfl, rfl, rfl, fun _ => rfl⟩
    · rw [step_turn hts, runTurn_consumerWord_idle (s := { s with turns := ts }) w hp] at h
      exact issueC_leaves (s := { s with turns := ts }) h
  · obtain ⟨us, he⟩ := step_consumer_busy hts hu hp
    obtain ⟨-, hslot, hhead, hview, -, htailP, -, -, hovf, -⟩ := microStep_leaves (he.symm.trans h)
    exact ⟨hslot, hhead, hovf, hview, fun hm => htailP.trans (if_neg (by simp [hm]))⟩

/-- All a synchronizer turn can do: it passes, or in DEFERRED mode it moves one view (R22, R103, R104). -/
theorem syncTurn_next {u : Turn} {s t : State} (hu : u = .syncH ∨ u = .syncT) (h : runTurn u s = .next t) :
    t = noResponse s ∨ s.cfg.syncMode = .deferred ∧ (t = syncH s ∨ t = syncT s) := by
  rcases he : Turn.enabled s u with _ | _
  · rw [runTurn_passes he (by rintro w rfl; simp at hu)] at h
    cases h
    exact .inl rfl
  · rcases hu with rfl | rfl
    · cases (if_pos he).symm.trans h
      exact .inr ⟨((enabled_iff s .syncH).1 he).1, .inl rfl⟩
    · cases (if_pos he).symm.trans h
      exact .inr ⟨((enabled_iff s .syncT).1 he).1, .inr rfl⟩

/-- Settles O45: each agent's turn by what it leaves. -/
theorem eachDomainWritesOnlyItsOwnState : Obligations.EachDomainWritesOnlyItsOwnState := by
  intro s t u ts _ hts ht
  refine ⟨?_, fun hu => step_consumer_leaves hts hu ht, fun hu => ?_⟩
  · rintro ⟨w, rfl⟩
    exact issueP_leaves (s := { s with turns := ts }) ((step_turn hts).symm.trans ht)
  · rcases syncTurn_next hu ((step_turn hts).symm.trans ht) with rfl | ⟨hm, rfl | rfl⟩
    · exact ⟨rfl, fun _ => ⟨rfl, rfl⟩⟩
    · exact ⟨rfl, fun hi => nomatch hm.symm.trans hi⟩
    · exact ⟨rfl, fun hi => nomatch hm.symm.trans hi⟩

/-- Settles O31: the consumer's turn is the micro-step, and the other agents' turns leave the poll. -/
theorem onlyTheConsumerCountsThePollDown : Obligations.OnlyTheConsumerCountsThePollDown := by
  intro s t u ts _ hp hts ht
  have hturn := (step_turn hts).symm.trans ht
  refine ⟨fun hu => ?_, ?_, ?_⟩
  · obtain ⟨us, he⟩ := step_consumer_busy hts hu hp
    obtain ⟨-, -, -, -, -, -, hrem, hlen, -⟩ := microStep_leaves (he.symm.trans ht)
    exact ⟨hrem, hlen⟩
  · have hsync : u = .syncH ∨ u = .syncT → samePoll s t := fun hu => by
      rcases syncTurn_next hu hturn with rfl | ⟨-, rfl | rfl⟩ <;> exact ⟨rfl, rfl, rfl, rfl⟩
    rintro (rfl | rfl | ⟨w, rfl⟩)
    · exact hsync (.inl rfl)
    · exact hsync (.inr rfl)
    · obtain ⟨-, -, -, hpoll, -⟩ := issueP_leaves (s := { s with turns := ts }) hturn
      exact hpoll
  · rintro rfl
    cases hturn
    exact ⟨rfl, rfl⟩

/-! ## What every step keeps: the configuration and the fault record (O43, O46) -/

/-- Every cause recorded stays recorded, and with one recorded so do the word and the port (R34, R161). -/
def keepsFaultRecord (s t : State) : Prop :=
  s.faultCause &&& t.faultCause = s.faultCause ∧
    (s.faultCause ≠ 0 → t.faultCause ≠ 0 ∧ t.faultWord = s.faultWord ∧ t.faultPort = s.faultPort)

theorem keepsFaultRecord_of_same {s t : State} (h : sameFaultRecord s t) : keepsFaultRecord s t := by
  obtain ⟨hc, hw, hp⟩ := h
  exact ⟨by rw [hc, BitVec.and_self], fun h0 => ⟨by rwa [hc], hw, hp⟩⟩

/-- A fault sets its bit, and is the one kept only when it is the first (R161). -/
theorem keepsFaultRecord_raiseFault (p : Port) (w : Word) (c : Cause) (s : State) :
    keepsFaultRecord s (raiseFault p w c s) := by
  refine ⟨?_, fun h0 => ⟨causeBit_or_ne_zero _ c, if_neg h0, if_neg h0⟩⟩
  ext i
  simp +contextual

theorem issue_keeps {p : Port} {w : Word} {s t : State} (h : issue p w s = .next t) :
    t.cfg = s.cfg ∧ keepsFaultRecord s t := by
  rcases issue_cases p w s with ⟨c, -, he⟩ | ⟨i, -, he⟩ <;> rw [he] at h
  · cases h
    exact ⟨rfl, keepsFaultRecord_raiseFault p w c s⟩
  · rcases exec_cases h with ⟨q, st, v, rfl⟩ | rfl | ⟨b, -, -, rfl⟩ | ⟨v, -, rfl⟩ | ⟨r, -, rfl⟩ | ⟨c, -, rfl⟩
    case inr.inr.inr.inr.inr => exact ⟨rfl, keepsFaultRecord_raiseFault .C _ c s⟩
    all_goals exact ⟨rfl, keepsFaultRecord_of_same ⟨rfl, rfl, rfl⟩⟩

theorem microStep_keeps {s t : State} (h : microStep s = .next t) : t.cfg = s.cfg ∧ keepsFaultRecord s t := by
  obtain ⟨hcfg, -, -, -, -, -, -, -, -, hfault, -⟩ := microStep_leaves h
  exact ⟨hcfg, keepsFaultRecord_of_same hfault⟩

/-- Every turn keeps the configuration, and every turn but a reset the fault record. -/
theorem runTurn_keeps {u : Turn} {s t : State} (h : runTurn u s = .next t) :
    t.cfg = s.cfg ∧ (u ≠ .reset → keepsFaultRecord s t) := by
  have hsame : sameFaultRecord s s := ⟨rfl, rfl, rfl⟩
  rcases runTurn_cases u s with ⟨p, w, -, -, he⟩ | ⟨w, -, -, he⟩ | ⟨-, -, he⟩ | ⟨-, -, -, he⟩ | ⟨-, -, -, he⟩ |
    ⟨hu, he⟩ | he <;> rw [he] at h
  · exact (issue_keeps h).imp_right fun hk _ => hk
  · exact (microStep_keeps h).imp_right fun hk _ => hk
  · exact (microStep_keeps h).imp_right fun hk _ => hk
  · cases h
    exact ⟨rfl, fun _ => keepsFaultRecord_of_same hsame⟩
  · cases h
    exact ⟨rfl, fun _ => keepsFaultRecord_of_same hsame⟩
  · cases h
    exact ⟨rfl, fun hne => absurd hu hne⟩
  · cases h
    exact ⟨rfl, fun _ => keepsFaultRecord_of_same hsame⟩

/-- Every step keeps the configuration, and every step but a reset the fault record. -/
theorem step_keeps {s t : State} (h : step s = .next t) :
    t.cfg = s.cfg ∧ (s.turns.head? ≠ some .reset → keepsFaultRecord s t) := by
  rcases step_cases s with ⟨u, ts, hts, he⟩ | ⟨-, -, he⟩ | ⟨-, u, hu, he⟩ <;> rw [he] at h
  · obtain ⟨hcfg, hfault⟩ := runTurn_keeps h
    exact ⟨hcfg, fun hne => hfault fun hu => hne (by rw [hts, hu]; rfl)⟩
  · cases h
    exact ⟨rfl, fun _ => keepsFaultRecord_of_same ⟨rfl, rfl, rfl⟩⟩
  · obtain ⟨hcfg, hfault⟩ := runTurn_keeps h
    exact ⟨hcfg, fun _ => hfault (ne_reset_of_mem_ownTurns hu)⟩

/-- Settles O43: `step_keeps`, whose only new record is a fault's, and R161 keeps the first. -/
theorem recordedFaultIsKeptUntilReset : Obligations.RecordedFaultIsKeptUntilReset :=
  fun _ _ hne h => (step_keeps h).2 hne

/-- Settles O46: every turn, reset among them, keeps the configuration. -/
theorem noStepChangesTheConfiguration : Obligations.NoStepChangesTheConfiguration :=
  fun _ _ h => (step_keeps h).1

/-! ## Runs (R23; O55, O56) -/

/-- A link that takes a turn from a state of the invariant is the machine's step with that turn in front of any others. -/
theorem link_step {s t : State} {u : Turn} (us : List Turn) (h : s.Inv) (hl : s.link (some u) t) :
    step { s with turns := u :: us } = .next { t with turns := us } := by
  obtain ⟨he, ht⟩ := link_some.1 hl
  have he' := (enabled_turns s [] u).trans he
  have hstep := runTurn_reframe s.storageDraw us (inv_turns [] h) he' ht
  rw [← (runTurn_leaves (inv_turns [] h) he' ht).2] at hstep
  exact hstep

/-- Every state of a run meets the invariant and has no turn to come: the induction over a run. -/
theorem isRun_inv {states : Nat → State} {turns : Nat → Option Turn} (hr : isRun states turns) (k : Nat) :
    (states k).Inv ∧ (states k).turns = [] := by
  obtain ⟨⟨c, draw, hc, h0⟩, hlink⟩ := hr
  induction k with
  | zero =>
    rw [h0]
    exact ⟨inv_resetOf hc, rfl⟩
  | succ k ih =>
    obtain ⟨hinv, hturns⟩ := ih
    have hl := hlink k
    rcases hu : turns k with _ | u <;> rw [hu] at hl
    · rw [link_none.1 hl]
      exact ⟨hinv, hturns⟩
    · obtain ⟨he, ht⟩ := link_some.1 hl
      obtain ⟨t, ht', hinv'⟩ := runTurn_inv u (inv_turns [] hinv)
      cases ht'.symm.trans ht
      exact ⟨hinv', (runTurn_leaves (inv_turns [] hinv) ((enabled_turns _ _ _).trans he) ht).1⟩

/-- Settles O55: every turn has a next state of the invariant, and `enabled_iff` tells which are enabled. -/
theorem anyEnabledTurnMayComeNextInARun : Obligations.AnyEnabledTurnMayComeNextInARun := by
  intro states turns k hr
  have hinv := (isRun_inv hr k).1
  refine ⟨hinv, fun v he => ?_, fun _ => rfl, rfl, fun w => enabled_iff _ (.command .C w), enabled_iff _ .microStep,
    enabled_iff _ .syncH, enabled_iff _ .syncT⟩
  obtain ⟨t, ht, hinv'⟩ := runTurn_inv v (inv_turns [] hinv)
  exact ⟨t, link_some.2 ⟨he, ht⟩, hinv'⟩

/-- The machine's run over a list of turns passes through the states of a run that takes those turns. -/
theorem run_firstTurns {states : Nat → State} {turns : Nat → Option Turn} {ts : List Turn} (hr : isRun states turns)
    (h : ∀ j < ts.length, turns j = ts[j]?) {j : Nat} (hj : j ≤ ts.length) :
    Sys2Proof.core.run j { states 0 with turns := ts } = .next { states j with turns := ts.drop j } := by
  induction j with
  | zero => rfl
  | succ j ih =>
    have hl := hr.2 j
    rw [h j hj, List.getElem?_eq_getElem hj] at hl
    have hstep := link_step (ts.drop (j + 1)) (isRun_inv hr j).1 hl
    rw [run_add (ih (Nat.le_of_lt hj)), List.drop_eq_getElem_cons hj]
    exact run_one hstep

/-- Settles O56: the whole list taken, no turn is left to come, as in the run. -/
theorem everyFinitePartOfARunIsAListOfTurns : Obligations.EveryFinitePartOfARunIsAListOfTurns := by
  intro states turns ts hr h
  have hend : { states ts.length with turns := [] } = states ts.length := by rw [← (isRun_inv hr ts.length).2]
  rw [run_firstTurns hr h (le_refl _), List.drop_length, hend]

end Sys2Proof.Machine

/-! SUPPORT. Proofs of the statements of `20_memory.md`: the next state there always is, the storage in form, and the bits of a
DECODE value as frame bits. -/

namespace Sys2Proof.Machine

/-! ## A step always comes (O51) -/

/-- Settles O51: `step_inv`, whose next state even meets the invariant again. -/
theorem blockCanAlwaysTakeItsNextStep : Obligations.BlockCanAlwaysTakeItsNextStep := by
  intro s h
  obtain ⟨t, ht, -⟩ := step_inv h
  exact ⟨t, ht⟩

/-! ## Storage in form (R50, R51; O52) -/

/-- A byte written in range keeps the ring buffer's storage in form (R100). -/
theorem storageForm_writeSlot {s : State} {a : Nat} (b : Byte) (ha : a < s.cfg.n) (h : s.storageForm) :
    (s.setSpace .rb (Memory.write s.slot a b)).storageForm := by
  obtain ⟨⟨wslot, wfbuf, wvframe⟩, hslot, hfbuf, hvframe⟩ := h
  exact ⟨⟨write_wf a b wslot, wfbuf, wvframe⟩, write_below ha hslot, hfbuf, hvframe⟩

/-- Of all a command can leave, only PUSH's stored byte writes a space, and that at an address the write checked. -/
theorem exec_storageForm {i : Instr} {s t : State} (h : s.storageForm) (ht : exec i s = .next t) : t.storageForm := by
  rcases exec_cases ht with ⟨p, st, v, rfl⟩ | rfl | ⟨b, -, hb, rfl⟩ | ⟨v, -, rfl⟩ | ⟨r, -, rfl⟩ | ⟨c, -, rfl⟩
  case inr.inr.inl => exact storageForm_writeSlot b hb h
  all_goals exact h

theorem issue_storageForm {p : Port} {w : Word} {s t : State} (h : s.storageForm) (ht : issue p w s = .next t) :
    t.storageForm := by
  rcases issue_cases p w s with ⟨c, -, he⟩ | ⟨i, -, he⟩ <;> rw [he] at ht
  · cases ht
    exact h
  · exact exec_storageForm h ht

theorem microStep_storageForm {s t : State} (h : s.storageForm) (ht : microStep s = .next t) : t.storageForm := by
  obtain ⟨-, -, -, -, -, -, -, -, -, -, -, -, -, hform⟩ := microStep_leaves ht
  exact hform h

/-- Every turn keeps storage in form: reset empties the spaces, the synchronizer's turns leave them. -/
theorem runTurn_storageForm {u : Turn} {s t : State} (h : s.storageForm) (ht : runTurn u s = .next t) :
    t.storageForm := by
  rcases runTurn_cases u s with ⟨p, w, -, -, he⟩ | ⟨w, -, -, he⟩ | ⟨-, -, he⟩ | ⟨-, -, -, he⟩ | ⟨-, -, -, he⟩ |
    ⟨-, he⟩ | he <;> rw [he] at ht
  · exact issue_storageForm h ht
  · exact microStep_storageForm (s := putBack u s) h ht
  · exact microStep_storageForm h ht
  · cases ht
    exact h
  · cases ht
    exact h
  · cases ht
    exact ⟨⟨rfl, rfl, rfl⟩, nofun, nofun, nofun⟩
  · cases ht
    exact h

/-- Settles O52: a step is a turn, or passes, and every turn keeps storage in form. -/
theorem everyStepKeepsStorageInForm : Obligations.EveryStepKeepsStorageInForm := by
  intro s t h ht
  rcases step_cases s with ⟨u, ts, -, he⟩ | ⟨-, -, he⟩ | ⟨-, u, -, he⟩ <;> rw [he] at ht
  · exact runTurn_storageForm (s := { s with turns := ts }) h ht
  · cases ht
    exact h
  · exact runTurn_storageForm (s := drawChoice s) h ht

/-! ## The bits of a DECODE value (R58, R141, R142; O38) -/

/-- Counted from bit 0 of byte `a`, frame bit `k` is bit `k mod 8` of the byte `k div 8` further on (R58). -/
theorem frameBit_of_byte (f : List Byte) (a k : Nat) :
    frameBit f (8 * a + k) = (windowByte f (a + k / 8)).getLsbD (k % 8) := by
  rw [frameBit, Nat.mul_add_div (by decide), Nat.mul_add_mod]

/-- Channel `ch` begins `bit_offset` bits into byte `byte_offset` (R141): at frame bit 8 + 11 ch. -/
theorem channel_start (ch : Nat) : 8 * byteOffset ch + bitOffset ch = 8 + 11 * ch := by
  unfold byteOffset bitOffset
  omega

/-- Three frame bytes in a little-endian window are 24 frame bits in a row (R52, R58). -/
theorem window24_frameBit (f : List Byte) (a : Nat) {k : Nat} (h : k < 24) :
    (window24 (windowByte f a) (windowByte f (a + 1)) (windowByte f (a + 2))).getLsbD k = frameBit f (8 * a + k) := by
  rw [window24_bit _ _ _ h, frameBit_of_byte]
  have hk : k < 8 ∧ k / 8 = 0 ∧ k % 8 = k ∨ ¬ k < 8 ∧ k < 16 ∧ k / 8 = 1 ∧ k % 8 = k - 8 ∨
      ¬ k < 8 ∧ ¬ k < 16 ∧ k / 8 = 2 ∧ k % 8 = k - 16 := by omega
  rcases hk with ⟨h8, hd, hm⟩ | ⟨h8, h16, hd, hm⟩ | ⟨h8, h16, hd, hm⟩
  · rw [if_pos h8, hd, hm, Nat.add_zero]
  · rw [if_neg h8, if_pos h16, hd, hm]
  · rw [if_neg h8, if_neg h16, hd, hm]

/-- Two frame bytes in a little-endian window are 16 frame bits in a row, and past them 0 (R52, R58, R149). -/
theorem window16_frameBit (f : List Byte) (a k : Nat) :
    (window16 (windowByte f a) (windowByte f (a + 1))).getLsbD k = (frameBit f (8 * a + k) && decide (k ≤ 15)) := by
  by_cases h : k ≤ 15
  · rw [window16_bit _ _ (by omega), frameBit_of_byte, decide_eq_true h, Bool.and_true]
    have hk : k < 8 ∧ k / 8 = 0 ∧ k % 8 = k ∨ ¬ k < 8 ∧ k / 8 = 1 ∧ k % 8 = k - 8 := by omega
    rcases hk with ⟨h8, hd, hm⟩ | ⟨h8, hd, hm⟩
    · rw [if_pos h8, hd, hm, Nat.add_zero]
    · rw [if_neg h8, hd, hm]
  · rw [decide_eq_false h, Bool.and_false, BitVec.getLsbD_of_ge _ _ (by omega)]

/-- Extract24's value is the eleven frame bits of its channel (R141). -/
theorem field24_frameBit (f : List Byte) (ch j : Nat) :
    (field24 ch (windowByte f (byteOffset ch)) (windowByte f (byteOffset ch + 1))
      (windowByte f (byteOffset ch + 2))).getLsbD j = (decide (j < 11) && frameBit f (8 + 11 * ch + j)) := by
  rw [field24_bit]
  by_cases hj : j < 11
  · have hlt : bitOffset ch + j < 24 := by unfold bitOffset; omega
    rw [window24_frameBit f _ hlt, ← Nat.add_assoc, channel_start]
  · rw [decide_eq_false hj, Bool.false_and, Bool.false_and]

/-- Extract16's value is the frame bits of its channel that lie in its two bytes (R142, R149). -/
theorem field16_frameBit (f : List Byte) (ch j : Nat) :
    (field16 ch (windowByte f (byteOffset ch)) (windowByte f (byteOffset ch + 1))).getLsbD j =
      (decide (j < 11) && frameBit f (8 + 11 * ch + j) && decide (11 * ch % 8 + j ≤ 15)) := by
  rw [field16_bit, window16_frameBit, ← Nat.add_assoc, channel_start, bitOffset, Bool.and_assoc]

/-- An OK answer of DECODE carries the extracted value; a FAULT answer is none. -/
theorem extract_of_okResponse {s t : State} {ch : Nat} {v : Word} (ht : exec (.decode ch) s = .next t)
    (hr : t.response = some { port := .C, status := .ok, value := v }) : extract ch s = .ok v := by
  obtain ⟨-, ⟨c, rfl⟩ | ⟨-, -, w, hw, rfl⟩⟩ := execDecode_next ht
  · cases hr
  · cases hr
    exact hw

/-- Settles O38: the value is extracted from the kept frame, by the window the configuration selects. -/
theorem decodeBitsAreFrameBits : Obligations.DecodeBitsAreFrameBits := by
  intro s t ch v h hv hch ht hr j
  have hval := (extract_of_frame (h.frameKept hv) hch).symm.trans (extract_of_okResponse ht hr)
  rcases hw : s.cfg.chWindow with _ | _ <;> rw [hw] at hval <;> cases hval
  · simp [field24_frameBit]
  · simp [field16_frameBit]

end Sys2Proof.Machine

/-! SUPPORT. Proofs of the statements of `30_encoding.md`: what a decode is by the format of the command its opcode names, program
lines and the words they stand for, and a run of synchronizer turns. -/

namespace Sys2Proof

/-! ## Formats (R72 to R76) -/

/-- The format of a command (R71). -/
def Instr.format : Instr → Format
  | .push _   => .p8
  | .pop      => .n
  | .len      => .n
  | .poll     => .n
  | .decode _ => .c5
  | .rdstat _ => .s4

/-- How many operands a format admits: each number below this one (R72 to R75), so only 0 for format N. -/
def Format.operands : Format → Nat
  | .p8 => 256
  | .n  => 1
  | .c5 => 32
  | .s4 => 16

/-- An operand field is the lowest of the 12 bits that follow the opcode. -/
theorem Format.operands_dvd (f : Format) : f.operands ∣ 4096 := by
  cases f <;> decide

theorem opcodeRow_op (i : Instr) : opcodeRow i.op = some (i.format, i.port) := by
  cases i <;> rfl

/-- A command is well formed when its format admits its operand (R85). -/
theorem wf_iff (i : Instr) : i.wf = true ↔ i.operand < i.format.operands := by
  cases i with
  | push b => exact iff_of_true rfl b.isLt
  | pop => decide
  | len => decide
  | poll => decide
  | decode ch => exact decide_eq_true_iff
  | rdstat sel => exact decide_eq_true_iff

/-- The reserved bits are 0 when what follows the opcode is an operand the format admits. -/
theorem reservedBits_eq_zero (f : Format) (w : Word) : reservedBits f w = 0 ↔ w.toNat % 4096 < f.operands := by
  rw [reservedBits_eq]
  cases f <;> simp only [Format.operands] <;> omega

/-- The command a word's opcode names is the one with that opcode and, for operand, the word's lowest bits (R76). -/
theorem operandForm_eq_some {w : Word} {i : Instr} :
    operandForm w = some i ↔ i.op = w.toNat / 4096 ∧ i.operand = w.toNat % i.format.operands := by
  constructor
  · intro h
    unfold operandForm at h
    rw [opcode_eq] at h
    split at h <;> cases h <;>
      simp_all [Instr.op, Instr.operand, Instr.format, Format.operands, BitVec.extractLsb'_toNat, Nat.mod_one]
  · rintro ⟨hop, hoperand⟩
    unfold operandForm
    rw [opcode_eq, ← hop]
    cases i with
    | push b => exact congrArg (some <| Instr.push ·) (BitVec.eq_of_toNat_eq hoperand.symm)
    | pop => rfl
    | len => rfl
    | poll => rfl
    | decode ch => exact congrArg (some <| Instr.decode ·) hoperand.symm
    | rdstat sel => exact congrArg (some <| Instr.rdstat ·) hoperand.symm

theorem opcodeRow_of_operandForm {w : Word} {i : Instr} (h : operandForm w = some i) :
    opcodeRow (opcode w) = some (i.format, i.port) := by
  rw [opcode_eq, ← (operandForm_eq_some.1 h).1, opcodeRow_op]

/-! ## The decode of a word by the command its opcode names (R83; O1, O2, O3, O4) -/

/-- R83 for an assigned opcode: the port is checked before the reserved bits. -/
theorem decodeAt_of_operandForm {w : Word} {i : Instr} (h : operandForm w = some i) (p : Port) :
    decodeAt p w =
      if p = i.port then if w.toNat % 4096 < i.format.operands then .ok i else .error .illegal
      else .error .wrongPort := by
  simp only [decodeAt, opcodeRow_of_operandForm h, h, ne_eq, ite_not, reservedBits_eq_zero]

theorem opcodeRow_unassigned {n : Nat} (h : n = 0 ∨ 7 ≤ n) : opcodeRow n = none := by
  rcases h with rfl | h
  · rfl
  · obtain ⟨m, rfl⟩ := Nat.exists_eq_add_of_le' h
    rfl

/-- R77: an unassigned opcode is illegal on either port. -/
theorem decodeAt_of_noRow {w : Word} (h : opcodeRow (opcode w) = none) (p : Port) : decodeAt p w = .error .illegal := by
  simp only [decodeAt, h]

/-- A well-formed command's word names that command, and its reserved bits are 0 (R76). -/
theorem operandForm_encode {i : Instr} (h : i.wf = true) :
    operandForm (encode i) = some i ∧ (encode i).toNat % 4096 < i.format.operands := by
  have hlt := (wf_iff i).1 h
  have hdvd := i.format.operands_dvd
  have hle := Nat.le_of_dvd (by decide) hdvd
  rw [operandForm_eq_some, Machine.encode_toNat h]
  refine ⟨⟨by omega, ?_⟩, by omega⟩
  rw [Nat.add_mod, Nat.mod_eq_zero_of_dvd (hdvd.mul_right _), Nat.zero_add, Nat.mod_mod, Nat.mod_eq_of_lt hlt]

/-- A well-formed command's word is that command on the port that admits it, and on the other it is on the wrong port (R79). -/
theorem decodeAt_encode {i : Instr} (h : i.wf = true) (p : Port) :
    decodeAt p (encode i) = if p = i.port then .ok i else .error .wrongPort := by
  obtain ⟨hform, hlt⟩ := operandForm_encode h
  rw [decodeAt_of_operandForm hform, if_pos hlt]

/-- The port the host places a word on admits the command its opcode names. -/
theorem admittingPort_of_operandForm {w : Word} {i : Instr} (h : operandForm w = some i) : admittingPort w = i.port := by
  simp only [admittingPort, opcodeRow_of_operandForm h]

/-- Settles O1: the command's word on each port, the host's decode being the one on the port that admits it. -/
theorem encodedCommandDecodesBack : Obligations.EncodedCommandDecodesBack := by
  intro i h
  refine ⟨?_, decodeAt_encode h⟩
  rw [decodeWord, decodeAt_encode h, if_pos (admittingPort_of_operandForm (operandForm_encode h).1)]

/-- Settles O2: with the reserved bits 0, the opcode and the operand are all of the word's bits. -/
theorem decodedWordIsTheCommandsWord : Obligations.DecodedWordIsTheCommandsWord := by
  intro p w i h
  have hport := decodeAt_port h
  obtain ⟨f, -, hform, -⟩ := decodeAt_ok.1 h
  have hlt : w.toNat % 4096 < i.format.operands := by
    rw [decodeAt_of_operandForm hform, if_pos hport.symm] at h
    by_contra hn
    simp [if_neg hn] at h
  obtain ⟨hop, hoperand⟩ := operandForm_eq_some.1 hform
  rw [← Nat.mod_mod_of_dvd _ i.format.operands_dvd, Nat.mod_eq_of_lt hlt] at hoperand
  have hwf := (wf_iff i).2 (hoperand ▸ hlt)
  refine ⟨BitVec.eq_of_toNat_eq ?_, hwf, hport⟩
  rw [Machine.encode_toNat hwf]
  omega

/-- On the port that admits its command a word decodes under any condition that tests its reserved bits. -/
theorem decodeAt_admitting {w : Word} {i : Instr} {cond : Prop} [Decidable cond] (hop : w.toNat / 4096 = i.op)
    (hoperand : i.operand = w.toNat % i.format.operands) (hcond : cond ↔ w.toNat % 4096 < i.format.operands) :
    decodeAt i.port w = if cond then .ok i else .error .illegal := by
  rw [decodeAt_of_operandForm (operandForm_eq_some.2 ⟨hop.symm, hoperand⟩), if_pos rfl]
  exact if_congr hcond.symm rfl rfl

/-- On the other port a word is on the wrong port, whatever its reserved bits (R79). -/
theorem decodeAt_wrongPort {w : Word} {i : Instr} {p : Port} (hop : w.toNat / 4096 = i.op)
    (hoperand : i.operand = w.toNat % i.format.operands) (hp : p ≠ i.port) : decodeAt p w = .error .wrongPort := by
  rw [decodeAt_of_operandForm (operandForm_eq_some.2 ⟨hop.symm, hoperand⟩), if_neg hp]

/-- A mask of the bits from bit `k` on leaves the word's number without its lowest `k` bits. -/
theorem and_highMask_toNat (w : Word) (k : Nat) : (w &&& BitVec.allOnes 16 <<< k).toNat = w.toNat / 2 ^ k * 2 ^ k := by
  have hmask : w &&& BitVec.allOnes 16 <<< k = w >>> k <<< k := by
    ext j hj
    by_cases hk : j < k
    · simp [hk]
    · simp [hk, Nat.add_sub_cancel' (Nat.not_lt.1 hk), BitVec.getLsbD_eq_getElem hj, -BitVec.reduceAllOnes]
  have hle := Nat.div_mul_le_self w.toNat (2 ^ k)
  rw [hmask, BitVec.toNat_shiftLeft, BitVec.toNat_ushiftRight, Nat.shiftLeft_eq, Nat.shiftRight_eq_div_pow,
    Nat.mod_eq_of_lt (by omega)]

/-- The mask of a format with `k` operand bits, matched against the opcode, tests the reserved bits (R72, R74, R75). -/
theorem highMask_eq_iff {w v : Word} {k op : Nat} (hk : k ≤ 12) (hop : w.toNat / 4096 = op) (hv : v.toNat = 4096 * op) :
    w &&& BitVec.allOnes 16 <<< k = v ↔ w.toNat % 4096 < 2 ^ k := by
  rw [← BitVec.toNat_inj, and_highMask_toNat, hv]
  have hlow : w.toNat % 4096 % 2 ^ k = w.toNat % 2 ^ k := Nat.mod_mod_of_dvd _ (Nat.pow_dvd_pow 2 hk)
  have hhigh := Nat.div_add_mod' w.toNat (2 ^ k)
  rw [← Nat.mod_eq_iff_lt (Nat.two_pow_pos k).ne', hlow]
  omega

/-- Format N admits one word for its opcode (R73). -/
theorem eq_iff_operand_zero {w v : Word} {op : Nat} (hop : w.toNat / 4096 = op) (hv : v.toNat = 4096 * op) :
    w = v ↔ w.toNat % 4096 < 1 := by
  rw [← BitVec.toNat_inj, hv]
  omega

/-- Settles O3: each opcode names its command, and the masks are the tests of the reserved bits. -/
theorem everyWordDecodesByTheOpcodeMap : Obligations.EveryWordDecodesByTheOpcodeMap := by
  intro w
  refine ⟨fun h p => ?_, fun h => ⟨?_, ?_⟩, fun h => ?_, fun h => ?_, fun h => ?_, fun h => ?_, fun h => ?_, fun h => ?_⟩
  · exact decodeAt_of_noRow (by rw [opcode_eq, opcodeRow_unassigned h]) p
  · exact decodeAt_wrongPort (i := .push (w.setWidth 8)) h (BitVec.toNat_setWidth 8 w) nofun
  · exact decodeAt_admitting (i := .push (w.setWidth 8)) h (BitVec.toNat_setWidth 8 w)
      (highMask_eq_iff (k := 8) (by decide) h (by decide))
  · obtain h | h | h | h | h : w.toNat / 4096 = 2 ∨ w.toNat / 4096 = 3 ∨ w.toNat / 4096 = 4 ∨ w.toNat / 4096 = 5 ∨
        w.toNat / 4096 = 6 := by omega
    · exact decodeAt_wrongPort (i := .pop) h (Nat.mod_one _).symm nofun
    · exact decodeAt_wrongPort (i := .len) h (Nat.mod_one _).symm nofun
    · exact decodeAt_wrongPort (i := .poll) h (Nat.mod_one _).symm nofun
    · exact decodeAt_wrongPort (i := .decode (w.toNat % 32)) h rfl nofun
    · exact decodeAt_wrongPort (i := .rdstat (w.toNat % 16)) h rfl nofun
  · exact decodeAt_admitting (i := .pop) h (Nat.mod_one _).symm (eq_iff_operand_zero h (by decide))
  · exact decodeAt_admitting (i := .len) h (Nat.mod_one _).symm (eq_iff_operand_zero h (by decide))
  · exact decodeAt_admitting (i := .poll) h (Nat.mod_one _).symm (eq_iff_operand_zero h (by decide))
  · exact decodeAt_admitting (i := .decode _) h rfl (highMask_eq_iff (k := 5) (by decide) h (by decide))
  · exact decodeAt_admitting (i := .rdstat _) h rfl (highMask_eq_iff (k := 4) (by decide) h (by decide))

/-- Settles O4: each word written out is its command's word. -/
theorem writtenOutWordsDecode : Obligations.WrittenOutWordsDecode :=
  ⟨decodeAt_encode (i := .push 0x42) rfl .P, decodeAt_encode (i := .pop) rfl .C, decodeAt_encode (i := .len) rfl .C,
    decodeAt_encode (i := .poll) rfl .C, decodeAt_encode (i := .decode 21) rfl .C, decodeAt_encode (i := .rdstat 8) rfl .C⟩

end Sys2Proof

namespace Sys2Proof.Machine

/-! ## The word the host places (O6) -/

/-- The host's word is the low 16 bits of its number. -/
theorem word_of_toNat (w : Word) : BitVec.ofNat 16 (w.toNat % 2 ^ 16) = w := by
  rw [Nat.mod_eq_of_lt w.isLt, BitVec.ofNat_toNat, BitVec.setWidth_eq]

/-- Settles O6: the word presented is the next turn, and on C no poll is left to hold it back. -/
theorem placedWordIsTheNextCommand : Obligations.PlacedWordIsTheNextCommand := by
  intro s w i h
  refine ⟨by rw [decodeTableWord, if_pos (le_refl _), word_of_toNat, h], ?_⟩
  have hport := admittingPort_eq h
  have hd : decodeAt i.port w = .ok i := hport ▸ h
  rw [State.withFetchWord, word_of_toNat, hport]
  have hstep := stepRunsTheDecodedCommand (present i.port w s) i.port w i s.turns rfl
  rcases hp : i.port with _ | _ <;> rw [hp] at hd hstep
  · exact hstep (.inl rfl) hd
  · exact hstep (.inr rfl) hd

/-! ## Program lines (R85, R86; O7) -/

/-- A well-formed command's word as R85 writes it. -/
theorem encode_eq_ofNat {i : Instr} (h : i.wf = true) : encode i = BitVec.ofNat 16 (4096 * i.op + i.operand) := by
  rw [← encode_toNat h, BitVec.ofNat_toNat, BitVec.setWidth_eq]

/-- The PUSH words of a byte list (R72, R86). -/
theorem pushTurns_eq (bs : List Byte) :
    pushTurns bs = bs.map fun b => .command .P (0x1000#16 ||| b.setWidth 16) := by
  refine List.map_congr_left fun b _ => congrArg (Turn.command .P) ?_
  rw [encode, Instr.operand, BitVec.ofNat_toNat]
  rfl

theorem turns_of_wf (c : Config) {l : Line} (h : l.wf = true) : l.turns c = some (l.expand c) := if_pos h

theorem turns_of_not_wf (c : Config) {l : Line} (h : l.wf = false) : l.turns c = none := if_neg (by simp [h])

/-- A program is its first line and the rest, when both stand for turns. -/
theorem assemble_cons_eq_some {c : Config} {l : Line} {ls : List Line} {us : List Turn} :
    assemble c (l :: ls) = some us ↔ ∃ ts vs, l.turns c = some ts ∧ assemble c ls = some vs ∧ us = ts ++ vs := by
  rw [assemble]
  rcases l.turns c with _ | ts
  · simp
  · rcases assemble c ls with _ | vs
    · simp
    · simp [eq_comm]

theorem assemble_append {c : Config} {ls ls' : List Line} {ts ts' : List Turn} (h : assemble c ls = some ts)
    (h' : assemble c ls' = some ts') : assemble c (ls ++ ls') = some (ts ++ ts') := by
  induction ls generalizing ts with
  | nil =>
    cases h
    exact h'
  | cons l ls ih =>
    obtain ⟨us, vs, hl, hls, rfl⟩ := assemble_cons_eq_some.1 h
    exact assemble_cons_eq_some.2 ⟨us, _, hl, ih hls, List.append_assoc _ _ _⟩

/-- One assembler error leaves the whole program without turns. -/
theorem assemble_eq_none_of_mem {c : Config} {ls : List Line} {l : Line} (hl : l ∈ ls) (h : l.turns c = none) :
    assemble c ls = none := by
  induction hl with
  | head ls => rw [assemble, h]
  | tail k _ ih =>
    rw [assemble, ih]
    rcases k.turns c with _ | ts <;> rfl

theorem assemble_singleton (c : Config) (l : Line) : assemble c [l] = l.turns c := by
  rw [assemble, assemble]
  rcases l.turns c with _ | ts
  · rfl
  · exact congrArg some (List.append_nil ts)

/-- Settles O7: each line by whether the assembler accepts it, a program by its lines. -/
theorem programLinesStandForTheirWords : Obligations.ProgramLinesStandForTheirWords := by
  intro c
  refine ⟨fun i h => ?_, fun p i h => turns_of_not_wf c ?_, fun p w => rfl, fun bs h => ?_, fun bs h => turns_of_not_wf c ?_,
    fun bs h => ?_, rfl, rfl, rfl, assemble_singleton c, fun _ _ _ _ => assemble_append, fun _ _ => assemble_eq_none_of_mem,
    fun ls s hs => ⟨fun ts h => ?_, fun h => ?_⟩⟩
  · rw [turns_of_wf c (by simp [Line.wf, h]), Line.expand, encode_eq_ofNat h]
  · rcases h with h | h <;> simp [Line.wf, h]
  · rw [turns_of_wf c (by simp [Line.wf, frameLen, h]), Line.expand, pushTurns_eq]
  · simpa [Line.wf, frameLen] using h
  · rw [turns_of_wf c (by simp [Line.wf, h]), Line.expand, pushTurns_eq]
  · rw [loadProgram, hs, h]
  · rw [loadProgram, hs, h]

/-! ## A run of synchronizer turns (R103, R104; O24) -/

/-- A view after one synchronizer turn in DEFERRED mode: one position on, or, level with its index, where it was. -/
def carried (c : Config) (index view : Nat) : Nat := if view = index then view else nextIndex c view

/-- Carried often enough, a view is level with its index: each turn takes one position from what lags. -/
theorem iterate_carried {c : Config} {index view k : Nat} (hi : index < c.n) (hv : view < c.n)
    (hk : indexSub c index view ≤ k) : (carried c index)^[k] view = index := by
  induction k generalizing view with
  | zero => exact ((indexSub_eq_zero hi hv).1 (Nat.le_zero.1 hk)).symm
  | succ k ih =>
    rw [Function.iterate_succ_apply]
    by_cases he : view = index
    · subst he
      rw [carried, if_pos rfl]
      exact ih hv (by simp)
    · rw [carried, if_neg he]
      refine ih (nextIndex_lt c view) ?_
      have hnext := nextIndex_spec hv
      have hlag := indexSub_spec hi hv
      have hlag' := indexSub_spec hi (nextIndex_lt c view)
      omega

/-- The state `i` SYNC_H and `j` SYNC_T turns leave in DEFERRED mode, with the turns `ts` still to come. -/
def synced (i j : Nat) (ts : List Turn) (s : State) : State :=
  { s with
    headC := (carried s.cfg s.head)^[i] s.headC
    tailP := (carried s.cfg s.tail)^[j] s.tailP
    turns := ts
    response := none }

theorem step_syncH {s : State} {ts : List Turn} (hm : s.cfg.syncMode = .deferred) (hts : s.turns = .syncH :: ts) :
    step s = .next (synced 1 0 ts s) := by
  simp only [synced, Function.iterate_one, Function.iterate_zero_apply]
  by_cases he : s.headC = s.head
  · rw [carried, if_pos he]
    exact step_passes hts (by simp [Turn.enabled, State.syncHEnabled, he]) nofun
  · rw [carried, if_neg he, step_turn hts]
    exact if_pos ((enabled_iff { s with turns := ts } .syncH).2 ⟨hm, he⟩)

theorem step_syncT {s : State} {ts : List Turn} (hm : s.cfg.syncMode = .deferred) (hts : s.turns = .syncT :: ts) :
    step s = .next (synced 0 1 ts s) := by
  simp only [synced, Function.iterate_one, Function.iterate_zero_apply]
  by_cases he : s.tailP = s.tail
  · rw [carried, if_pos he]
    exact step_passes hts (by simp [Turn.enabled, State.syncTEnabled, he]) nofun
  · rw [carried, if_neg he, step_turn hts]
    exact if_pos ((enabled_iff { s with turns := ts } .syncT).2 ⟨hm, he⟩)

/-- Synchronizer turns in any order carry each view as often as it has turns, and change nothing else. -/
theorem run_syncTurns {us ts : List Turn} {s : State} (hus : ∀ u ∈ us, u = .syncH ∨ u = .syncT)
    (hm : s.cfg.syncMode = .deferred) (hts : s.turns = us ++ ts) (hr : us = [] → s.response = none) :
    Sys2Proof.core.run us.length s = .next (synced (us.count .syncH) (us.count .syncT) ts s) := by
  induction us generalizing s with
  | nil =>
    obtain rfl : s.turns = ts := hts
    rw [synced, ← hr rfl]
    rfl
  | cons u us ih =>
    obtain ⟨hu, hrest⟩ := List.forall_mem_cons.1 hus
    rcases hu with rfl | rfl
    · rw [List.length_cons, run_succ (step_syncH hm hts), List.count_cons_self, List.count_cons_of_ne (by decide)]
      exact ih (s := synced 1 0 (us ++ ts) s) hrest hm rfl fun _ => rfl
    · rw [List.length_cons, run_succ (step_syncT hm hts), List.count_cons_self, List.count_cons_of_ne (by decide)]
      exact ih (s := synced 0 1 (us ++ ts) s) hrest hm rfl fun _ => rfl

/-- The turns of a SYNC line: N - 1 of each kind. -/
theorem syncTurns_counts (c : Config) :
    (∀ u ∈ syncTurns c, u = .syncH ∨ u = .syncT) ∧ (syncTurns c).length = 2 * (c.n - 1) ∧
      (syncTurns c).count .syncH = c.n - 1 ∧ (syncTurns c).count .syncT = c.n - 1 := by
  refine ⟨fun u hu => ?_, ?_, ?_, ?_⟩
  · exact (List.mem_append.1 hu).imp List.eq_of_mem_replicate List.eq_of_mem_replicate
  · simp [syncTurns, Nat.two_mul]
  · simp [syncTurns, List.count_replicate]
  · simp [syncTurns, List.count_replicate]

/-- Settles O24: N - 1 turns each way are as many as a view can lag. -/
theorem syncLineLevelsTheViews : Obligations.SyncLineLevelsTheViews := by
  intro s h hm hts
  obtain ⟨hcfg, ⟨hhead, htail, hheadC, htailP⟩, -⟩ := h
  obtain ⟨hsync, hlength, hcountH, hcountT⟩ := syncTurns_counts s.cfg
  have hturns : s.turns = syncTurns s.cfg ++ [] := by rw [List.append_nil, ← Option.some.inj hts]; rfl
  have hne : syncTurns s.cfg ≠ [] := fun he => by
    have := two_le_n hcfg
    rw [he, List.length_nil] at hlength
    omega
  have hrun := run_syncTurns hsync hm hturns fun he => absurd he hne
  have hlagH : indexSub s.cfg s.head s.headC ≤ s.cfg.n - 1 := Nat.le_sub_one_of_lt (lagH_lt s)
  have hlagT : indexSub s.cfg s.tail s.tailP ≤ s.cfg.n - 1 := Nat.le_sub_one_of_lt (lagT_lt s)
  rwa [hlength, hcountH, hcountT, synced, iterate_carried hhead hheadC hlagH, iterate_carried htail htailP hlagT] at hrun

end Sys2Proof.Machine

/-! SUPPORT. Proofs of the statements of `40_ring_buffer.md`: each ring-buffer command by its cases, the bytes held as a queue, the
block's own work, and an IMMEDIATE step as a DEFERRED one with a synchronizer step behind it. -/

namespace Sys2Proof.Machine

/-! ## PUSH, POP, LEN and the synchronizer turns by their cases (R100 to R104; O13, O15, O17, O19) -/

theorem execPush_full {s : State} (b : Byte) (hr : nextIndex s.cfg s.head = s.tailP) :
    execPush b s = .next (respond .P .full 0 (countOverflow s)) := if_pos hr

theorem execPush_room {s : State} (b : Byte) (hr : nextIndex s.cfg s.head ≠ s.tailP) (hlt : s.head < s.cfg.n) :
    execPush b s = .next (respond .P .ok 0 (advanceHead (s.setSpace .rb (Memory.write s.slot s.head b)))) := by
  rw [execPush, if_neg hr, memWrite_eq (sp := .rb) b hlt]
  rfl

theorem execPop_empty {s : State} (hp : s.pollRem = 0) (hr : s.headC = s.tail) :
    execPop s = .next (respond .C .empty 0 s) := (whenNotPolling_idle _ hp).trans (if_pos hr)

theorem execPop_byte {s : State} (hp : s.pollRem = 0) (hr : s.headC ≠ s.tail) (hlt : s.tail < s.cfg.n) :
    execPop s = .next (respond .C .ok ((s.cell .rb s.tail).setWidth 16) (advanceTail s)) := by
  rw [execPop, whenNotPolling_idle _ hp, if_neg hr, takeByte_ok.2 ⟨hlt, rfl, rfl⟩]

/-- A distance added back gives the index it was taken to (R7). -/
theorem indexSub_add_mod (c : Config) (a b : Nat) : (indexSub c a b + b) % c.n = a % c.n := by
  have hlt := Nat.mod_lt b (n_pos c)
  have hdiv := Nat.mod_add_div b c.n
  rw [indexSub, Nat.mod_add_mod, show a + (c.n - b % c.n) + b = a + c.n * (b / c.n + 1) by rw [Nat.mul_succ]; omega,
    Nat.add_mul_mod_self_left]

/-- Settles O13: the byte stored is read back at `head`, and a write leaves every other address. -/
theorem pushStoresItsByteOrCountsAnOverflow : Obligations.PushStoresItsByteOrCountsAnOverflow := by
  intro s b hlt
  refine ⟨fun hr => ⟨_, execPush_room b hr hlt, rfl, rfl, rfl, ?_, fun a ha => ?_, rfl⟩, execPush_full b⟩
  · exact read_write_same _ _ _
  · exact read_write_other _ _ ha

/-- Settles O15: POP in its two cases, the byte being the one the slot at `tail` holds. -/
theorem popTakesTheByteAtTailOrIsEmpty : Obligations.PopTakesTheByteAtTailOrIsEmpty := by
  intro s hp
  exact ⟨execPop_empty hp, fun hr hlt => ⟨execPop_byte hp hr hlt, fun b hb => cell_of_byteAt hb⟩⟩

/-- Settles O17: LEN answers the distance from `tail` to `head_c`. -/
theorem lenAnswersTheVisibleCount : Obligations.LenAnswersTheVisibleCount := by
  intro s hp
  exact ⟨s.visible, visible_lt s, indexSub_add_mod s.cfg s.headC s.tail, whenNotPolling_idle _ hp⟩

/-- Settles O19: an enabled synchronizer turn moves its view, any other passes. -/
theorem syncMovesItsViewOnePosition : Obligations.SyncMovesItsViewOnePosition := by
  intro s ts
  refine ⟨fun hts => ?_, fun hts => ?_⟩
  · by_cases hon : s.cfg.syncMode = .deferred ∧ s.headC ≠ s.head
    · rw [if_pos hon, step_turn hts]
      exact if_pos ((enabled_iff { s with turns := ts } .syncH).2 hon)
    · rw [if_neg hon]
      exact step_passes hts (Bool.eq_false_iff.2 fun he => hon ((enabled_iff s .syncH).1 he)) nofun
  · by_cases hon : s.cfg.syncMode = .deferred ∧ s.tailP ≠ s.tail
    · rw [if_pos hon, step_turn hts]
      exact if_pos ((enabled_iff { s with turns := ts } .syncT).2 hon)
    · rw [if_neg hon]
      exact step_passes hts (Bool.eq_false_iff.2 fun he => hon ((enabled_iff s .syncT).1 he)) nofun

/-! ## The invariant (O50) -/

/-- Settles O50: a step from a state of the invariant has one next state, and `step_inv` says it meets the invariant. -/
theorem everyStepKeepsTheInvariant : Obligations.EveryStepKeepsTheInvariant := by
  intro s t h ht
  obtain ⟨t', ht', hinv⟩ := step_inv h
  cases ht.symm.trans ht'
  exact hinv

/-! ## The bytes held, as a queue (R107; O16, O20, O21) -/

theorem held_congr {s t : State} (hcfg : t.cfg = s.cfg) (hslot : t.slot = s.slot) (hhead : t.head = s.head)
    (htail : t.tail = s.tail) : t.held = s.held := by
  simp only [State.held, State.occupancy, State.byteAt, space_rb, hcfg, hslot, hhead, htail]

/-- There are as many bytes held as the occupancy says (R26). -/
theorem held_length (s : State) : s.held.length = s.occupancy := by
  rw [State.held, List.length_map, List.length_range]

theorem held_resetStep (s : State) : (resetStep s).held = [] :=
  List.eq_nil_of_length_eq_zero ((held_length _).trans (indexSub_self s.cfg 0))

/-- A PUSH puts its byte behind those held exactly when it answers OK (R107). -/
theorem execPush_held {b : Byte} {s t : State} (h : s.Inv) (ht : execPush b s = .next t) :
    t.held = if t.response = some { port := .P, status := .ok, value := 0 } then s.held ++ [some b] else s.held := by
  obtain ⟨hcfg, hindex, hbound, hview, -⟩ := h
  rcases execPush_next ht with ⟨-, rfl⟩ | ⟨hr, -, rfl⟩
  · rw [if_neg (by simp)]
    rfl
  · rw [if_pos (respond_response _ _ _ _)]
    exact held_push hindex hbound hview hr (two_le_n hcfg)

/-- A step from `s` to `t` takes byte `b`, the oldest held (R107). -/
def takesByte (b : Byte) (s t : State) : Prop :=
  s.byteAt .rb s.tail = some b ∧ s.held = some b :: t.held ∧ t.tail = nextIndex s.cfg s.tail

/-- POP with a visible byte takes the oldest byte held, and answers it; otherwise it leaves the queue. -/
theorem execPop_held {s t : State} (h : s.Inv) (ht : execPop s = .next t) :
    (s.headC = s.tail ∧ t.held = s.held ∧ t.tail = s.tail) ∨
      (s.headC ≠ s.tail ∧ ∃ b, takesByte b s t ∧
        t.response = some { port := .C, status := .ok, value := b.setWidth 16 }) := by
  obtain ⟨-, hindex, hbound, hview, -, -, hwritten, -⟩ := h
  obtain ⟨-, ⟨hr, rfl⟩ | ⟨hr, -, rfl⟩⟩ := execPop_next ht
  · exact .inl ⟨hr, rfl, rfl⟩
  · obtain ⟨b, hb⟩ := taken_written hindex hbound hview hwritten hr
    refine .inr ⟨hr, b, ⟨hb, ?_, rfl⟩, ?_⟩
    · rw [held_take hindex hbound hview hr, hb]
      rfl
    · rw [respond_response, cell_of_byteAt hb]

theorem microStep_takesByte {s t : State} (h : s.Inv) (hp : s.pollRem ≠ 0) (ht : microStep s = .next t) :
    ∃ b, takesByte b s t := by
  obtain ⟨-, -, -, -, htail, -⟩ := microStep_leaves ht
  obtain ⟨b, hb, hheld⟩ := microStep_held h hp ht
  exact ⟨b, hb, hheld, htail⟩

/-- The word of a well-formed command runs it on the port that admits it. -/
theorem issue_encode {i : Instr} (h : i.wf = true) (s : State) : issue i.port (encode i) s = exec i s := by
  simp only [issue, decodeAt_encode h, if_pos]

/-- A word on P that is no PUSH is refused: every other opcode is unassigned or the consumer's (R79). -/
theorem decodeAt_P_refuses {w : Word} (hw : ∀ b, w ≠ encode (.push b)) : ∃ c, decodeAt .P w = .error c := by
  rcases hd : decodeAt .P w with c | i
  · exact ⟨c, rfl⟩
  · obtain ⟨hword, -, hport⟩ := decodedWordIsTheCommandsWord .P w i hd
    cases i with
    | push b => exact absurd hword.symm (hw b)
    | pop => cases hport
    | len => cases hport
    | poll => cases hport
    | decode ch => cases hport
    | rdstat sel => cases hport

theorem issueP_refused {w : Word} {s t : State} (hw : ∀ b, w ≠ encode (.push b)) (ht : issue .P w s = .next t) :
    ∃ c, t = raiseFault .P w c s := by
  obtain ⟨c, hc⟩ := decodeAt_P_refuses hw
  simp only [issue, hc] at ht
  cases ht
  exact ⟨c, rfl⟩

/-- Of the consumer's words POP alone moves `tail` or its view, and POLL alone writes `poll_rem`. -/
theorem issueC_keeps {w : Word} {s t : State} (hw : w ≠ encode .pop) (ht : issue .C w s = .next t) :
    t.tail = s.tail ∧ t.tailP = s.tailP ∧ (w ≠ encode .poll → t.pollRem = s.pollRem) := by
  rcases issue_cases .C w s with ⟨c, -, he⟩ | ⟨i, hi, he⟩ <;> rw [he] at ht
  · cases ht
    exact ⟨rfl, rfl, fun _ => rfl⟩
  · obtain ⟨hword, -, hport⟩ := decodedWordIsTheCommandsWord .C w i hi
    cases i with
    | push b => cases hport
    | pop => exact absurd hword.symm hw
    | len =>
      obtain ⟨-, rfl⟩ := execLen_next ht
      exact ⟨rfl, rfl, fun _ => rfl⟩
    | poll => rcases execPoll_next ht with ⟨-, ⟨-, rfl⟩ | ⟨-, rfl⟩⟩ <;> exact ⟨rfl, rfl, fun hne => absurd hword.symm hne⟩
    | decode ch => obtain ⟨-, ⟨c, rfl⟩ | ⟨-, -, v, -, rfl⟩⟩ := execDecode_next ht <;> exact ⟨rfl, rfl, fun _ => rfl⟩
    | rdstat sel => obtain ⟨-, ⟨v, -, rfl⟩ | ⟨-, rfl⟩⟩ := execRdstat_next ht <;> exact ⟨rfl, rfl, fun _ => rfl⟩

theorem issueC_held {w : Word} {s t : State} (hw : w ≠ encode .pop) (ht : issue .C w s = .next t) : t.held = s.held := by
  obtain ⟨hslot, hhead, -⟩ := issueC_leaves ht
  exact held_congr (issue_keeps ht).1 hslot hhead (issueC_keeps hw ht).1

/-- A synchronizer turn leaves the queue. -/
theorem syncTurn_held {u : Turn} {s t : State} (hu : u = .syncH ∨ u = .syncT) (ht : runTurn u s = .next t) :
    t.held = s.held ∧ t.tail = s.tail := by
  rcases syncTurn_next hu ht with rfl | ⟨-, rfl | rfl⟩ <;> exact ⟨rfl, rfl⟩

/-- Settles O16: POP completes in the invariant, and `execPop_held` says what it takes. -/
theorem popTakesTheOldestByteHeld : Obligations.PopTakesTheOldestByteHeld := by
  intro s h hp
  obtain ⟨t, ht, -⟩ := execPop_inv h hp
  refine ⟨t, ht, ?_⟩
  rcases execPop_held h ht with ⟨hr, hheld, -⟩ | ⟨hr, b, ⟨-, hheld, -⟩, hresponse⟩
  · rwa [if_pos hr]
  · rw [if_neg hr]
    exact ⟨b, hheld, hresponse⟩

/-- Settles O20: each kind of turn by its own lemma on the bytes held. -/
theorem eachStepActsOnTheBytesHeldAsAQueue : Obligations.EachStepActsOnTheBytesHeldAsAQueue := by
  intro s t u ts h hts ht
  have h' := inv_turns ts h
  have hturn := (step_turn hts).symm.trans ht
  have hidle : ∀ w, u = .command .C w → s.pollRem = 0 → issue .C w { s with turns := ts } = .next t := by
    rintro w rfl hp
    rwa [runTurn_consumerWord_idle (s := { s with turns := ts }) w hp] at hturn
  have hpop : u = .command .C (encode .pop) → s.pollRem = 0 → execPop { s with turns := ts } = .next t :=
    fun hu hp => (issue_encode (i := .pop) rfl _).symm.trans (hidle _ hu hp)
  refine ⟨?_, fun hu hp hr => ?_, fun hu hp hr => ?_, fun hu hp => ?_, ?_, ?_, ?_, fun w hu hw hp => ?_⟩
  · rintro b rfl
    exact execPush_held (s := { s with turns := ts }) h' ((issue_encode (i := .push b) rfl _).symm.trans hturn)
  · rcases execPop_held h' (hpop hu hp) with ⟨he, -⟩ | ⟨-, b, ⟨-, hheld, -⟩, hresponse⟩
    · exact absurd he hr
    · exact ⟨b, hheld, hresponse⟩
  · rcases execPop_held h' (hpop hu hp) with ⟨-, hheld, -⟩ | ⟨hne, -⟩
    · exact hheld
    · exact absurd hr hne
  · obtain ⟨us, he⟩ := step_consumer_busy hts hu hp
    obtain ⟨b, -, hheld, -⟩ := microStep_takesByte (inv_turns us h) hp (he.symm.trans ht)
    exact ⟨b, hheld⟩
  · rintro rfl
    cases hturn
    exact held_resetStep _
  · rintro (rfl | rfl | ⟨rfl, hp⟩)
    · exact (syncTurn_held (.inl rfl) hturn).1
    · exact (syncTurn_held (.inr rfl) hturn).1
    · rw [step_passes hts (Bool.eq_false_iff.2 fun he => (enabled_iff s .microStep).1 he hp) nofun] at ht
      cases ht
      rfl
  · rintro w rfl hw
    obtain ⟨c, rfl⟩ := issueP_refused hw hturn
    rfl
  · exact issueC_held (s := { s with turns := ts }) hw (hidle w hu hp)

/-- A turn that is no word on P and no reset takes the oldest byte held or leaves the queue. -/
theorem runTurn_queue {u : Turn} {s t : State} (h : s.Inv) (hP : ∀ w, u ≠ .command .P w) (hu : u ≠ .reset)
    (ht : runTurn u s = .next t) : (t.held = s.held ∧ t.tail = s.tail) ∨ ∃ b, takesByte b s t := by
  rcases runTurn_cases u s with ⟨p, w, rfl, hp, he⟩ | ⟨w, -, hp, he⟩ | ⟨-, hp, he⟩ | ⟨rfl, -⟩ | ⟨rfl, -⟩ | ⟨rfl, -⟩ | he
  · rw [he] at ht
    cases p with
    | P => exact absurd rfl (hP w)
    | C =>
      by_cases hw : w = encode .pop
      · subst hw
        rw [show issue .C (encode .pop) s = execPop s from issue_encode (i := .pop) rfl s] at ht
        rcases execPop_held h ht with ⟨-, hkeep⟩ | ⟨-, b, htake, -⟩
        · exact .inl hkeep
        · exact .inr ⟨b, htake⟩
      · exact .inl ⟨issueC_held hw ht, (issueC_keeps hw ht).1⟩
  · exact .inr (microStep_takesByte (s := putBack u s) (inv_putBack u h) hp (he.symm.trans ht))
  · exact .inr (microStep_takesByte h hp (he.symm.trans ht))
  · exact .inl (syncTurn_held (.inl rfl) ht)
  · exact .inl (syncTurn_held (.inr rfl) ht)
  · exact absurd rfl hu
  · cases he.symm.trans ht
    exact .inl ⟨rfl, rfl⟩

theorem readByte_of_tail_eq {s t : State} (ht : t.tail = s.tail) : readByte s t = none := if_pos ht

/-- A step that takes a byte is seen to read it: with two slots or more the next index is another one. -/
theorem readByte_of_takesByte {b : Byte} {s t : State} (h : s.Inv) (ht : takesByte b s t) : readByte s t = some b := by
  obtain ⟨hcfg, ⟨-, hlt, -⟩, -⟩ := h
  obtain ⟨hb, -, htail⟩ := ht
  have hn := two_le_n hcfg
  have hnext := nextIndex_spec hlt
  rw [readByte, if_neg (by omega), hb]

/-- The balance of one step (R107): what was held and the byte accepted are the byte read and what is held. -/
def balanced (s t : State) : Prop :=
  s.held ++ (acceptedByte s t).toList.map some = (readByte s t).toList.map some ++ t.held

theorem balanced_of_queue {s t : State} (h : s.Inv) (ha : acceptedByte s t = none)
    (ht : (t.held = s.held ∧ t.tail = s.tail) ∨ ∃ b, takesByte b s t) : balanced s t := by
  rw [balanced, ha]
  rcases ht with ⟨hheld, htail⟩ | ⟨b, htake⟩
  · rw [readByte_of_tail_eq htail, hheld]
    exact List.append_nil _
  · have ⟨_, hheld, _⟩ := htake
    rw [readByte_of_takesByte h htake, hheld]
    exact List.append_nil _

theorem acceptedByte_refused {s t : State} {w : Word} {ts : List Turn} {c : Cause} (hts : s.turns = .command .P w :: ts)
    (hc : decodeAt .P w = .error c) : acceptedByte s t = none := by
  simp only [acceptedByte, hts, hc]

theorem acceptedByte_push {s t : State} {b : Byte} {ts : List Turn} (hts : s.turns = .command .P (encode (.push b)) :: ts) :
    acceptedByte s t = if t.response = some { port := .P, status := .ok, value := 0 } then some b else none := by
  simp only [acceptedByte, hts, decodeAt_encode (i := .push b) rfl .P, Instr.port, if_pos]

/-- A word on P is balanced: a PUSH answered OK is the byte accepted, and any other word leaves the queue. -/
theorem balanced_wordP {s t : State} {w : Word} {ts : List Turn} (h : s.Inv) (hts : s.turns = .command .P w :: ts)
    (ht : step s = .next t) : balanced s t := by
  have hturn : issue .P w { s with turns := ts } = .next t := (step_turn hts).symm.trans ht
  by_cases hw : ∀ b, w ≠ encode (.push b)
  · obtain ⟨c, hc⟩ := decodeAt_P_refuses hw
    obtain ⟨c', rfl⟩ := issueP_refused hw hturn
    exact balanced_of_queue h (acceptedByte_refused hts hc) (.inl ⟨rfl, rfl⟩)
  · obtain ⟨b, rfl⟩ := not_forall_not.1 hw
    have hheld := execPush_held (s := { s with turns := ts }) (inv_turns ts h)
      ((issue_encode (i := .push b) rfl _).symm.trans hturn)
    have htail : t.tail = s.tail := (issueP_leaves hturn).1
    rw [balanced, acceptedByte_push hts, readByte_of_tail_eq htail, hheld]
    by_cases hok : t.response = some { port := .P, status := .ok, value := 0 }
    · rw [if_pos hok, if_pos hok]
      rfl
    · rw [if_neg hok, if_neg hok]
      exact List.append_nil _

/-- Every step but a reset is balanced. -/
theorem step_balanced {s t : State} (h : s.Inv) (hne : Turn.reset ∉ s.turns) (ht : step s = .next t) : balanced s t := by
  rcases step_cases s with ⟨u, ts, hts, he⟩ | ⟨hts, -, he⟩ | ⟨hts, u, hu, he⟩
  · by_cases hP : ∀ w, u ≠ .command .P w
    · have hu : u ≠ .reset := fun hu => hne (by rw [hts, hu]; exact List.mem_cons_self)
      have hnone : acceptedByte s t = none := by
        rcases u with ⟨_ | _, w⟩ | _ | _ | _ | _
        · exact absurd rfl (hP w)
        all_goals simp only [acceptedByte, hts]
      exact balanced_of_queue h hnone (runTurn_queue (s := { s with turns := ts }) (inv_turns ts h) hP hu (he.symm.trans ht))
    · obtain ⟨w, rfl⟩ := not_forall_not.1 hP
      exact balanced_wordP h hts ht
  · cases he.symm.trans ht
    exact balanced_of_queue h (by simp only [acceptedByte, hts]) (.inl ⟨rfl, rfl⟩)
  · have hP : ∀ w, u ≠ .command .P w := by
      rcases mem_ownTurns hu with ⟨rfl, -⟩ | ⟨rfl, -⟩ | ⟨rfl, -⟩ <;> nofun
    exact balanced_of_queue h (by simp only [acceptedByte, hts])
      (runTurn_queue (s := drawChoice s) (inv_drawChoice h) hP (ne_reset_of_mem_ownTurns hu) (he.symm.trans ht))

/-- A turn leaves the turns to come, unless it is a word on C that waits, which is put back. -/
theorem runTurn_turns {u : Turn} {s t : State} (h : s.Inv) (ht : runTurn u s = .next t) :
    t.turns = s.turns ∨ (∃ w, u = .command .C w) ∧ s.pollRem ≠ 0 ∧ t.turns = u :: s.turns := by
  rcases he : Turn.enabled s u with _ | _
  · by_cases hu : ∀ w, u ≠ .command .C w
    · cases (runTurn_passes he hu).symm.trans ht
      exact .inl rfl
    · obtain ⟨w, rfl⟩ := not_forall_not.1 hu
      have hp : s.pollRem ≠ 0 := fun h0 => by simp [(enabled_iff s (.command .C w)).2 h0] at he
      rw [runTurn_consumerWord_busy w hp] at ht
      obtain ⟨-, -, -, -, -, -, -, -, -, -, hturns, -⟩ := microStep_leaves ht
      exact .inr ⟨⟨w, rfl⟩, hp, hturns⟩
  · exact .inl (runTurn_leaves h he ht).1

/-- No step puts a turn on the list that was not on it. -/
theorem step_turns_subset {s t : State} (h : s.Inv) (ht : step s = .next t) : t.turns ⊆ s.turns := by
  rcases step_cases s with ⟨u, ts, hts, he⟩ | ⟨-, -, he⟩ | ⟨-, u, hu, he⟩
  · rw [hts]
    rcases runTurn_turns (inv_turns ts h) (he.symm.trans ht) with h1 | ⟨-, -, h1⟩ <;> rw [h1]
    · exact List.subset_cons_self u ts
    · exact List.Subset.refl _
  · cases he.symm.trans ht
    exact List.Subset.refl _
  · rw [(runTurn_leaves (inv_drawChoice h) (List.mem_filter.1 hu).2 (he.symm.trans ht)).1]
    exact List.Subset.refl _

/-- Settles O21, by induction on the number of steps: every step is balanced, and the balances add up. -/
theorem readsFollowAcceptedPushesInOrder : Obligations.ReadsFollowAcceptedPushesInOrder := by
  intro k
  induction k with
  | zero =>
    rintro s t accepted read - - htraffic
    cases htraffic
    exact List.append_nil _
  | succ k ih =>
    intro s t accepted read h hne htraffic
    obtain ⟨u, hu, hinv⟩ := step_inv h
    rw [traffic, hu] at htraffic
    rcases hrest : traffic k u with _ | ⟨t', accepted', read'⟩ <;> simp only [hrest] at htraffic
    · cases htraffic
    · cases htraffic
      have hfirst : s.held ++ (acceptedByte s u).toList.map some = (readByte s u).toList.map some ++ u.held :=
        step_balanced h hne hu
      have hlater := ih u t accepted' read' hinv (fun hm => hne (step_turns_subset h hu hm)) hrest
      rw [List.map_append, List.map_append, ← List.append_assoc, hfirst, List.append_assoc, hlater, List.append_assoc]

/-! ## What the two ends of the buffer are told: FULL and LEN (R106, R110, R185; O14, O18) -/

/-- Settles O14: the FULL test is the producer's view at its greatest value (`full_iff`). -/
theorem pushIsFullExactlyAtTheProducersCap : Obligations.PushIsFullExactlyAtTheProducersCap := by
  intro s b h
  obtain ⟨hcfg, hindex, hbound, -⟩ := h
  have hfull := full_iff hindex (two_le_n hcfg)
  refine ⟨producerView_eq hindex hbound, Nat.le_sub_one_of_lt (producerView_lt s), ?_⟩
  by_cases hr : nextIndex s.cfg s.head = s.tailP
  · rw [if_pos (hfull.1 hr)]
    exact ⟨_, execPush_full b hr, rfl⟩
  · rw [if_neg fun hv => hr (hfull.2 hv)]
    exact ⟨_, execPush_room b hr hindex.1, rfl⟩

theorem State.Inv.indexForm {s : State} (h : s.Inv) : s.indexForm := by
  obtain ⟨-, hindex, -⟩ := h
  exact hindex

theorem State.Inv.viewForm {s : State} (h : s.Inv) : s.viewForm := by
  obtain ⟨-, -, -, hview, -⟩ := h
  exact hview

/-- A view is level with its index when it is so in DEFERRED mode: in IMMEDIATE mode it always is (R27). -/
theorem headC_level {s : State} (h : s.viewForm) (hd : s.cfg.syncMode = .deferred → s.headC = s.head) : s.headC = s.head := by
  cases hm : s.cfg.syncMode with
  | immediate => exact (h hm).1
  | deferred => exact hd hm

theorem tailP_level {s : State} (h : s.viewForm) (hd : s.cfg.syncMode = .deferred → s.tailP = s.tail) : s.tailP = s.tail := by
  cases hm : s.cfg.syncMode with
  | immediate => exact (h hm).2
  | deferred => exact hd hm

/-- Settles O18: what is visible is the occupancy less the lag of `head_c`, which is 0 where SYNC_H is not enabled; and it fits
the 16 bits of the value. -/
theorem lenIsBoundedAndExactWithoutLag : Obligations.LenIsBoundedAndExactWithoutLag := by
  intro s h hp
  obtain ⟨hcfg, hindex, hbound, hview, -⟩ := h
  have hlt := visible_lt s
  have hn := n_le_word hcfg
  have hocc := occupancy_eq hindex hbound
  have hvalue : (BitVec.ofNat 16 s.visible).toNat = s.visible := by
    rw [BitVec.toNat_ofNat]
    exact Nat.mod_eq_of_lt (by omega)
  refine ⟨_, _, whenNotPolling_idle _ hp, rfl, by omega, by omega, fun hoff => ?_⟩
  have hlevel := headC_level hview fun hm => not_not.1 fun hne =>
    Bool.eq_false_iff.1 hoff ((enabled_iff s .syncH).2 ⟨hm, hne⟩)
  have hlag := (lagH_eq_zero hindex).2 hlevel.symm
  omega

/-! ## The boundary law (R108; O22) -/

/-- A state of the invariant of configuration `c` whose `tail` the producer sees, with the turns `ts` to come. -/
def tailSeen (c : Config) (ts : List Turn) (s : State) : Prop :=
  s.Inv ∧ s.cfg = c ∧ s.tailP = s.tail ∧ s.turns = ts

/-- Where the producer sees `tail`, the FULL test says that N - 1 bytes are held. -/
theorem full_iff_of_tailSeen {c : Config} {ts : List Turn} {s : State} (h : tailSeen c ts s) :
    nextIndex s.cfg s.head = s.tailP ↔ s.held.length = c.n - 1 := by
  obtain ⟨⟨hcfg, hindex, hbound, -⟩, rfl, hlevel, -⟩ := h
  have hlag := (lagT_eq_zero hindex).2 hlevel.symm
  rw [full_iff hindex (two_le_n hcfg), producerView_eq hindex hbound, held_length, hlag, Nat.add_zero]

/-- The turn of a PUSH executes it, and keeps `tail` seen. -/
theorem step_push {c : Config} {b : Byte} {ts : List Turn} {s : State}
    (h : tailSeen c (.command .P (encode (.push b)) :: ts) s) :
    ∃ t, step s = .next t ∧ execPush b { s with turns := ts } = .next t ∧ tailSeen c ts t := by
  obtain ⟨hinv, rfl, hlevel, hts⟩ := h
  obtain ⟨t, ht, htinv⟩ := step_inv hinv
  have hissue : issue .P (encode (.push b)) { s with turns := ts } = .next t := (step_turn hts).symm.trans ht
  have hexec := (issue_encode (i := .push b) rfl _).symm.trans hissue
  obtain ⟨htail, htailP, -⟩ := issueP_leaves hissue
  have hturns := (runTurn_leaves (u := .command .P (encode (.push b))) (inv_turns ts hinv) rfl hissue).1
  exact ⟨t, ht, hexec, htinv, (issue_keeps hissue).1, by rw [htail, htailP]; exact hlevel, hturns⟩

theorem step_push_room {c : Config} {b : Byte} {ts : List Turn} {s : State}
    (h : tailSeen c (.command .P (encode (.push b)) :: ts) s) (hroom : s.held.length < c.n - 1) :
    ∃ t, step s = .next t ∧ tailSeen c ts t ∧ t.held = s.held ++ [some b] ∧ t.cntOvf = s.cntOvf ∧
      t.response = some { port := .P, status := .ok, value := 0 } := by
  obtain ⟨t, ht, hexec, hseen⟩ := step_push h
  have hheld := execPush_held (s := { s with turns := ts }) (inv_turns ts h.1) hexec
  rcases execPush_next hexec with ⟨hr, -⟩ | ⟨-, -, rfl⟩
  · have := (full_iff_of_tailSeen h).1 hr
    omega
  · rw [if_pos (respond_response _ _ _ _)] at hheld
    exact ⟨_, ht, hseen, hheld, rfl, rfl⟩

theorem step_push_full {c : Config} {b : Byte} {ts : List Turn} {s : State}
    (h : tailSeen c (.command .P (encode (.push b)) :: ts) s) (hfull : s.held.length = c.n - 1) :
    ∃ t, step s = .next t ∧ tailSeen c ts t ∧ t.held = s.held ∧ t.cntOvf = s.cntOvf + 1 ∧
      t.response = some { port := .P, status := .full, value := 0 } := by
  obtain ⟨t, ht, hexec, hseen⟩ := step_push h
  rcases execPush_next hexec with ⟨-, rfl⟩ | ⟨hr, -⟩
  · exact ⟨_, ht, hseen, rfl, rfl, rfl⟩
  · exact absurd ((full_iff_of_tailSeen h).2 hfull) hr

theorem pushTurns_append (bs bs' : List Byte) : pushTurns (bs ++ bs') = pushTurns bs ++ pushTurns bs' := List.map_append

/-- PUSHes in a row for which there is room are all answered OK and held in order. -/
theorem run_pushes {c : Config} {bs : List Byte} {ts : List Turn} {s : State} (h : tailSeen c (pushTurns bs ++ ts) s)
    (hroom : s.held.length + bs.length ≤ c.n - 1) :
    ∃ t, Sys2Proof.core.run bs.length s = .next t ∧ tailSeen c ts t ∧ t.held = s.held ++ bs.map some ∧
      t.cntOvf = s.cntOvf ∧
      t.response = if bs = [] then s.response else some { port := .P, status := .ok, value := 0 } := by
  induction bs generalizing s with
  | nil => exact ⟨s, rfl, h, (List.append_nil _).symm, rfl, rfl⟩
  | cons b bs ih =>
    rw [List.length_cons] at hroom
    obtain ⟨u, hu, hseen, hheld, hovf, hok⟩ := step_push_room h (by omega)
    have hlength : u.held.length = s.held.length + 1 := by rw [hheld, List.length_append, List.length_singleton]
    obtain ⟨t, ht, hseen', hheld', hovf', hresponse⟩ := ih hseen (by omega)
    refine ⟨t, (run_succ hu).trans ht, hseen', ?_, hovf'.trans hovf, ?_⟩
    · rw [hheld', hheld, List.append_assoc, List.map_cons, List.singleton_append]
    · rw [hresponse, hok, ite_self, if_neg (List.cons_ne_nil b bs)]

/-- A POP answered OK takes one byte, and one SYNC_T after it lets the producer see `tail` again, in either mode. -/
theorem step_pop_syncT {s : State} {ts : List Turn} (h : tailSeen s.cfg (.command .C (encode .pop) :: .syncT :: ts) s)
    (hp : s.pollRem = 0) (hr : s.headC ≠ s.tail) :
    ∃ t u, step s = .next t ∧ (∃ v, t.response = some { port := .C, status := .ok, value := v }) ∧
      step t = .next u ∧ tailSeen s.cfg ts u ∧ u.held.length + 1 = s.held.length := by
  obtain ⟨hinv, -, hlevel, hts⟩ := h
  obtain ⟨t, ht, htinv⟩ := step_inv hinv
  have hexec : execPop { s with turns := .syncT :: ts } = .next t :=
    (stepRunsTheDecodedCommand s .C _ .pop _ hts (.inr hp) (decodeAt_encode rfl .C)).symm.trans ht
  obtain ⟨he, -⟩ | ⟨-, b, ⟨-, hheld, htail⟩, hok⟩ := execPop_held (inv_turns _ hinv) hexec
  · exact absurd he hr
  have hleft : t.cfg = s.cfg ∧ t.turns = .syncT :: ts ∧ (s.cfg.syncMode = .deferred → t.tailP = s.tailP) := by
    rcases execPop_next hexec with ⟨-, ⟨-, rfl⟩ | ⟨-, -, rfl⟩⟩
    · exact ⟨rfl, rfl, fun _ => rfl⟩
    · exact ⟨rfl, rfl, fun hm => if_neg (by simp [hm])⟩
  obtain ⟨hcfg, hturns, htailP⟩ := hleft
  have hsync := (syncMovesItsViewOnePosition t ts).2 hturns
  have hseen : (if t.cfg.syncMode = .deferred ∧ t.tailP ≠ t.tail then (t.tailP + 1) % t.cfg.n else t.tailP) = t.tail := by
    split
    · next hon => rw [htailP (hcfg ▸ hon.1), hlevel, hcfg, htail]; rfl
    · next hoff => exact tailP_level htinv.viewForm fun hm => not_not.1 fun hne => hoff ⟨hm, hne⟩
  refine ⟨t, _, ht, ⟨_, hok⟩, hsync, ⟨everyStepKeepsTheInvariant _ _ htinv hsync, hcfg, hseen, rfl⟩, ?_⟩
  exact (congrArg List.length hheld).symm

/-- Settles O22: `run_pushes` up to N - 1 bytes held, where the next PUSH finds the buffer full; and a POP with its SYNC_T makes
room for one byte. -/
theorem capPushesFillTheBufferAndOnePopMakesRoomForOne : Obligations.CapPushesFillTheBufferAndOnePopMakesRoomForOne := by
  refine ⟨fun s bs b h hempty _ hlevel hlength hts => ⟨fun k hk => ?_, ?_⟩, fun s b b' ts h hp hfull hlevel hr hts => ?_⟩
  · have hnil : s.held = [] := List.eq_nil_of_length_eq_zero ((held_length s).trans hempty)
    have hsplit : s.turns = pushTurns (bs.take (k + 1)) ++ pushTurns (bs.drop (k + 1) ++ [b]) := by
      rw [hts, ← pushTurns_append, ← List.append_assoc, List.take_append_drop]
    have htake : (bs.take (k + 1)).length = k + 1 := List.length_take_of_le (by omega)
    obtain ⟨t, ht, -, hheld, -, hresponse⟩ := run_pushes (s := s) ⟨h, rfl, hlevel, hsplit⟩ (by rw [hnil, htake, List.length_nil]; omega)
    rw [htake] at ht
    rw [hnil, List.nil_append] at hheld
    rw [if_neg (List.ne_nil_of_length_eq_add_one htake)] at hresponse
    exact ⟨t, ht, hresponse, hheld⟩
  · have hnil : s.held = [] := List.eq_nil_of_length_eq_zero ((held_length s).trans hempty)
    have hn := two_le_n h.1
    obtain ⟨t, ht, hseen, hheld, hovf, -⟩ := run_pushes (s := s) (ts := pushTurns [b])
      ⟨h, rfl, hlevel, hts.trans (pushTurns_append bs [b])⟩ (by rw [hnil, hlength, List.length_nil]; omega)
    rw [hnil, List.nil_append] at hheld
    obtain ⟨u, hu, -, huheld, huovf, hfull⟩ := step_push_full hseen (by rw [hheld, List.length_map, hlength])
    have hrun : Sys2Proof.core.run (bs.length + 1) s = .next u := (run_add ht).trans (run_one hu)
    rw [hlength, Nat.sub_add_cancel (by omega)] at hrun
    exact ⟨u, hrun, hfull, huheld.trans hheld, by rw [huovf, hovf]⟩
  · have hn := two_le_n h.1
    have hlen := (held_length s).trans hfull
    obtain ⟨t1, t2, h1, hok, h2, hseen, hheld⟩ := step_pop_syncT ⟨h, rfl, hlevel, hts⟩ hp hr
    obtain ⟨t3, h3, hseen3, hheld3, -, hok3⟩ := step_push_room hseen (by omega)
    obtain ⟨t4, h4, ⟨-, -, -, hts4⟩, -, -, hfull4⟩ := step_push_full hseen3
      (by rw [hheld3, List.length_append, List.length_singleton]; omega)
    have hrun2 : Sys2Proof.core.run 2 s = .next t2 := (run_succ h1).trans (run_one h2)
    have hrun3 : Sys2Proof.core.run 3 s = .next t3 := (run_add hrun2).trans (run_one h3)
    exact ⟨t1, t3, t4, run_one h1, hok, hrun3, hok3, (run_add hrun3).trans (run_one h4), hfull4, hts4⟩

/-! ## The block's own work (R111, R138, R194, R195; O53, O58) -/

/-- One off a count that is not 0. -/
theorem toNat_sub_one {p : Word} (h : p ≠ 0) : (p - 1).toNat + 1 = p.toNat := by
  bv_omega

/-- All the block's work is done when no poll is in progress and both views are level. -/
theorem ownWork_eq_zero {s : State} (h : s.indexForm) :
    s.ownWork = 0 ↔ s.pollRem = 0 ∧ s.headC = s.head ∧ s.tailP = s.tail := by
  have hpoll : s.pollRem.toNat = 0 ↔ s.pollRem = 0 := by rw [← BitVec.toNat_inj]; rfl
  have hlagH : s.lagH = 0 ↔ s.headC = s.head := (lagH_eq_zero h).trans eq_comm
  have hlagT : s.lagT = 0 ↔ s.tailP = s.tail := (lagT_eq_zero h).trans eq_comm
  rw [← hpoll, ← hlagH, ← hlagT, State.ownWork]
  omega

/-- In the invariant the work is done exactly in the quiescent states. -/
theorem quiescent_iff_ownWork {s : State} (h : s.Inv) : s.quiescent ↔ s.ownWork = 0 := by
  rw [ownWork_eq_zero h.indexForm]
  refine and_congr_right fun _ => ⟨fun hd => ?_, fun hlevel _ => hlevel⟩
  exact ⟨headC_level h.viewForm fun hm => (hd hm).1, tailP_level h.viewForm fun hm => (hd hm).2⟩

theorem microStep_ownWork {s t : State} (h : s.Inv) (hp : s.pollRem ≠ 0) (ht : microStep s = .next t) :
    t.ownWork < s.ownWork := by
  have hr := h.headC_ne_tail hp
  obtain ⟨-, hindex, hbound, hview, -⟩ := h
  obtain ⟨-, -, hlagH, hlagT⟩ := take_distances hindex hbound hview hr
  obtain ⟨hcfg, -, hhead, hheadC, htail, htailP, hrem, -⟩ := microStep_leaves ht
  have hH : t.lagH = (advanceTail s).lagH := by simp [State.lagH, hcfg, hhead, hheadC]
  have hT : t.lagT = (advanceTail s).lagT := by simp [State.lagT, hcfg, htail, htailP]
  have hpred := toNat_sub_one hp
  rw [State.ownWork, State.ownWork, hH, hT, hrem, hlagH, hlagT]
  split <;> omega

/-- Each step of the block's own takes from the work, and from the bytes held only those its poll counts down. -/
theorem ownTurn_progress {u : Turn} {s t : State} (h : s.Inv) (hu : u ∈ s.ownTurns) (ht : runTurn u s = .next t) :
    t.ownWork < s.ownWork ∧ t.head = s.head ∧ t.held.drop t.pollRem.toNat = s.held.drop s.pollRem.toNat := by
  have he : Turn.enabled s u = true := (List.mem_filter.1 hu).2
  have hindex := h.indexForm
  rcases mem_ownTurns hu with ⟨rfl, -⟩ | ⟨rfl, -⟩ | ⟨rfl, -⟩
  · have hp : s.pollRem ≠ 0 := (enabled_iff s .microStep).1 he
    rw [runTurn_microStep_busy hp] at ht
    obtain ⟨-, -, hhead, -, -, -, hrem, -⟩ := microStep_leaves ht
    obtain ⟨b, -, hheld, -⟩ := microStep_takesByte h hp ht
    refine ⟨microStep_ownWork h hp ht, hhead, ?_⟩
    rw [hheld, ← toNat_sub_one hp, List.drop_succ_cons, hrem]
  · cases (if_pos he).symm.trans ht
    obtain ⟨-, -, hbound, -⟩ := h
    obtain ⟨hlagH, -, hlagT, -⟩ := syncH_distances hindex hbound ((enabled_iff s .syncH).1 he).2
    refine ⟨?_, rfl, rfl⟩
    rw [State.ownWork, State.ownWork, syncH_pollRem]
    omega
  · cases (if_pos he).symm.trans ht
    obtain ⟨hlagT, -, hlagH, -⟩ := syncT_distances hindex ((enabled_iff s .syncT).1 he).2
    refine ⟨?_, rfl, rfl⟩
    rw [State.ownWork, State.ownWork, syncT_pollRem]
    omega

/-- With no turn left and nothing of its own to do, the block keeps its state but for the response. -/
theorem run_quiescent {s : State} (hq : s.quiescent) (hts : s.turns = []) (m : Nat) :
    ∃ r, Sys2Proof.core.run m s = .next { s with response := r } := by
  induction m generalizing s with
  | zero => exact ⟨s.response, rfl⟩
  | succ m ih =>
    obtain ⟨-, -, -, hpass⟩ := turnWithNoEnabledStepPasses s []
    obtain ⟨r, hr⟩ := ih (s := { s with response := none }) hq hts
    exact ⟨r, (run_succ (hpass hts hq)).trans hr⟩

/-- Settles O53, by induction on the work left: the step is quiescent's or takes from it. -/
theorem silentBlockBecomesQuiescent : Obligations.SilentBlockBecomesQuiescent := by
  intro s h hts
  induction hn : s.ownWork using Nat.strong_induction_on generalizing s with
  | _ n ih =>
    rcases step_cases s with ⟨u, ts, hu, -⟩ | ⟨-, hown, -⟩ | ⟨-, u, hu, he⟩
    · simp [hts] at hu
    · have hq := quiescent_iff.2 hown
      refine ⟨0, s, Nat.zero_le _, rfl, hq, hts, rfl, ?_, run_quiescent hq hts⟩
      rw [hq.1]
      rfl
    · obtain ⟨t, ht, hinv⟩ := step_inv h
      have hturn := he.symm.trans ht
      have hturns := (runTurn_leaves (s := drawChoice s) h (List.mem_filter.1 hu).2 hturn).1
      obtain ⟨hless, hhead, hheld⟩ := ownTurn_progress (s := drawChoice s) h hu hturn
      obtain ⟨k, r, hk, hrun, hq, hrts, hrhead, hrheld, hrest⟩ := ih t.ownWork (hn ▸ hless) t hinv (hturns.trans hts) rfl
      exact ⟨k + 1, r, hn ▸ Nat.lt_of_le_of_lt hk hless, (run_succ ht).trans hrun, hq, hrts, hrhead.trans hhead,
        hrheld.trans hheld, hrest⟩

/-- Two states with the same elements the block's own steps wait for. -/
def sameWork (s t : State) : Prop :=
  t.cfg = s.cfg ∧ t.head = s.head ∧ t.tail = s.tail ∧ t.headC = s.headC ∧ t.tailP = s.tailP ∧ t.pollRem = s.pollRem

theorem ownWork_of_sameWork {s t : State} (h : sameWork s t) : t.ownWork = s.ownWork := by
  obtain ⟨hcfg, hhead, htail, hheadC, htailP, hrem⟩ := h
  simp only [State.ownWork, State.lagH, State.lagT, hcfg, hhead, htail, hheadC, htailP, hrem]

theorem ownTurns_of_sameWork {s t : State} (h : sameWork s t) : t.ownTurns = s.ownTurns := by
  obtain ⟨hcfg, hhead, htail, hheadC, htailP, hrem⟩ := h
  have hmicro : Turn.enabled t .microStep = Turn.enabled s .microStep := by simp [Turn.enabled, State.polling, hrem]
  have hsyncH : Turn.enabled t .syncH = Turn.enabled s .syncH := by
    simp [Turn.enabled, State.syncHEnabled, hcfg, hheadC, hhead]
  have hsyncT : Turn.enabled t .syncT = Turn.enabled s .syncT := by
    simp [Turn.enabled, State.syncTEnabled, hcfg, htailP, htail]
  simp only [State.ownTurns, ownSteps, List.filter_cons, List.filter_nil, hmicro, hsyncH, hsyncT]

/-- A turn that is no PUSH, no POP and no POLL (R111). -/
def Turn.quiet (u : Turn) : Prop :=
  (∀ b, u ≠ .command .P (encode (.push b))) ∧ u ≠ .command .C (encode .pop) ∧ u ≠ .command .C (encode .poll)

/-- Without PUSH, POP and POLL a word leaves the block's work as it is. -/
theorem issue_quiet {p : Port} {w : Word} {s t : State} (hq : Turn.quiet (.command p w)) (ht : issue p w s = .next t) :
    sameWork s t := by
  obtain ⟨hpush, hpop, hpoll⟩ := hq
  have hcfg := (issue_keeps ht).1
  cases p with
  | P =>
    obtain ⟨c, rfl⟩ := issueP_refused (fun b hb => hpush b (by rw [hb])) ht
    exact ⟨rfl, rfl, rfl, rfl, rfl, rfl⟩
  | C =>
    obtain ⟨-, hhead, -, hheadC, -⟩ := issueC_leaves ht
    obtain ⟨htail, htailP, hrem⟩ := issueC_keeps (fun hw => hpop (by rw [hw])) ht
    exact ⟨hcfg, hhead, htail, hheadC, htailP, hrem fun hw => hpoll (by rw [hw])⟩

theorem ownWork_resetStep (s : State) : (resetStep s).ownWork = 0 :=
  (ownWork_eq_zero (s := resetStep s) ⟨n_pos _, n_pos _, n_pos _, n_pos _⟩).2 ⟨rfl, rfl, rfl⟩

/-- A link that takes one of the block's own steps takes from its work. -/
theorem link_own {s t : State} {v : Turn} (h : s.Inv) (hv : v ∈ ownSteps) (hl : s.link (some v) t) :
    t.ownWork < s.ownWork := by
  obtain ⟨he, ht⟩ := link_some.1 hl
  exact (ownTurn_progress (s := { s with turns := [] }) (inv_turns [] h) (List.mem_filter.2 ⟨hv, he⟩) ht).1

/-- Without traffic a link of a run takes from the block's work, or resets it, or leaves it. -/
theorem link_quiet {s t : State} {u : Option Turn} (h : s.Inv) (hq : ∀ v, u = some v → v.quiet) (hl : s.link u t) :
    t.ownWork < s.ownWork ∨ t.ownWork = 0 ∨ sameWork s t := by
  rcases u with _ | v
  · rw [link_none.1 hl]
    exact .inr (.inr ⟨rfl, rfl, rfl, rfl, rfl, rfl⟩)
  · obtain ⟨he, ht⟩ := link_some.1 hl
    rcases v with ⟨p, w⟩ | _ | _ | _ | _
    · have hissue : issue p w { s with turns := [] } = .next t := by
        cases p with
        | P => exact ht
        | C =>
          have hp := (enabled_iff s (.command .C w)).1 he
          exact (runTurn_consumerWord_idle (s := { s with turns := [] }) w hp).symm.trans ht
      exact .inr (.inr (issue_quiet (s := { s with turns := [] }) (hq _ rfl) hissue))
    · exact .inl (link_own h (by decide) hl)
    · exact .inl (link_own h (by decide) hl)
    · exact .inl (link_own h (by decide) hl)
    · cases ht
      exact .inr (.inl (ownWork_resetStep _))

theorem quiet_of_quietFrom {turns : Nat → Option Turn} {k m : Nat} (hq : quietFrom turns k) (hm : k ≤ m) (v : Turn)
    (hv : turns m = some v) : v.quiet := by
  obtain ⟨hpush, hpop, hpoll⟩ := hq m hm
  exact ⟨fun b hb => hpush b (hv.trans (congrArg some hb)), fun hb => hpop (hv.trans (congrArg some hb)),
    fun hb => hpoll (hv.trans (congrArg some hb))⟩

section QuietRun

variable {states : Nat → State} {turns : Nat → Option Turn} {k m : Nat} (hr : isRun states turns) (hq : quietFrom turns k)
include hr hq

/-- Without traffic the block's work only ever falls. -/
theorem ownWork_antitone (hm : k ≤ m) {j : Nat} (hj : m ≤ j) : (states j).ownWork ≤ (states m).ownWork := by
  induction j, hj using Nat.le_induction with
  | base => exact le_refl _
  | succ j hj ih =>
    rcases link_quiet (isRun_inv hr j).1 (quiet_of_quietFrom hq (hm.trans hj)) (hr.2 j) with h | h | h
    · omega
    · omega
    · rwa [ownWork_of_sameWork h]

/-- While work is left a fair run without traffic comes to a state with less: were there none, the block's own steps enabled now
would stay enabled and never be taken. -/
theorem ownWork_falls (hf : weaklyFair states turns) (hm : k ≤ m) (hwork : (states m).ownWork ≠ 0) :
    ∃ j, m ≤ j ∧ (states j).ownWork < (states m).ownWork := by
  by_contra hnone
  have hstuck : ∀ j, m ≤ j → (states m).ownWork ≤ (states j).ownWork := fun j hj => not_lt.1 fun hlt => hnone ⟨j, hj, hlt⟩
  have hfall : ∀ j, m ≤ j → ¬ (states (j + 1)).ownWork < (states j).ownWork := fun j hj hlt => by
    have := ownWork_antitone hr hq hm hj
    have := hstuck (j + 1) (by omega)
    omega
  have hown : ∀ j, m ≤ j → (states j).ownTurns = (states m).ownTurns := fun j hj => by
    induction j, hj using Nat.le_induction with
    | base => rfl
    | succ j hj ih =>
      rcases link_quiet (isRun_inv hr j).1 (quiet_of_quietFrom hq (hm.trans hj)) (hr.2 j) with h | h | h
      · exact absurd h (hfall j hj)
      · have := hstuck (j + 1) (by omega)
        omega
      · rw [ownTurns_of_sameWork h, ih]
  have hbusy : (states m).ownTurns ≠ [] := fun hnil =>
    hwork ((quiescent_iff_ownWork (isRun_inv hr m).1).1 (quiescent_iff.2 hnil))
  obtain ⟨v, hv⟩ := List.exists_mem_of_ne_nil _ hbusy
  refine hf v (List.mem_filter.1 hv).1 ⟨m, fun j hj => ⟨?_, fun hturn => ?_⟩⟩
  · exact (List.mem_filter.1 (hown j hj ▸ hv)).2
  · have hl := hr.2 j
    rw [hturn] at hl
    exact hfall j hj (link_own (isRun_inv hr j).1 (List.mem_filter.1 hv).1 hl)

/-- A fair run without traffic comes to a state with all the work done. -/
theorem ownWork_ends (hf : weaklyFair states turns) (hm : k ≤ m) : ∃ j, m ≤ j ∧ (states j).ownWork = 0 := by
  induction hn : (states m).ownWork using Nat.strong_induction_on generalizing m with
  | _ n ih =>
    by_cases hwork : (states m).ownWork = 0
    · exact ⟨m, le_refl m, hwork⟩
    · obtain ⟨j, hj, hless⟩ := ownWork_falls hr hq hf hm hwork
      obtain ⟨i, hi, hdone⟩ := ih _ (hn ▸ hless) (hm.trans hj) rfl
      exact ⟨i, hj.trans hi, hdone⟩

end QuietRun

/-- Settles O58: once the work is done it stays done, which is what quiescent and level say. -/
theorem fairRunWithoutTrafficBecomesQuiescent : Obligations.FairRunWithoutTrafficBecomesQuiescent := by
  intro states turns k hr hf hq
  obtain ⟨m, hm, hdone⟩ := ownWork_ends hr hq hf (le_refl k)
  refine ⟨m, hm, fun j hj => ?_⟩
  have hinv := (isRun_inv hr j).1
  have hzero : (states j).ownWork = 0 := Nat.le_zero.1 (hdone ▸ ownWork_antitone hr hq hm hj)
  exact ⟨(quiescent_iff_ownWork hinv).2 hzero, ((ownWork_eq_zero hinv.indexForm).1 hzero).2⟩

/-! ## An IMMEDIATE step as a DEFERRED one and a synchronizer step (R105; O23) -/

/-- The state in DEFERRED mode, with another last response and other turns to come. -/
def mirror (r : Option Response) (ts : List Turn) (s : State) : State :=
  { s with cfg := { s.cfg with syncMode := .deferred }, response := r, turns := ts }

/-- State `t` with the views still where they stand in `s`. -/
def withViewsOf (s t : State) : State := { t with headC := s.headC, tailP := s.tailP }

/-- Both views equal their indices. -/
def level (s : State) : Prop := s.headC = s.head ∧ s.tailP = s.tail

theorem execDecode_mirror {ch : Nat} {s t : State} (r : Option Response) (ts : List Turn) (ht : execDecode ch s = .next t) :
    execDecode ch (mirror r ts s) = .next (mirror t.response ts t) := by
  have hp := (execDecode_next ht).1
  have hextract : extract ch (mirror r ts s) = extract ch s := rfl
  unfold execDecode at ht ⊢
  rw [whenNotPolling_idle _ hp] at ht
  refine (whenNotPolling_idle _ hp).trans ?_
  by_cases hc : ch > 15
  · rw [if_pos hc] at ht ⊢
    cases ht
    rfl
  · rw [if_neg hc] at ht ⊢
    by_cases hv : s.vvalid = false
    · rw [if_pos hv] at ht
      cases ht
      exact if_pos hv
    · rw [if_neg hv] at ht
      refine (if_neg hv).trans ?_
      rw [hextract]
      rcases hx : extract ch s with f | v <;> rw [hx] at ht <;> cases ht
      rfl

/-- Only the word of selector 8 tells the mode (R151, R153). -/
theorem statWord_mirror {sel : Nat} (r : Option Response) (ts : List Turn) (s : State) (h : sel ≠ 8) :
    statWord sel (mirror r ts s) = statWord sel s := by
  unfold statWord
  split
  case h_9 => exact absurd rfl h
  all_goals rfl

/-- RDSTAT answers a word in one mode exactly when it does in the other. -/
theorem execRdstat_mirror {sel : Nat} {s t : State} (r : Option Response) (ts : List Turn) (ht : execRdstat sel s = .next t) :
    ∃ r', execRdstat sel (mirror r ts s) = .next (mirror r' ts t) ∧ (sel ≠ 8 → r' = t.response) := by
  obtain ⟨hp, hword⟩ := execRdstat_next ht
  have hidle : ∀ x, whenNotPolling (mirror r ts s) x = x := fun x => whenNotPolling_idle x hp
  rw [execRdstat, hidle]
  by_cases h8 : sel = 8
  · subst h8
    obtain ⟨w, -, rfl⟩ | ⟨hn, -⟩ := hword
    · exact ⟨_, rfl, fun h => absurd rfl h⟩
    · cases hn
  · rw [statWord_mirror r ts s h8]
    obtain ⟨w, hw, rfl⟩ | ⟨hn, rfl⟩ := hword
    · rw [hw]
      exact ⟨_, rfl, fun _ => rfl⟩
    · rw [hn]
      exact ⟨_, rfl, fun _ => rfl⟩

/-- A command leaves in DEFERRED mode what it leaves in either mode, but for the views, which stay. -/
theorem exec_mirror {i : Instr} {s t : State} (r : Option Response) (ts : List Turn) (ht : exec i s = .next t) :
    ∃ r', exec i (mirror r ts s) = .next (withViewsOf s (mirror r' ts t)) ∧ (i ≠ .rdstat 8 → r' = t.response) := by
  cases i with
  | push b =>
    refine ⟨t.response, ?_, fun _ => rfl⟩
    rcases execPush_next ht with ⟨hr, rfl⟩ | ⟨hr, hlt, rfl⟩
    · exact execPush_full (s := mirror r ts s) b hr
    · exact execPush_room (s := mirror r ts s) b hr hlt
  | pop =>
    refine ⟨t.response, ?_, fun _ => rfl⟩
    obtain ⟨hp, ⟨hr, rfl⟩ | ⟨hr, hlt, rfl⟩⟩ := execPop_next ht
    · exact execPop_empty (s := mirror r ts s) hp hr
    · exact execPop_byte (s := mirror r ts s) hp hr hlt
  | len =>
    obtain ⟨hp, rfl⟩ := execLen_next ht
    refine ⟨_, ?_, fun _ => rfl⟩
    exact whenNotPolling_idle (s := mirror r ts s) _ hp
  | poll =>
    refine ⟨t.response, ?_, fun _ => rfl⟩
    obtain ⟨hp, ⟨hv, rfl⟩ | ⟨hv, rfl⟩⟩ := execPoll_next ht
    · exact (whenNotPolling_idle (s := mirror r ts s) _ hp).trans (if_pos hv)
    · exact (whenNotPolling_idle (s := mirror r ts s) _ hp).trans (if_neg hv)
  | decode ch =>
    have hviews : withViewsOf s (mirror t.response ts t) = mirror t.response ts t := by
      obtain ⟨-, ⟨c, rfl⟩ | ⟨-, -, v, -, rfl⟩⟩ := execDecode_next ht <;> rfl
    exact ⟨t.response, hviews ▸ execDecode_mirror r ts ht, fun _ => rfl⟩
  | rdstat sel =>
    have hviews : ∀ r', withViewsOf s (mirror r' ts t) = mirror r' ts t := by
      obtain ⟨-, ⟨w, -, rfl⟩ | ⟨-, rfl⟩⟩ := execRdstat_next ht <;> exact fun _ => rfl
    obtain ⟨r', he, hr'⟩ := execRdstat_mirror r ts ht
    exact ⟨r', hviews r' ▸ he, fun hne => hr' fun h8 => hne (h8 ▸ rfl)⟩

theorem issue_mirror {p : Port} {w : Word} {s t : State} (r : Option Response) (ts : List Turn) (ht : issue p w s = .next t) :
    ∃ r', issue p w (mirror r ts s) = .next (withViewsOf s (mirror r' ts t)) ∧
      (Turn.command p w ≠ .command .C (encode (.rdstat 8)) → r' = t.response) := by
  unfold issue at ht ⊢
  rcases hd : decodeAt p w with c | i <;> simp only [hd] at ht
  · cases ht
    exact ⟨_, rfl, fun _ => rfl⟩
  · obtain ⟨r', he, hr'⟩ := exec_mirror r ts ht
    refine ⟨r', he, fun hne => hr' ?_⟩
    rintro rfl
    obtain ⟨hword, -, hport⟩ := decodedWordIsTheCommandsWord p w _ hd
    exact hne (by rw [← hword, ← hport]; rfl)

/-- The micro-step too: the assembler reads neither the mode nor the views. -/
theorem microStep_mirror {s t : State} (r : Option Response) (ts : List Turn) (h : s.Inv) (ht : microStep s = .next t) :
    microStep (mirror r ts s) = .next (withViewsOf s (mirror t.response ts t)) := by
  obtain ⟨hlt, ev, u, ha, rfl⟩ := microStep_next ht
  have hsame : sameAssembler (advanceTail s) (advanceTail (mirror r ts s)) := ⟨rfl, rfl, rfl, rfl, rfl, rfl, rfl, rfl, rfl⟩
  obtain ⟨u', ha', hsame'⟩ := asmStep_sameAssembler hsame h.asmForm h.partialWritten ha
  have ho := (asmStep_writes ha).1
  have ho' := (asmStep_writes ha').1
  have hu' : u' = withViewsOf s (mirror r ts u) :=
    eq_of_sameAssembler hsame' (by simp_all [sameOutsideAssembler, mirror, withViewsOf]; rfl)
  have htake : takeByte (mirror r ts s) = .ok (s.cell .rb s.tail, advanceTail (mirror r ts s)) :=
    takeByte_ok.2 ⟨hlt, rfl, rfl⟩
  simp only [microStep, htake, ha', hu']
  rfl

/-- In IMMEDIATE mode the views are level, so the same turns are enabled in DEFERRED mode (R21, R22). -/
theorem enabled_mirror {s : State} (r : Option Response) (ts : List Turn) (hm : s.cfg.syncMode = .immediate) (hl : level s)
    (u : Turn) : Turn.enabled (mirror r ts s) u = Turn.enabled s u := by
  obtain ⟨hheadC, htailP⟩ := hl
  rcases u with ⟨_ | _, w⟩ | _ | _ | _ | _
  · rfl
  · rfl
  · rfl
  · simp [Turn.enabled, State.syncHEnabled, mirror, hm, hheadC]
  · simp [Turn.enabled, State.syncTEnabled, mirror, hm, htailP]
  · rfl

/-- A turn, but for a reset and a word that waits, leaves in DEFERRED mode what it leaves in IMMEDIATE mode but for the views, which
stay; and it answers the same unless it is RDSTAT 8 (log 13). -/
theorem runTurn_mirror {u : Turn} {s t : State} (r : Option Response) (ts : List Turn) (h : s.Inv)
    (hm : s.cfg.syncMode = .immediate) (hw : ∀ w, u = .command .C w → s.pollRem = 0) (hu : u ≠ .reset)
    (ht : runTurn u s = .next t) :
    ∃ r', runTurn u (mirror r ts s) = .next (withViewsOf s (mirror r' ts t)) ∧
      (u ≠ .command .C (encode (.rdstat 8)) → r' = t.response) := by
  have hmirror := enabled_mirror r ts hm (h.viewForm hm) u
  rcases he : Turn.enabled s u with _ | _
  · have hC : ∀ w, u ≠ .command .C w := by
      rintro w rfl
      simp [(enabled_iff s (.command .C w)).2 (hw w rfl)] at he
    cases (runTurn_passes he hC).symm.trans ht
    exact ⟨none, runTurn_passes (hmirror.trans he) hC, fun _ => rfl⟩
  · have he' := (enabled_iff s u).1 he
    rcases u with ⟨_ | _, w⟩ | _ | _ | _ | _
    · exact issue_mirror r ts ht
    · rw [runTurn_consumerWord_idle w he'] at ht
      rw [runTurn_consumerWord_idle (s := mirror r ts s) w he']
      exact issue_mirror r ts ht
    · rw [runTurn_microStep_busy he'] at ht
      rw [runTurn_microStep_busy (s := mirror r ts s) he']
      exact ⟨_, microStep_mirror r ts h ht, fun _ => rfl⟩
    · exact nomatch hm.symm.trans he'.1
    · exact nomatch hm.symm.trans he'.1
    · exact absurd rfl hu

/-- A view level before its index moved one position, or not at all, is level after one synchronizer turn. -/
theorem carried_of_moved {c : Config} {index view : Nat} (h : index = view ∨ index = nextIndex c view) :
    carried c index view = index := by
  unfold carried
  split
  · assumption
  · next hne => exact (h.resolve_left (Ne.symm hne)).symm

/-- One SYNC_H turn brings the views up to those of IMMEDIATE mode, when `head` alone may have moved. -/
theorem step_syncH_mirror {s t : State} (r : Option Response) (ts : List Turn) (hs : level s) (ht : level t)
    (hhead : t.head = s.head ∨ t.head = nextIndex t.cfg s.head) (htail : t.tail = s.tail) :
    step (withViewsOf s (mirror r (.syncH :: ts) t)) = .next (mirror none ts t) := by
  have hheadC : carried t.cfg t.head s.headC = t.headC := by rw [hs.1, ht.1, carried_of_moved hhead]
  have htailP : s.tailP = t.tailP := by rw [hs.2, ht.2, htail]
  rw [step_syncH rfl rfl]
  change Host.Outcome.next { mirror none ts t with headC := carried t.cfg t.head s.headC, tailP := s.tailP } = _
  rw [hheadC, htailP]
  rfl

/-- One SYNC_T turn does, when `tail` alone may have moved. -/
theorem step_syncT_mirror {s t : State} (r : Option Response) (ts : List Turn) (hs : level s) (ht : level t)
    (hhead : t.head = s.head) (htail : t.tail = s.tail ∨ t.tail = nextIndex t.cfg s.tail) :
    step (withViewsOf s (mirror r (.syncT :: ts) t)) = .next (mirror none ts t) := by
  have hheadC : s.headC = t.headC := by rw [hs.1, ht.1, hhead]
  have htailP : carried t.cfg t.tail s.tailP = t.tailP := by rw [hs.2, ht.2, carried_of_moved htail]
  rw [step_syncT rfl rfl]
  change Host.Outcome.next { mirror none ts t with headC := s.headC, tailP := carried t.cfg t.tail s.tailP } = _
  rw [hheadC, htailP]
  rfl

/-- A word on P leaves `head` or moves it one position. -/
theorem issueP_head {w : Word} {s t : State} (h : issue .P w s = .next t) :
    t.head = s.head ∨ t.head = nextIndex t.cfg s.head := by
  rcases issueP_next h with ⟨c, rfl⟩ | rfl | ⟨b, rfl⟩
  · exact .inl rfl
  · exact .inl rfl
  · exact .inr rfl

/-- A turn of IMMEDIATE mode leaves level views level. -/
theorem runTurn_level {u : Turn} {s t : State} (h : s.Inv) (hm : s.cfg.syncMode = .immediate) (ht : runTurn u s = .next t) :
    t.Inv ∧ t.cfg = s.cfg ∧ level t := by
  obtain ⟨t', ht', hinv⟩ := runTurn_inv u h
  cases ht'.symm.trans ht
  have hcfg := (runTurn_keeps ht).1
  exact ⟨hinv, hcfg, hinv.viewForm (by rw [hcfg]; exact hm)⟩

/-- R105 for a turn whose synchronizer step `v`, taken at once, brings the views up. -/
theorem step_immediate_of_sync {s : State} {u v : Turn} (h : s.Inv) (hm : s.cfg.syncMode = .immediate) (hts : s.turns = [u])
    (hw : ∀ w, u = .command .C w → s.pollRem = 0) (hu : u ≠ .reset) (hne : u ≠ .command .C (encode (.rdstat 8)))
    (hsync : ∀ t r, runTurn u { s with turns := [] } = .next t → t.cfg = s.cfg → level t →
      step (withViewsOf s (mirror r [v] t)) = .next (mirror none [] t)) :
    ∃ t m, step s = .next t ∧ step (mirror s.response s.turns s) = .next m ∧ m.response = t.response ∧
      Sys2Proof.core.run 2 (mirror s.response [u, v] s) =
        .next { t with cfg := (mirror none [] s).cfg, response := none } := by
  obtain ⟨t, ht, -⟩ := runTurn_inv u (inv_turns [] h)
  obtain ⟨-, hcfg, hlevel⟩ := runTurn_level (s := { s with turns := [] }) h hm ht
  obtain ⟨r, hmirror, hr⟩ := runTurn_mirror (s := { s with turns := [] }) s.response [] h hm hw hu ht
  obtain ⟨r', hmirror', -⟩ := runTurn_mirror (s := { s with turns := [] }) s.response [v] h hm hw hu ht
  have hfirst : step (mirror s.response [u, v] s) = .next (withViewsOf s (mirror r' [v] t)) :=
    (step_turn (s := mirror s.response [u, v] s) rfl).trans hmirror'
  have hturns : t.turns = [] := by
    rcases runTurn_turns (s := { s with turns := [] }) h ht with hnil | ⟨⟨w, hC⟩, hp, -⟩
    · exact hnil
    · exact absurd (hw w hC) hp
  have hend : mirror none [] t = { t with cfg := (mirror none [] s).cfg, response := none } := by
    rw [mirror, show t.cfg = s.cfg from hcfg, ← hturns]
    rfl
  refine ⟨t, _, (step_turn hts).trans ht, (step_turn (s := mirror s.response s.turns s) hts).trans hmirror, hr hne, ?_⟩
  rw [run_succ hfirst, run_one (hsync t r' ht hcfg hlevel), hend]

/-- A turn of the consumer's leaves `head`, and leaves `tail` or moves it one position. -/
theorem consumerTurn_moves {u : Turn} {s t : State} (h : s.Inv) (hu : u = .microStep ∨ ∃ w, u = .command .C w)
    (ht : runTurn u { s with turns := [] } = .next t) :
    t.head = s.head ∧ (t.tail = s.tail ∨ t.tail = nextIndex s.cfg s.tail) := by
  have hP : ∀ w, u ≠ .command .P w := by rcases hu with rfl | ⟨w, rfl⟩ <;> nofun
  have hreset : u ≠ .reset := by rcases hu with rfl | ⟨w, rfl⟩ <;> nofun
  have hstep : step { s with turns := [u] } = .next t := ht
  obtain ⟨-, hhead, -⟩ := step_consumer_leaves rfl hu hstep
  refine ⟨hhead, ?_⟩
  rcases runTurn_queue (inv_turns [] h) hP hreset ht with ⟨-, htail⟩ | ⟨b, -, -, htail⟩
  · exact .inl htail
  · exact .inr htail

/-- Settles O23: the same step in DEFERRED mode leaves the views (`runTurn_mirror`), and one synchronizer turn brings up the one
whose index the step may have moved. -/
theorem immediateStepIsDeferredStepThenSync : Obligations.ImmediateStepIsDeferredStepThenSync := by
  intro s d u v h hm hts hd huv
  subst hd
  have hs : level s := h.viewForm hm
  have hconsumer : (u = .microStep ∨ ∃ w, u = .command .C w) → ∀ t r, runTurn u { s with turns := [] } = .next t →
      t.cfg = s.cfg → level t → step (withViewsOf s (mirror r [.syncT] t)) = .next (mirror none [] t) := by
    intro hu t r ht hcfg hlevel
    obtain ⟨hhead, htail⟩ := consumerTurn_moves h hu ht
    exact step_syncT_mirror r [] hs hlevel hhead (by rwa [hcfg])
  rcases huv with ⟨⟨w, rfl⟩, rfl⟩ | ⟨rfl, hp, rfl⟩ | ⟨rfl, rfl⟩
  · refine step_immediate_of_sync h hm hts nofun nofun nofun fun t r ht _ hlevel => ?_
    have hhead := issueP_head (s := { s with turns := [] }) ht
    have htail := (issueP_leaves (s := { s with turns := [] }) ht).1
    exact step_syncH_mirror r [] hs hlevel hhead htail
  · exact step_immediate_of_sync h hm hts (fun _ _ => hp) nofun (by decide) (hconsumer (.inr ⟨_, rfl⟩))
  · exact step_immediate_of_sync h hm hts nofun nofun nofun (hconsumer (.inl rfl))

/-! ## An IMMEDIATE run as a DEFERRED one (R105; O60) -/

/-- The synchronizer step R105 sets after an enabled turn is the one of the index that the turn moved. -/
theorem runTurn_moves {u : Turn} {s t : State} (he : Turn.enabled s u = true) (hu : u ≠ .reset)
    (ht : runTurn u s = .next t) :
    t.head = (if syncAfter (some u) t.response = some .syncH then nextIndex s.cfg s.head else s.head) ∧
      t.tail = (if syncAfter (some u) t.response = some .syncT then nextIndex s.cfg s.tail else s.tail) := by
  have he' := (enabled_iff s u).1 he
  rcases u with ⟨_ | _, w⟩ | _ | _ | _ | _
  · rcases issueP_next ht with ⟨c, rfl⟩ | rfl | ⟨b, rfl⟩ <;> simp [syncAfter]
  · rw [runTurn_consumerWord_idle w he'] at ht
    by_cases hw : w = encode .pop
    · subst hw
      rw [show issue .C (encode .pop) s = execPop s from issue_encode (i := .pop) rfl s] at ht
      rcases execPop_next ht with ⟨-, ⟨-, rfl⟩ | ⟨-, -, rfl⟩⟩ <;> simp [syncAfter]
    · obtain ⟨-, hhead, -⟩ := issueC_leaves ht
      obtain ⟨htail, -⟩ := issueC_keeps hw ht
      simp [syncAfter, hw, hhead, htail]
  · rw [runTurn_microStep_busy he'] at ht
    obtain ⟨-, -, hhead, -, htail, -⟩ := microStep_leaves ht
    simp [syncAfter, hhead, htail]
  · cases (if_pos he).symm.trans ht
    exact ⟨rfl, rfl⟩
  · cases (if_pos he).symm.trans ht
    exact ⟨rfl, rfl⟩
  · exact absurd rfl hu

theorem syncAfter_eq_some {u : Option Turn} {r : Option Response} {v : Turn} (h : syncAfter u r = some v) :
    v = .syncH ∨ v = .syncT := by
  unfold syncAfter at h
  split at h
  · split at h <;> cases h
    exact .inl rfl
  · split at h <;> cases h
    exact .inr rfl
  all_goals cases h
  exact .inr rfl

/-- The synchronizer step set after a turn is enabled there, and brings the views up to those of IMMEDIATE mode. -/
theorem link_sync {s t : State} {u v : Turn} (r : Option Response) (h : s.Inv) (hs : level s) (hcfg : t.cfg = s.cfg)
    (ht : level t)
    (hhead : t.head = if syncAfter (some u) t.response = some .syncH then nextIndex s.cfg s.head else s.head)
    (htail : t.tail = if syncAfter (some u) t.response = some .syncT then nextIndex s.cfg s.tail else s.tail)
    (hv : syncAfter (some u) t.response = some v) :
    (withViewsOf s (mirror r [] t)).link (some v) (mirror none [] t) := by
  obtain ⟨hwf, ⟨hheadlt, htaillt, -⟩, -⟩ := h
  have hn := two_le_n hwf
  rw [hv] at hhead htail
  rcases syncAfter_eq_some hv with rfl | rfl
  · rw [if_pos rfl] at hhead
    rw [if_neg (by simp)] at htail
    have hnext := nextIndex_spec hheadlt
    have hbehind : s.headC ≠ t.head := by rw [hs.1]; omega
    have hstep := step_syncH_mirror r [] hs ht (.inr (by rwa [hcfg])) htail
    exact ⟨(enabled_iff (withViewsOf s (mirror r [] t)) .syncH).2 ⟨rfl, hbehind⟩, hstep⟩
  · rw [if_neg (by simp)] at hhead
    rw [if_pos rfl] at htail
    have hnext := nextIndex_spec htaillt
    have hbehind : s.tailP ≠ t.tail := by rw [hs.2]; omega
    have hstep := step_syncT_mirror r [] hs ht hhead (.inr (by rwa [hcfg]))
    exact ⟨(enabled_iff (withViewsOf s (mirror r [] t)) .syncT).2 ⟨rfl, hbehind⟩, hstep⟩

/-- A link of an IMMEDIATE run is a link from the same state in DEFERRED mode with the same response, and the synchronizer step
R105 sets after it, if any, leads to the same state in DEFERRED mode again. -/
theorem link_mirror {s t : State} {u : Option Turn} (r : Option Response) (h : s.Inv) (hm : s.cfg.syncMode = .immediate)
    (hts : s.turns = []) (hl : s.link u t) :
    ∃ m, (mirror r [] s).link u m ∧ (u ≠ some (.command .C (encode (.rdstat 8))) → m.response = t.response) ∧
      (∀ v, syncAfter u t.response = some v → m.link (some v) (mirror none [] t)) ∧
      (syncAfter u t.response = none → ∃ r', m = mirror r' [] t) := by
  have hs : level s := h.viewForm hm
  rcases u with _ | u
  · cases link_none.1 hl
    exact ⟨_, rfl, fun _ => rfl, nofun, fun _ => ⟨none, rfl⟩⟩
  · obtain ⟨he, ht⟩ := link_some.1 hl
    have hself : { s with turns := [] } = s := by rw [← hts]
    rw [hself] at ht
    have he' : Turn.enabled (mirror r [] s) u = true := (enabled_mirror r [] hm hs u).trans he
    by_cases hu : u = .reset
    · subst hu
      cases ht
      exact ⟨mirror none [] (resetStep s), ⟨he', rfl⟩, fun _ => rfl, nofun, fun _ => ⟨none, rfl⟩⟩
    · have hw : ∀ w, u = .command .C w → s.pollRem = 0 := by
        rintro w rfl
        exact (enabled_iff s (.command .C w)).1 he
      obtain ⟨r', hmirror, hresponse⟩ := runTurn_mirror r [] h hm hw hu ht
      obtain ⟨-, hcfg, hlevel⟩ := runTurn_level h hm ht
      obtain ⟨hhead, htail⟩ := runTurn_moves he hu ht
      refine ⟨withViewsOf s (mirror r' [] t), ⟨he', hmirror⟩, fun hne => hresponse fun hc => hne (congrArg some hc),
        fun v hv => link_sync r' h hs hcfg hlevel hhead htail hv, fun hnone => ⟨r', ?_⟩⟩
      rw [hnone, if_neg nofun] at hhead htail
      have hheadC : s.headC = t.headC := by rw [hs.1, hlevel.1, hhead]
      have htailP : s.tailP = t.tailP := by rw [hs.2, hlevel.2, htail]
      rw [withViewsOf, hheadC, htailP]
      rfl

/-! The turns of the DEFERRED run: those of the IMMEDIATE run, each with the extra turn set after it, if any. -/

/-- Where turn `k` stands among turns each followed by its extra turn, if it has one. -/
def place (extra : Nat → Option Turn) : Nat → Nat
  | 0 => 0
  | k + 1 => place extra k + if (extra k).isSome then 2 else 1

/-- Which turn stands at place `i`: turn `k` of the first list, or the extra turn after it. -/
def cursor (extra : Nat → Option Turn) : Nat → Nat × Bool
  | 0 => (0, false)
  | i + 1 =>
    match cursor extra i with
    | (k, false) => if (extra k).isSome then (k, true) else (k + 1, false)
    | (k, true) => (k + 1, false)

/-- The turns with the extra ones between them. -/
def interleave (turns extra : Nat → Option Turn) (i : Nat) : Option Turn :=
  match cursor extra i with
  | (k, false) => turns k
  | (k, true) => extra k

section Places

variable {extra : Nat → Option Turn}

theorem place_succ_of_some {k : Nat} {v : Turn} (h : extra k = some v) : place extra (k + 1) = place extra k + 2 := by
  simp [place, h]

theorem place_succ_of_none {k : Nat} (h : extra k = none) : place extra (k + 1) = place extra k + 1 := by
  simp [place, h]

theorem le_place (k : Nat) : k ≤ place extra k := by
  induction k with
  | zero => exact le_refl _
  | succ k ih =>
    rw [place]
    split <;> omega

theorem cursor_place (k : Nat) : cursor extra (place extra k) = (k, false) := by
  induction k with
  | zero => rfl
  | succ k ih =>
    rcases h : extra k with _ | v
    · simp [place_succ_of_none h, cursor, ih, h]
    · simp [place_succ_of_some h, cursor, ih, h]

theorem interleave_place (turns : Nat → Option Turn) (k : Nat) : interleave turns extra (place extra k) = turns k := by
  simp only [interleave, cursor_place]

theorem interleave_place_succ (turns : Nat → Option Turn) {k : Nat} {v : Turn} (h : extra k = some v) :
    interleave turns extra (place extra k + 1) = some v := by
  simp [interleave, cursor, cursor_place, h]

/-- Every place is that of a turn or of the extra turn after one. -/
theorem place_cases (i : Nat) : ∃ k, i = place extra k ∨ i = place extra k + 1 ∧ ∃ v, extra k = some v := by
  induction i with
  | zero => exact ⟨0, .inl rfl⟩
  | succ i ih =>
    obtain ⟨k, rfl | ⟨rfl, v, hv⟩⟩ := ih
    · rcases h : extra k with _ | v
      · exact ⟨k + 1, .inl (place_succ_of_none h).symm⟩
      · exact ⟨k, .inr ⟨rfl, v, h⟩⟩
    · exact ⟨k + 1, .inl (place_succ_of_some hv).symm⟩

end Places

/-- The state a link leads to, where there is one. -/
def State.after (s : State) (u : Option Turn) : State :=
  match u with
  | none => { s with response := none }
  | some v =>
    match step { s with turns := [v] } with
    | .next t => t
    | .fault _ => s
    | .refused _ => s

theorem after_of_link {s t : State} {u : Option Turn} (h : s.link u t) : s.after u = t := by
  cases u with
  | none => exact h.symm
  | some v => simp only [State.after, h.2]

/-- The states that turns lead through from a first state on. -/
def statesFrom (s : State) (turns : Nat → Option Turn) : Nat → State
  | 0 => s
  | i + 1 => (statesFrom s turns i).after (turns i)

/-- The synchronizer steps R105 sets after the turns of a run. -/
def extraTurns (states : Nat → State) (turns : Nat → Option Turn) (k : Nat) : Option Turn :=
  syncAfter (turns k) (states (k + 1)).response

/-- The turns of the DEFERRED run R105 sets beside a run. -/
def deferredTurns (states : Nat → State) (turns : Nat → Option Turn) : Nat → Option Turn :=
  interleave turns (extraTurns states turns)

/-- The states of the DEFERRED run R105 sets beside a run. -/
def deferredStates (states : Nat → State) (turns : Nat → Option Turn) : Nat → State :=
  statesFrom (mirror none [] (states 0)) (deferredTurns states turns)

theorem deferredStates_succ {states : Nat → State} {turns : Nat → Option Turn} {i : Nat} {t : State}
    (h : (deferredStates states turns i).link (deferredTurns states turns i) t) : deferredStates states turns (i + 1) = t :=
  after_of_link h

section DeferredRun

variable {states : Nat → State} {turns : Nat → Option Turn} (hr : isRun states turns)
  (hm : (states 0).cfg.syncMode = .immediate)
include hr

theorem isRun_cfg (k : Nat) : (states k).cfg = (states 0).cfg := by
  induction k with
  | zero => rfl
  | succ k ih =>
    have hl := hr.2 k
    rcases hu : turns k with _ | u <;> rw [hu] at hl
    · rw [link_none.1 hl]
      exact ih
    · exact (runTurn_keeps (link_some.1 hl).2).1.trans ih

include hm

/-- Where the DEFERRED run mirrors state `k`, it takes turn `k` with its response and comes to state `m`; and from there the extra
turn, if there is one, to the mirror of state `k + 1`, which `m` is itself if there is none. -/
theorem deferredStates_next {k : Nat} {r : Option Response}
    (hk : deferredStates states turns (place (extraTurns states turns) k) = mirror r [] (states k)) :
    ∃ m, deferredStates states turns (place (extraTurns states turns) k + 1) = m ∧
      (mirror r [] (states k)).link (turns k) m ∧
      (turns k ≠ some (.command .C (encode (.rdstat 8))) → m.response = (states (k + 1)).response) ∧
      (∀ v, extraTurns states turns k = some v → m.link (some v) (mirror none [] (states (k + 1))) ∧
        deferredStates states turns (place (extraTurns states turns) k + 2) = mirror none [] (states (k + 1))) ∧
      (extraTurns states turns k = none → ∃ r', m = mirror r' [] (states (k + 1))) := by
  obtain ⟨hinv, hts⟩ := isRun_inv hr k
  obtain ⟨m, hl, hresponse, hsome, hnone⟩ := link_mirror r hinv ((isRun_cfg hr k).symm ▸ hm) hts (hr.2 k)
  have hfirst : deferredStates states turns (place (extraTurns states turns) k + 1) = m := by
    refine deferredStates_succ ?_
    rw [hk, deferredTurns, interleave_place]
    exact hl
  refine ⟨m, hfirst, hl, hresponse, fun v hv => ⟨hsome v hv, deferredStates_succ ?_⟩, hnone⟩
  rw [hfirst, deferredTurns, interleave_place_succ turns hv]
  exact hsome v hv

/-- At the place of each turn of the run the DEFERRED run stands in the same state, the mode and the last response apart. -/
theorem deferredStates_place (k : Nat) :
    ∃ r, deferredStates states turns (place (extraTurns states turns) k) = mirror r [] (states k) := by
  induction k with
  | zero => exact ⟨none, rfl⟩
  | succ k ih =>
    obtain ⟨r, hk⟩ := ih
    obtain ⟨m, hfirst, -, -, hsome, hnone⟩ := deferredStates_next hr hm hk
    rcases hx : extraTurns states turns k with _ | v
    · rw [place_succ_of_none hx, hfirst]
      exact hnone hx
    · rw [place_succ_of_some hx]
      exact ⟨none, (hsome v hx).2⟩

theorem deferred_isRun : isRun (deferredStates states turns) (deferredTurns states turns) := by
  refine ⟨?_, fun i => ?_⟩
  · obtain ⟨⟨c, draw, hc, h0⟩, -⟩ := hr
    refine ⟨{ c with syncMode := .deferred }, draw, hc, ?_⟩
    rw [deferredStates, statesFrom, h0]
    rfl
  · obtain ⟨k, hi⟩ := place_cases (extra := extraTurns states turns) i
    obtain ⟨r, hk⟩ := deferredStates_place hr hm k
    obtain ⟨m, hfirst, hl, -, hsome, -⟩ := deferredStates_next hr hm hk
    rcases hi with rfl | ⟨rfl, v, hv⟩
    · rw [hk, hfirst, deferredTurns, interleave_place]
      exact hl
    · obtain ⟨hlink, hsecond⟩ := hsome v hv
      rw [hfirst, hsecond, deferredTurns, interleave_place_succ turns hv]
      exact hlink

/-- At the turns of the run neither synchronizer step is enabled, and the micro-step is where it is in the run. -/
theorem deferred_weaklyFair (hf : weaklyFair states turns) :
    weaklyFair (deferredStates states turns) (deferredTurns states turns) := by
  rintro v hv ⟨i, hi⟩
  refine hf v hv ⟨i, fun k hk => ?_⟩
  obtain ⟨he, hne⟩ := hi (place (extraTurns states turns) k) (hk.trans (le_place k))
  obtain ⟨r, hplace⟩ := deferredStates_place hr hm k
  have hmk : (states k).cfg.syncMode = .immediate := (isRun_cfg hr k).symm ▸ hm
  rw [hplace, enabled_mirror r [] hmk ((isRun_inv hr k).1.viewForm hmk)] at he
  rw [deferredTurns, interleave_place] at hne
  exact ⟨he, hne⟩

end DeferredRun

/-- Settles O60: the DEFERRED run takes the turns of the run with the synchronizer steps of R105 between them. -/
theorem immediateRunHasTheResponsesOfADeferredRun : Obligations.ImmediateRunHasTheResponsesOfADeferredRun := by
  intro states turns hr hm
  refine ⟨deferredStates states turns, deferredTurns states turns, place (extraTurns states turns), deferred_isRun hr hm,
    deferred_weaklyFair hr hm, rfl, fun k => ?_⟩
  obtain ⟨r, hk⟩ := deferredStates_place hr hm k
  obtain ⟨m, hfirst, -, hresponse, -, -⟩ := deferredStates_next hr hm hk
  refine ⟨interleave_place turns k, ?_, fun hne => ?_, ?_⟩
  · rw [hk, mirror, ← (isRun_inv hr k).2]
  · rw [hfirst]
    exact hresponse hne
  · split
    · next v hv => exact ⟨interleave_place_succ turns hv, place_succ_of_some hv⟩
    · next hv => exact place_succ_of_none hv

end Sys2Proof.Machine

/-! SUPPORT. Proofs of the statements of `41_frame_assembler.md`: byte sequences through the assembler window by window, and
the poll as its micro-steps. -/

namespace Sys2Proof.Machine

/-! ## One byte (R123, R124; O26, O27) -/

/-- Settles O26: the start marker is the byte kept at address 0. -/
theorem idleByteStartsOrIsDiscarded : Obligations.IdleByteStartsOrIsDiscarded := by
  intro s b hidle
  refine ⟨?_, asmStep_idle_discard hidle⟩
  rintro rfl
  exact ⟨_, asmStep_idle_start hidle, (keepByte_fbuf 0 startMarker s 0).trans (if_pos rfl),
    fun a ha => (keepByte_fbuf 0 startMarker s a).trans (if_neg ha), rfl, rfl, rfl⟩

/-- One more byte in a partial frame does not wrap its count (R28). -/
theorem asmCnt_add_one {c : BitVec 5} (h : c.toNat ≤ 24) : (c + 1).toNat = c.toNat + 1 := by
  bv_omega

/-- Settles O27: the byte is kept at `asm_cnt`, whatever it is. -/
theorem fillingByteIsKeptWhateverItIs : Obligations.FillingByteIsKeptWhateverItIs := by
  intro s b hfill hc
  exact ⟨_, asmStep_filling_kept b hfill hc, (keepByte_fbuf _ b s _).trans (if_pos rfl),
    fun a ha => (keepByte_fbuf _ b s a).trans (if_neg ha), hfill, asmCnt_add_one (Nat.le_of_lt hc), rfl⟩

/-! ## The judged window (R125 to R127; O28, O34) -/

/-- Check 2 as a sum of numbers modulo 256 (R126). -/
theorem sumOk_iff (f : List Byte) :
    sumOk f = true ↔ ((f.take 23).map BitVec.toNat).sum % 256 = (windowByte f 23).toNat := by
  rw [sumOk, beq_iff_eq, ← BitVec.toNat_inj, checksum, BitVec.toNat_ofNat]
  rfl

theorem endOk_iff (f : List Byte) : endOk f = true ↔ windowByte f 24 = 0 := beq_iff_eq

/-- Settles O28: the three outcomes of Validate on the 24 bytes kept and the last one. -/
theorem completedWindowIsJudged : Obligations.CompletedWindowIsJudged := by
  rintro s f b hfill hc rfl
  have hlast := asmStep_filling_last b hfill hc
  generalize hf : (List.range 24).map (s.cell .fb) = f at hlast ⊢
  have hlen : f.length = 24 := by rw [← hf, List.length_map, List.length_range]
  have hwindow : (f ++ [b]).length = 25 := by rw [List.length_append, hlen]; rfl
  have hend : endOk (f ++ [b]) = true ↔ b = 0 := by rw [endOk_iff]; simp [windowByte, hlen]
  have hsum : sumOk (f ++ [b]) = true ↔ ((f.take 23).map BitVec.toNat).sum % 256 = (windowByte f 23).toNat := by
    rw [sumOk_iff, List.take_append_of_le_length (by omega)]
    simp [windowByte, hlen]
  have hkept := (keepByte_fbuf 24 b s 24).trans (if_pos rfl)
  have hother := fun a (ha : a ≠ 24) => (keepByte_fbuf 24 b s a).trans (if_neg ha)
  rcases validate_cases (closeFrame (keepByte 24 b s)) hwindow with ⟨h1, he⟩ | ⟨h1, h2, he⟩ | ⟨h1, h2, he⟩
  · have hb : b ≠ 0 := fun hb => by simp [hend.2 hb] at h1
    exact ⟨_, _, hlast.trans he, rfl, rfl, hkept, hother, fun _ => ⟨rfl, rfl⟩, fun h0 => absurd h0 hb,
      fun h0 => absurd h0 hb⟩
  · exact ⟨_, _, hlast.trans he, rfl, rfl, hkept, hother, fun hb => absurd (hend.1 h1) hb, fun _ _ => ⟨rfl, rfl⟩,
      fun _ hs => by simp [hsum.2 hs] at h2⟩
  · refine ⟨_, _, hlast.trans he, rfl, rfl, hkept, hother, fun hb => absurd (hend.1 h1) hb,
      fun _ hs => absurd (hsum.1 h2) hs, fun _ _ => ⟨rfl, fun j hj => ?_, fun a ha => ?_, rfl⟩⟩
    · exact (read_writeCells 0 (f ++ [b]) s.vframe j).trans (if_pos (by omega))
    · exact (read_writeCells 0 (f ++ [b]) s.vframe a).trans (if_neg (by omega))

theorem windowByte_set (f : List Byte) {i j : Nat} (v : Byte) (hj : j < f.length) :
    windowByte (f.set j v) i = if j = i then v else windowByte f i := by
  rw [windowByte, windowByte, List.getD_eq_getElem?_getD, List.getD_eq_getElem?_getD, List.getElem?_set]
  split
  · simp
  · rfl

/-- A changed term of a sum. -/
theorem sum_set_add (l : List Nat) {j : Nat} (a : Nat) (hj : j < l.length) : (l.set j a).sum + l[j] = l.sum + a := by
  have hsame : l.sum = (l.set j l[j]).sum := by rw [List.set_getElem_self]
  rw [hsame, List.sum_set, List.sum_set, if_pos hj, if_pos hj]
  omega

/-- A byte changed under the checksum changes the sum by as much (R126). -/
theorem byteSum_set {f : List Byte} {j : Nat} (v : Byte) (hl : f.length = 25) (hj : j < 23) :
    (((f.set j v).take 23).map BitVec.toNat).sum + (windowByte f j).toNat = ((f.take 23).map BitVec.toNat).sum + v.toNat := by
  have hold : (windowByte f j).toNat = ((f.take 23).map BitVec.toNat)[j]'(by simp; omega) := by
    simp [windowByte, List.getElem?_eq_getElem (show j < f.length by omega)]
  rw [List.take_set, List.map_set, hold]
  exact sum_set_add _ _ _

/-- Settles O34: the sum moves by less than 256 and not by 0, or the checksum byte moves and the sum does not. -/
theorem oneChangedByteFailsTheChecksum : Obligations.OneChangedByteFailsTheChecksum := by
  intro f j v hl hend hsum h1 h23 hv
  have hbyte := fun i => windowByte_set f (i := i) (j := j) v (by omega)
  have hne : v.toNat ≠ (windowByte f j).toNat := fun h => hv (BitVec.toNat_inj.1 h)
  refine ⟨?_, Bool.eq_false_iff.2 fun hpass => ?_⟩
  · rw [endOk_iff, hbyte, if_neg (by omega)]
    exact (endOk_iff f).1 hend
  · rw [sumOk_iff] at hsum hpass
    rw [hbyte] at hpass
    rcases Nat.lt_or_eq_of_le h23 with hlt | rfl
    · rw [if_neg (by omega)] at hpass
      have := byteSum_set v hl hlt
      have := v.isLt
      have := (windowByte f j).isLt
      omega
    · rw [if_pos rfl, List.take_set, List.set_eq_of_length_le (by simp), hsum] at hpass
      exact hne hpass.symm

/-! ## A partial frame filled byte after byte (R124, R130; O32) -/

/-- The state with more bytes kept in its partial frame, one after the other (R124). -/
def keepBytes (bs : List Byte) (s : State) : State :=
  { s with asmCnt := s.asmCnt + BitVec.ofNat 5 bs.length, fbuf := writeCells s.asmCnt.toNat bs s.fbuf }

theorem keepBytes_cons (b : Byte) (bs : List Byte) {s : State} (h : s.asmCnt.toNat ≤ 24) :
    keepBytes bs (growFrame (keepByte s.asmCnt.toNat b s)) = keepBytes (b :: bs) s := by
  have hcnt : s.asmCnt + 1 + BitVec.ofNat 5 bs.length = s.asmCnt + BitVec.ofNat 5 (b :: bs).length := by
    rw [List.length_cons, BitVec.ofNat_add, BitVec.add_assoc, BitVec.add_comm 1]
    rfl
  have hbuf : writeCells (s.asmCnt + 1).toNat bs (Memory.write s.fbuf s.asmCnt.toNat b) =
      writeCells s.asmCnt.toNat (b :: bs) s.fbuf := by
    rw [asmCnt_add_one h]
    rfl
  change State.mk .. = State.mk ..
  congr 1

theorem keepBytes_asmCnt {bs : List Byte} {s : State} (h : s.asmCnt.toNat + bs.length ≤ 24) :
    (keepBytes bs s).asmCnt.toNat = s.asmCnt.toNat + bs.length := by
  change (s.asmCnt + BitVec.ofNat 5 bs.length).toNat = _
  rw [BitVec.toNat_add, BitVec.toNat_ofNat]
  omega

/-- Fewer bytes than the window lacks are kept, whatever they are (R124, R130). -/
theorem feed_filling {bs : List Byte} {s : State} (hfill : s.asmSt = .filling) (hl : s.asmCnt.toNat + bs.length ≤ 24) :
    feed bs s = .ok (List.replicate bs.length .kept, keepBytes bs s) := by
  induction bs generalizing s with
  | nil => simp [feed, keepBytes, writeCells]
  | cons b bs ih =>
    rw [List.length_cons] at hl
    have hcnt := asmCnt_add_one (c := s.asmCnt) (by omega)
    have hrest := ih (s := growFrame (keepByte s.asmCnt.toNat b s)) hfill (by
      change (s.asmCnt + 1).toNat + _ ≤ _
      omega)
    rw [keepBytes_cons b bs (by omega)] at hrest
    simp only [feed, asmStep_filling_kept b hfill (show s.asmCnt.toNat < 24 by omega), hrest, List.length_cons,
      List.replicate_succ]

/-- The byte that completes the window has it judged (R124). -/
theorem feed_completes {g : List Byte} {b : Byte} {s u : State} {ev : Event} (hfill : s.asmSt = .filling)
    (hl : s.asmCnt.toNat + g.length = 24)
    (h : validate ((List.range 24).map ((keepBytes g s).cell .fb) ++ [b]) (closeFrame (keepByte 24 b (keepBytes g s))) =
      .ok (ev, u)) :
    feed (g ++ [b]) s = .ok (List.replicate g.length .kept ++ [ev], u) := by
  have hlast := asmStep_filling_last (s := keepBytes g s) b hfill ((keepBytes_asmCnt (Nat.le_of_eq hl)).trans hl)
  refine feed_append (feed_filling hfill (Nat.le_of_eq hl)) ?_
  simp only [feed, hlast, h]

/-- Validate judges every whole window and leaves `asm_st` and `asm_cnt`. -/
theorem validate_total {f : List Byte} (s : State) (hl : f.length = 25) :
    ∃ ev u, validate f s = .ok (ev, u) ∧ u.asmSt = s.asmSt ∧ u.asmCnt = s.asmCnt := by
  rcases validate_cases s hl with ⟨-, he⟩ | ⟨-, -, he⟩ | ⟨-, -, he⟩ <;> exact ⟨_, _, he, rfl, rfl⟩

/-- Settles O32: all but the last of the bytes the window lacks are kept, and the last has it judged. -/
theorem fillingEndsAfterTwentyFiveBytes : Obligations.FillingEndsAfterTwentyFiveBytes := by
  intro s bs h hfill hle
  obtain ⟨-, hcnt⟩ := h.asmForm.2 hfill
  by_cases h25 : bs.length + s.asmCnt.toNat = 25
  · simp only [if_pos h25]
    rcases List.eq_nil_or_concat' bs with rfl | ⟨g, b, rfl⟩
    · simp only [List.length_nil] at h25
      omega
    · rw [List.length_append, List.length_singleton] at h25
      obtain ⟨ev, u, hv, hst, hct⟩ := validate_total (closeFrame (keepByte 24 b (keepBytes g s)))
        (f := (List.range 24).map ((keepBytes g s).cell .fb) ++ [b]) rfl
      exact ⟨_, u, feed_completes hfill (by omega) hv, hst, hct⟩
  · simp only [if_neg h25]
    exact ⟨_, _, feed_filling hfill (by omega), hfill, keepBytes_asmCnt (by omega)⟩

/-! ## A whole window from IDLE (R123 to R127, R132; O35) -/

/-- The state with a whole window in the partial frame and the assembler in IDLE, as Validate finds it (R124). -/
def keepWindow (f : List Byte) (s : State) : State :=
  { s with asmSt := .idle, asmCnt := 0, fbuf := writeCells 0 f s.fbuf }

/-- Bytes kept one after the other and one behind them are one run of writes. -/
theorem writeCells_concat (a : Nat) (g : List Byte) (b : Byte) (m : Memory) :
    writeCells a (g ++ [b]) m = Memory.write (writeCells a g m) (a + g.length) b := by
  induction g generalizing a m with
  | nil => rfl
  | cons x g ih =>
    rw [List.cons_append, writeCells, ih, writeCells, List.length_cons]
    congr 1
    omega

/-- A run of written bytes as the list it was written from. -/
theorem cells_eq_of_byteAt {s : State} {sp : Space} {f : List Byte} (h : ∀ j < f.length, s.byteAt sp j = f[j]?) :
    (List.range f.length).map (s.cell sp) = f := by
  refine List.ext_getElem (by simp) fun j h1 h2 => ?_
  rw [List.getElem_map, List.getElem_range]
  exact cell_of_byteAt ((h j h2).trans (List.getElem?_eq_getElem h2))

/-- From IDLE a window that begins with the start marker is kept byte by byte and judged with its last (R123, R124). -/
theorem feed_window {f : List Byte} {s u : State} {ev : Event} (hidle : s.asmSt = .idle) (hl : f.length = 25)
    (h0 : windowByte f 0 = startMarker) (h : validate f (keepWindow f s) = .ok (ev, u)) :
    feed f s = .ok (List.replicate 24 .kept ++ [ev], u) := by
  obtain ⟨x, f', rfl⟩ := List.exists_cons_of_length_eq_add_one hl
  obtain rfl : x = startMarker := h0
  rcases List.eq_nil_or_concat' f' with rfl | ⟨g, b, rfl⟩
  · cases hl
  · have hg : g.length = 23 := by simpa using hl
    have hcells : (List.range 24).map ((keepBytes g (openFrame (keepByte 0 startMarker s))).cell .fb) = startMarker :: g := by
      have hlen : (startMarker :: g).length = 24 := by rw [List.length_cons, hg]
      rw [← hlen]
      refine cells_eq_of_byteAt fun j hj => ?_
      exact (read_writeCells 0 (startMarker :: g) s.fbuf j).trans (if_pos (by omega))
    have hstate : closeFrame (keepByte 24 b (keepBytes g (openFrame (keepByte 0 startMarker s)))) =
        keepWindow (startMarker :: (g ++ [b])) s := by
      have hbuf : Memory.write (writeCells 1 g (Memory.write s.fbuf 0 startMarker)) 24 b =
          writeCells 0 (startMarker :: (g ++ [b])) s.fbuf := by
        rw [writeCells, writeCells_concat, hg]
      change State.mk .. = State.mk ..
      congr 1
    have hrest := feed_completes (g := g) (b := b) (s := openFrame (keepByte 0 startMarker s)) (ev := ev) (u := u) rfl
      (by rw [hg]; rfl) (by rw [hcells, hstate]; exact h)
    simp only [feed, asmStep_idle_start hidle, hrest, hg]
    rfl

/-- A valid frame with a byte changed behind the start marker is still a window, and fails its checksum or, with the last byte
changed, its end marker (R132, R135). -/
theorem validate_corrupted {v : List Byte} {j : Nat} {x : Byte} (s : State) (hv : validFrame v) (h1 : 1 ≤ j) (h24 : j ≤ 24)
    (hx : x ≠ windowByte v j) :
    validate (v.set j x) s = .ok (if j = 24 then (.endErr, countEnderr s) else (.sumErr, countSumerr s)) := by
  obtain ⟨hl, -, hend, hsum⟩ := hv
  by_cases hj : j = 24
  · subst j
    rw [if_pos rfl]
    refine validate_endErr s (Bool.eq_false_iff.2 fun hpass => hx ?_)
    have hbyte := (endOk_iff _).1 hpass
    rw [windowByte_set v x (by rw [hl]; decide), if_pos rfl] at hbyte
    rw [hbyte, (endOk_iff v).1 hend]
  · rw [if_neg hj]
    obtain ⟨hend', hsum'⟩ := oneChangedByteFailsTheChecksum v j x hl hend hsum h1 (by omega) hx
    exact validate_sumErr s hend' hsum'

/-- Settles O35: the first window is judged with its 25th byte, so the second is scanned from IDLE. -/
theorem frameAfterACorruptedFrameIsKept : Obligations.FrameAfterACorruptedFrameIsKept := by
  intro s v w j x _ hidle hv hw h1 h24 hx
  have hbad := validate_corrupted (keepWindow (v.set j x) s) hv h1 h24 hx
  obtain ⟨hlv, h0v, -, -⟩ := hv
  obtain ⟨hlw, h0w, hendw, hsumw⟩ := hw
  have h0 : windowByte (v.set j x) 0 = startMarker := by
    rw [windowByte_set v x (by rw [hlv]; exact Nat.lt_succ_of_le h24), if_neg (by omega), h0v]
  have hfirst := fun ev u => feed_window (ev := ev) (u := u) hidle ((List.length_set).trans hlv) h0
  have hsecond : ∀ r : State, r.asmSt = .idle → feed w r =
      .ok (List.replicate 24 .kept ++ [.frame], acceptFrame (loadFrame w (keepWindow w r))) := fun r hr =>
    feed_window hr hlw h0w (validate_frame _ hlw hendw hsumw)
  have hframe : ∀ r : State, (acceptFrame (loadFrame w (keepWindow w r))).frameBytes = w := fun r =>
    loadFrame_frameBytes (keepWindow w r) hlw
  by_cases hj : j = 24
  · simp only [if_pos hj] at hbad ⊢
    exact ⟨_, _, feed_append (hfirst _ _ hbad) (hsecond _ rfl), rfl, rfl, hframe _, rfl, rfl, rfl, rfl⟩
  · simp only [if_neg hj] at hbad ⊢
    exact ⟨_, _, feed_append (hfirst _ _ hbad) (hsecond _ rfl), rfl, rfl, hframe _, rfl, rfl, rfl, rfl⟩

/-! ## Scanning a byte sequence (R131; O33) -/

/-- The windows of a scan that are valid frames, in order (R131). -/
def passing (fs : List (List Byte)) : List (List Byte) := fs.filter fun f => endOk f && sumOk f

/-- From `s` to `t` the frames `fs` passed, in order: each is counted, and the last is the one kept (R127, R128). -/
def framesPassed (fs : List (List Byte)) (s t : State) : Prop :=
  t.cntFrame = s.cntFrame + BitVec.ofNat 16 fs.length ∧
    match fs.getLast? with
    | some f => t.vvalid = true ∧ t.frameBytes = f
    | none => t.vvalid = s.vvalid ∧ t.vframe = s.vframe

theorem framesPassed_nil {s t : State} (hcnt : t.cntFrame = s.cntFrame) (hvalid : t.vvalid = s.vvalid)
    (hframe : t.vframe = s.vframe) : framesPassed [] s t :=
  ⟨by rw [hcnt]; exact (BitVec.add_zero _).symm, hvalid, hframe⟩

theorem frameBytes_congr {s t : State} (h : t.vframe = s.vframe) : t.frameBytes = s.frameBytes := by
  have hbytes : t.byteAt .vf = s.byteAt .vf := funext fun a => congrArg (Memory.read · a) h
  rw [State.frameBytes, hbytes, State.frameBytes]

theorem framesPassed_append {fs fs' : List (List Byte)} {s t u : State} (h : framesPassed fs s t)
    (h' : framesPassed fs' t u) : framesPassed (fs ++ fs') s u := by
  obtain ⟨hcnt, hlast⟩ := h
  obtain ⟨hcnt', hlast'⟩ := h'
  refine ⟨by rw [hcnt', hcnt, List.length_append, BitVec.ofNat_add, BitVec.add_assoc], ?_⟩
  rw [List.getLast?_append]
  rcases hl : fs'.getLast? with _ | f <;> rw [hl] at hlast'
  · obtain ⟨hvalid, hframe⟩ := hlast'
    rw [Option.none_or]
    rcases hf : fs.getLast? with _ | f <;> rw [hf] at hlast
    · exact ⟨hvalid.trans hlast.1, hframe.trans hlast.2⟩
    · exact ⟨hvalid.trans hlast.1, (frameBytes_congr hframe).trans hlast.2⟩
  · exact hlast'

/-- Fed to the assembler the bytes are all taken, one event each, and the frames `fs` are the ones that pass (R131). -/
def scans (bs : List Byte) (fs : List (List Byte)) (s t : State) : Prop :=
  ∃ es, feed bs s = .ok (es, t) ∧ es.length = bs.length ∧ es.count .frame = fs.length ∧ framesPassed fs s t

theorem scans_append {as bs : List Byte} {fs fs' : List (List Byte)} {s t u : State} (h : scans as fs s t)
    (h' : scans bs fs' t u) : scans (as ++ bs) (fs ++ fs') s u := by
  obtain ⟨es, hfeed, hlen, hcount, hpassed⟩ := h
  obtain ⟨es', hfeed', hlen', hcount', hpassed'⟩ := h'
  exact ⟨es ++ es', feed_append hfeed hfeed', by rw [List.length_append, List.length_append, hlen, hlen'],
    by rw [List.count_append, List.length_append, hcount, hcount'], framesPassed_append hpassed hpassed'⟩

/-- A byte passed over (R123). -/
theorem scans_discard {b : Byte} {s : State} (hidle : s.asmSt = .idle) (hb : b ≠ startMarker) :
    scans [b] [] s (countResync s) :=
  ⟨[.discard], by simp only [feed, asmStep_idle_discard hidle hb], rfl, rfl, framesPassed_nil rfl rfl rfl⟩

/-- A window the bytes end in passes nothing (R131). -/
theorem scans_partial {bs : List Byte} {s : State} (hidle : s.asmSt = .idle) (hl : bs.length < 24) :
    ∃ t, scans (startMarker :: bs) [] s t := by
  have hrest := feed_filling (bs := bs) (s := openFrame (keepByte 0 startMarker s)) rfl (by
    change 1 + bs.length ≤ 24
    omega)
  have hfeed : feed (startMarker :: bs) s = .ok (.kept :: List.replicate bs.length .kept,
      keepBytes bs (openFrame (keepByte 0 startMarker s))) := by simp only [feed, asmStep_idle_start hidle, hrest]
  exact ⟨_, _, hfeed, by simp, by simp [List.count_replicate], framesPassed_nil rfl rfl rfl⟩

/-- A whole window passes exactly when both checks do (R125 to R127). -/
theorem scans_window {f : List Byte} {s : State} (hidle : s.asmSt = .idle) (hl : f.length = 25)
    (h0 : windowByte f 0 = startMarker) : ∃ t, scans f (passing [f]) s t ∧ t.asmSt = .idle := by
  have hcount : ∀ ev : Event, (List.replicate 24 Event.kept ++ [ev]).count .frame = [ev].count .frame := fun ev => by
    rw [List.count_append, List.count_replicate]
    exact Nat.zero_add _
  have hfeed := fun ev u => feed_window (ev := ev) (u := u) hidle hl h0
  rcases validate_cases (keepWindow f s) hl with ⟨h1, he⟩ | ⟨h1, h2, he⟩ | ⟨h1, h2, he⟩
  · have hnone : passing [f] = [] := by simp [passing, h1]
    rw [hnone]
    exact ⟨_, ⟨_, hfeed _ _ he, hl.symm, hcount _, framesPassed_nil rfl rfl rfl⟩, rfl⟩
  · have hnone : passing [f] = [] := by simp [passing, h2]
    rw [hnone]
    exact ⟨_, ⟨_, hfeed _ _ he, hl.symm, hcount _, framesPassed_nil rfl rfl rfl⟩, rfl⟩
  · have hone : passing [f] = [f] := by simp [passing, h1, h2]
    have hpassed : framesPassed [f] s (acceptFrame (loadFrame f (keepWindow f s))) :=
      ⟨rfl, rfl, loadFrame_frameBytes (keepWindow f s) hl⟩
    rw [hone]
    exact ⟨_, ⟨_, hfeed _ _ he, hl.symm, hcount _, hpassed⟩, rfl⟩

/-- From IDLE a byte sequence is scanned window by window, along the recursion of `windowsFrom` (R131). -/
theorem scans_windowsFrom {n : Nat} {bs : List Byte} {s : State} (hn : bs.length ≤ n) (hidle : s.asmSt = .idle) :
    ∃ t, scans bs (passing (windowsFrom n bs)) s t := by
  induction n, bs using windowsFrom.induct generalizing s with
  | case1 bs =>
    obtain rfl := List.length_eq_zero_iff.1 (Nat.le_zero.1 hn)
    exact ⟨s, [], rfl, rfl, rfl, framesPassed_nil rfl rfl rfl⟩
  | case2 n hn0 =>
    rw [windowsFrom]
    · exact ⟨s, [], rfl, rfl, rfl, framesPassed_nil rfl rfl rfl⟩
    · exact hn0
  | case3 n bs h24 ih =>
    have hlen : (startMarker :: bs.take 24).length = 25 := by rw [List.length_cons, List.length_take_of_le h24]
    obtain ⟨t, hwindow, hidle'⟩ := scans_window (f := startMarker :: bs.take 24) hidle hlen rfl
    rw [List.length_cons] at hn
    obtain ⟨u, hrest⟩ := ih (by rw [List.length_drop]; omega) hidle'
    have hall := scans_append hwindow hrest
    rw [List.cons_append, List.take_append_drop] at hall
    refine ⟨u, ?_⟩
    rw [windowsFrom, if_pos rfl, if_pos h24]
    rwa [passing, passing, ← List.filter_append] at hall
  | case4 n bs h24 =>
    obtain ⟨t, ht⟩ := scans_partial (bs := bs) hidle (Nat.lt_of_not_le h24)
    refine ⟨t, ?_⟩
    rwa [windowsFrom, if_pos rfl, if_neg h24]
  | case5 n b bs hb ih =>
    obtain ⟨t, ht⟩ := ih (s := countResync s) (Nat.le_of_succ_le_succ hn) hidle
    refine ⟨t, ?_⟩
    rw [windowsFrom, if_neg hb]
    exact scans_append (scans_discard hidle hb) ht

/-- Settles O33: the scan of the whole sequence. -/
theorem assemblerEmitsExactlyTheScannedFrames : Obligations.AssemblerEmitsExactlyTheScannedFrames := by
  intro s bs _ hidle
  obtain ⟨t, es, hfeed, hlen, hcount, hcnt, hlast⟩ := scans_windowsFrom (le_refl bs.length) hidle
  exact ⟨es, t, hfeed, hlen, hcount, hcnt, hlast⟩

/-! ## POLL and its micro-steps (R120 to R122; O25, O29, O44) -/

/-- Settles O25: the snapshot is the distance from `tail` to `head_c`. -/
theorem pollTakesItsSnapshot : Obligations.PollTakesItsSnapshot := by
  intro s hp
  refine ⟨s.visible, visible_lt s, indexSub_add_mod s.cfg s.headC s.tail, (whenNotPolling_idle _ hp).trans ?_⟩
  by_cases hv : s.visible = 0
  · rw [if_pos hv, if_pos hv]
    rfl
  · rw [if_neg hv, if_neg hv]
    rfl

/-- In the invariant the micro-step takes the byte written at `tail` through AsmStep (R25, R121). -/
theorem microStep_eq {s : State} (h : s.Inv) (hp : s.pollRem ≠ 0) :
    ∃ b ev u, s.byteAt .rb s.tail = some b ∧ asmStep b (advanceTail s) = .ok (ev, u) ∧
      microStep s = .next (pollCount ev u) ∧ (pollCount ev u).Inv := by
  obtain ⟨t, ht, hinv⟩ := microStep_inv h hp
  obtain ⟨b, hb, -, -⟩ := microStep_takesByte h hp ht
  obtain ⟨-, ev, u, ha, rfl⟩ := microStep_next ht
  rw [cell_of_byteAt hb] at ha
  exact ⟨b, ev, u, hb, ha, ht, hinv⟩

theorem isFrame_eq (ev : Event) : ev.isFrame = decide (ev = .frame) := by cases ev <;> rfl

theorem isBad_eq (ev : Event) : ev.isBad = decide (ev = .discard ∨ ev = .endErr ∨ ev = .sumErr) := by cases ev <;> rfl

/-- AsmStep leaves the poll and the response (R32; log 14). -/
theorem asmStep_samePoll {b : Byte} {s t : State} {ev : Event} (h : asmStep b s = .ok (ev, t)) : samePoll s t := by
  obtain ⟨-, -, -, -, -, -, hrem, hlen, hnew, hbad, -⟩ := (asmStep_writes h).1
  exact ⟨hrem, hlen, hnew, hbad⟩

/-- Settles O29: `microStep_eq`, with the poll as AsmStep leaves it. -/
theorem microStepTakesOneByteThroughTheAssembler : Obligations.MicroStepTakesOneByteThroughTheAssembler := by
  intro s h hp
  obtain ⟨b, ev, u, hb, ha, ht, -⟩ := microStep_eq h hp
  obtain ⟨hrem, hlen, hnew, hbad⟩ := asmStep_samePoll ha
  refine ⟨b, ev, u, pollCount ev u, hb, ha, ht, ?_, ?_, ?_, ?_, rfl⟩
  · rw [pollCount_pollNew, hnew, isFrame_eq]
    rfl
  · rw [pollCount_pollBad, hbad, isBad_eq]
    rfl
  · rw [pollCount_pollRem, hrem]
    rfl
  · rw [pollCount_response, hrem, hlen]
    rfl

/-- Settles O44: none of these steps raises a fault, by what each leaves. -/
theorem dataConditionsAreNoFaults : Obligations.DataConditionsAreNoFaults := by
  intro s t
  refine ⟨fun ht _ => ?_, fun b ht => ?_, ?_, ⟨rfl, rfl, rfl⟩, ⟨rfl, rfl, rfl⟩⟩
  · obtain ⟨-, -, -, -, -, -, -, -, -, hfault, -⟩ := microStep_leaves ht
    exact hfault
  · rcases execPush_next ht with ⟨-, rfl⟩ | ⟨-, -, rfl⟩ <;> exact ⟨rfl, rfl, rfl⟩
  · rintro (ht | ht | ht)
    · rcases execPop_next ht with ⟨-, ⟨-, rfl⟩ | ⟨-, -, rfl⟩⟩ <;> exact ⟨rfl, rfl, rfl⟩
    · obtain ⟨-, rfl⟩ := execLen_next ht
      exact ⟨rfl, rfl, rfl⟩
    · rcases execPoll_next ht with ⟨-, ⟨-, rfl⟩ | ⟨-, rfl⟩⟩ <;> exact ⟨rfl, rfl, rfl⟩

/-! ## The bytes taken, as the counters tell them (R136; O36) -/

/-- A judged window counts for its 25 bytes, whichever way it is judged. -/
theorem validate_bytesTaken {f : List Byte} {s t : State} {ev : Event} (hl : f.length = 25)
    (h : validate f s = .ok (ev, t)) : t.bytesTaken = s.bytesTaken + 25 := by
  rcases validate_cases s hl with ⟨-, he⟩ | ⟨-, -, he⟩ | ⟨-, -, he⟩
  · cases he.symm.trans h
    change s.cntResync + 25 * (s.cntEnderr + 1 + s.cntSumerr + s.cntFrame) + s.asmCnt.setWidth 16 = s.bytesTaken + 25
    rw [State.bytesTaken]
    ring
  · cases he.symm.trans h
    change s.cntResync + 25 * (s.cntEnderr + (s.cntSumerr + 1) + s.cntFrame) + s.asmCnt.setWidth 16 = s.bytesTaken + 25
    rw [State.bytesTaken]
    ring
  · cases he.symm.trans h
    change s.cntResync + 25 * (s.cntEnderr + s.cntSumerr + (s.cntFrame + 1)) + s.asmCnt.setWidth 16 = s.bytesTaken + 25
    rw [State.bytesTaken]
    ring

/-- Every byte AsmStep takes is counted once (R136). -/
theorem asmStep_bytesTaken {b : Byte} {s t : State} {ev : Event} (ha : s.asmForm) (h : asmStep b s = .ok (ev, t)) :
    t.bytesTaken = s.bytesTaken + 1 := by
  rcases asmStep_cases b ha with ⟨hidle, -, he⟩ | ⟨-, -, he⟩ | ⟨-, hc, he⟩ | ⟨-, hc, he⟩
  · cases he.symm.trans h
    simp [State.bytesTaken, keepByte, ha.1 hidle]
  · cases he.symm.trans h
    change s.cntResync + 1 + 25 * (s.cntEnderr + s.cntSumerr + s.cntFrame) + s.asmCnt.setWidth 16 = s.bytesTaken + 1
    rw [State.bytesTaken]
    ring
  · cases he.symm.trans h
    have hcnt : (s.asmCnt + 1).setWidth 16 = s.asmCnt.setWidth 16 + 1#16 := by bv_omega
    change s.cntResync + 25 * (s.cntEnderr + s.cntSumerr + s.cntFrame) + (s.asmCnt + 1).setWidth 16 = _
    rw [hcnt, ← BitVec.add_assoc]
    rfl
  · have hcnt : s.asmCnt.setWidth 16 = 24#16 := by bv_omega
    rw [validate_bytesTaken rfl (he.symm.trans h), State.bytesTaken, State.bytesTaken, hcnt, BitVec.add_assoc,
      BitVec.add_assoc _ 24#16]
    rfl

/-- Settles O36: the micro-step's AsmStep counts its byte, and no command writes a counter of the assembler's. -/
theorem countersAccountForEveryByte : Obligations.CountersAccountForEveryByte := by
  intro s t h
  refine ⟨fun ht _ => ?_, fun i ht => ?_, rfl⟩
  · obtain ⟨-, ev, u, ha, rfl⟩ := microStep_next ht
    have hone : u.bytesTaken = (advanceTail s).bytesTaken + 1 := asmStep_bytesTaken h.asmForm ha
    exact hone
  · rcases exec_cases ht with ⟨p, st, v, rfl⟩ | rfl | ⟨b, -, -, rfl⟩ | ⟨v, -, rfl⟩ | ⟨r, -, rfl⟩ | ⟨c, -, rfl⟩ <;>
      rfl

/-! ## A poll as the micro-steps of its snapshot (R121, R133, R134, R138; O30) -/

theorem State.Inv.asmInv {s : State} (h : s.Inv) : s.asmInv := by
  obtain ⟨-, -, -, -, hasm, hstorage, -, hpartial, hframe, -⟩ := h
  exact ⟨hasm, hstorage, hpartial, hframe⟩

theorem sameAssembler_symm {s t : State} (h : sameAssembler s t) : sameAssembler t s := by
  obtain ⟨h1, h2, h3, h4, h5, h6, h7, h8, h9⟩ := h
  exact ⟨h1.symm, h2.symm, h3.symm, h4.symm, h5.symm, h6.symm, h7.symm, h8.symm, h9.symm⟩

theorem sameAssembler_trans {s t u : State} (h : sameAssembler s t) (h' : sameAssembler t u) : sameAssembler s u := by
  obtain ⟨h1, h2, h3, h4, h5, h6, h7, h8, h9⟩ := h
  obtain ⟨i1, i2, i3, i4, i5, i6, i7, i8, i9⟩ := h'
  exact ⟨i1.trans h1, i2.trans h2, i3.trans h3, i4.trans h4, i5.trans h5, i6.trans h6, i7.trans h7, i8.trans h8, i9.trans h9⟩

/-- The bytes fed are taken alike from two states with the same assembler (R133). -/
theorem feed_sameAssembler {bs : List Byte} {s s' t : State} {es : List Event} (hs : sameAssembler s s') (h : s.asmInv)
    (ht : feed bs s = .ok (es, t)) : ∃ t', feed bs s' = .ok (es, t') ∧ sameAssembler t t' := by
  induction bs generalizing s s' es with
  | nil =>
    cases ht
    exact ⟨s', rfl, hs⟩
  | cons b bs ih =>
    obtain ⟨ev, u, hu, hinv, -⟩ := asmStep_inv b h
    obtain ⟨hasm, -, hpartial, -⟩ := h
    obtain ⟨u', hu', hs'⟩ := asmStep_sameAssembler hs hasm hpartial hu
    simp only [feed, hu, hu'] at ht ⊢
    rcases hrest : feed bs u with f | ⟨es', v⟩ <;> simp only [hrest] at ht
    · cases ht
    · cases ht
      obtain ⟨v', hv', hsame⟩ := ih hs' hinv hrest
      exact ⟨v', by simp only [hv'], hsame⟩

/-- The poll from `s` to `t`, over the events `es`, to its end: the flags they set, and the response with the last. -/
def polled (es : List Event) (s t : State) : Prop :=
  t.pollRem = 0 ∧ t.pollNew = (s.pollNew || es.any Event.isFrame) ∧ t.pollBad = (s.pollBad || es.any Event.isBad) ∧
    (s.pollRem ≠ 0 → t.response = some { port := .C, status := pollStatus t.pollNew t.pollBad, value := s.pollLen })

/-- A micro-step and the poll it leaves are one poll; the response with the last byte stands when no other step follows it. -/
theorem polled_cons {ev : Event} {es : List Event} {s u t : State} (hu : samePoll s u)
    (h : polled es (pollCount ev u) t) (hlast : (pollCount ev u).pollRem = 0 → t = pollCount ev u) :
    polled (ev :: es) s t := by
  obtain ⟨-, hlen, hnew, hbad⟩ := hu
  obtain ⟨hdone, hnew', hbad', hresponse⟩ := h
  rw [pollCount_pollNew, hnew, Bool.or_assoc] at hnew'
  rw [pollCount_pollBad, hbad, Bool.or_assoc] at hbad'
  refine ⟨hdone, hnew', hbad', fun _ => ?_⟩
  by_cases h0 : (pollCount ev u).pollRem = 0
  · have hone : u.pollRem = 1 := by
      rw [pollCount_pollRem] at h0
      exact sub_eq_zero.1 h0
    rw [hlast h0, pollCount_response, if_pos hone, hlen]
    rfl
  · rw [hresponse h0, pollCount_pollLen, hlen]

/-- A micro-step turn with the poll in progress: the oldest byte held goes through AsmStep as from `s` itself, and the
poll goes on. -/
theorem step_microStep {s : State} {ts : List Turn} (h : s.Inv) (hp : s.pollRem ≠ 0) (hts : s.turns = .microStep :: ts) :
    ∃ b ev v t, step s = .next t ∧ t.Inv ∧ t.turns = ts ∧ s.held = some b :: t.held ∧ asmStep b s = .ok (ev, v) ∧
      sameAssembler v t ∧ t.pollRem = s.pollRem - 1 ∧
      ∀ es u, polled es t u → (t.pollRem = 0 → u = t) → polled (ev :: es) s u := by
  have hinv := inv_turns ts h
  obtain ⟨b, ev, w, hb, ha, ht, hinv'⟩ := microStep_eq hinv hp
  obtain ⟨b', hb', hheld⟩ := microStep_held hinv hp ht
  obtain rfl : b = b' := Option.some.inj (hb.symm.trans hb')
  obtain ⟨-, -, -, -, -, -, hrem, -, -, -, hturns, -⟩ := microStep_leaves ht
  have hsame : sameAssembler (advanceTail { s with turns := ts }) s := ⟨rfl, rfl, rfl, rfl, rfl, rfl, rfl, rfl, rfl⟩
  have hpoll := asmStep_samePoll ha
  obtain ⟨v, hv, hvw⟩ := asmStep_sameAssembler hsame h.asmForm h.partialWritten ha
  exact ⟨b, ev, v, pollCount ev w, (step_turn hts).trans ((runTurn_microStep_busy (s := { s with turns := ts }) hp).trans ht),
    hinv', hturns, hheld, hv, sameAssembler_symm hvw, hrem, fun _ _ => polled_cons hpoll⟩

/-- As many micro-step turns as a poll has bytes left end it, with those bytes taken through the assembler in order. -/
theorem run_microSteps {n : Nat} {s : State} {ts : List Turn} (h : s.Inv) (hn : s.pollRem.toNat = n)
    (hts : s.turns = List.replicate n .microStep ++ ts) :
    ∃ bs es u t, s.held.take n = bs.map some ∧ feed bs s = .ok (es, u) ∧ Sys2Proof.core.run n s = .next t ∧ t.turns = ts ∧
      sameAssembler u t ∧ t.held = s.held.drop n ∧ polled es s t := by
  induction n generalizing s with
  | zero =>
    have hp : s.pollRem = 0 := BitVec.eq_of_toNat_eq hn
    exact ⟨[], [], s, s, rfl, rfl, rfl, hts, ⟨rfl, rfl, rfl, rfl, rfl, rfl, rfl, rfl, rfl⟩, rfl, hp,
      (Bool.or_false _).symm, (Bool.or_false _).symm, fun h0 => absurd hp h0⟩
  | succ n ih =>
    have hp : s.pollRem ≠ 0 := fun h0 => by simp [h0] at hn
    rw [List.replicate_succ, List.cons_append] at hts
    obtain ⟨b, ev, v, t₁, hstep, hinv, hturns, hheld, hv, hsame₁, hrem, hcons⟩ := step_microStep h hp hts
    have hn' : t₁.pollRem.toNat = n := by
      have := toNat_sub_one hp
      rw [hrem]
      omega
    obtain ⟨bs, es, u, t, htake, hfeed, hrun, hend, hsame, hdrop, hpoll⟩ := ih hinv hn' hturns
    obtain ⟨u', hu', huu⟩ := feed_sameAssembler (sameAssembler_symm hsame₁) hinv.asmInv hfeed
    refine ⟨b :: bs, ev :: es, u', t, ?_, by simp only [feed, hv, hu'], (run_succ hstep).trans hrun, hend,
      sameAssembler_trans (sameAssembler_symm huu) hsame, ?_, ?_⟩
    · rw [hheld, List.take_succ_cons, htake, List.map_cons]
    · rw [hheld, List.drop_succ_cons, hdrop]
    · refine hcons es t hpoll fun h0 => ?_
      obtain rfl : 0 = n := by rw [← hn', h0]; rfl
      exact (Host.Outcome.next.inj hrun).symm

/-- The status of a poll by the events of its bytes (R122). -/
theorem pollStatus_events (nw bd : Bool) (es : List Event) :
    pollStatus (nw || es.any Event.isFrame) (bd || es.any Event.isBad) =
      if nw = true ∨ Event.frame ∈ es then .new
      else if bd = true ∨ Event.discard ∈ es ∨ Event.endErr ∈ es ∨ Event.sumErr ∈ es then .bad
      else .none := by
  have hnew : (nw || es.any Event.isFrame) = true ↔ nw = true ∨ Event.frame ∈ es := by
    simp [isFrame_eq]
  have hbad : (bd || es.any Event.isBad) = true ↔
      bd = true ∨ Event.discard ∈ es ∨ Event.endErr ∈ es ∨ Event.sumErr ∈ es := by
    simp [isBad_eq, and_or_left, exists_or]
  rw [pollStatus]
  exact if_congr hnew rfl (if_congr hbad rfl rfl)

/-- Settles O30: `run_microSteps`, with the poll's status told by the events. -/
theorem pollRunsItsSnapshotThroughTheAssembler : Obligations.PollRunsItsSnapshotThroughTheAssembler := by
  intro s ts h hp hts
  obtain ⟨bs, es, u, t, htake, hfeed, hrun, hend, hsame, hdrop, hdone, hnew, hbad, hresponse⟩ := run_microSteps h rfl hts
  refine ⟨bs, es, u, t, htake, hfeed, hrun, hend, hdone, hsame, hdrop, ?_⟩
  rw [hresponse hp, hnew, hbad, pollStatus_events]

/-! ## A poll in a fair run (R138; O57) -/

theorem State.Inv.pollBound {s : State} (h : s.Inv) : s.pollBound := by
  obtain ⟨-, -, -, -, -, -, -, -, -, hpoll, -⟩ := h
  exact hpoll

theorem pollStatus_mem (nw bd : Bool) : pollStatus nw bd ∈ [Status.new, .bad, .none] := by
  cases nw <;> cases bd <;> decide

/-- The micro-step that ends a poll answers on C with the snapshot's length (R121, R122). -/
theorem microStep_response {s t : State} (hp : s.pollRem ≠ 0) (ht : microStep s = .next t) (h0 : t.pollRem = 0) :
    ∃ st, st ∈ [Status.new, .bad, .none] ∧ t.response = some { port := .C, status := st, value := s.pollLen } := by
  obtain ⟨-, ev, u, ha, rfl⟩ := microStep_next ht
  obtain ⟨-, -, -, hresponse⟩ := polled_cons (es := []) (asmStep_samePoll ha)
    ⟨h0, (Bool.or_false _).symm, (Bool.or_false _).symm, fun hne => absurd h0 hne⟩ fun _ => rfl
  exact ⟨_, pollStatus_mem _ _, hresponse hp⟩

/-- All a link of a run can do to a poll in progress: leave it, count it down by one micro-step, or reset it (R138). -/
theorem link_poll {s t : State} {u : Option Turn} (h : s.Inv) (hp : s.pollRem ≠ 0) (hl : s.link u t) :
    (u ≠ some .reset ∧ u ≠ some .microStep ∧ samePoll s t) ∨
    (u = some .microStep ∧ t.pollRem = s.pollRem - 1 ∧ t.pollLen = s.pollLen ∧ (t.pollRem = 0 →
      ∃ st, st ∈ [Status.new, .bad, .none] ∧ t.response = some { port := .C, status := st, value := s.pollLen })) ∨
    (u = some .reset ∧ t.pollRem = 0) := by
  rcases u with _ | v
  · rw [link_none.1 hl]
    exact .inl ⟨nofun, nofun, rfl, rfl, rfl, rfl⟩
  · obtain ⟨he, ht⟩ := link_some.1 hl
    obtain ⟨hconsumer, hother, hreset⟩ :=
      onlyTheConsumerCountsThePollDown { s with turns := [v] } t v [] (inv_turns [v] h) hp rfl ht
    rcases v with ⟨_ | _, w⟩ | _ | _ | _ | _
    · exact .inl ⟨nofun, nofun, hother (.inr (.inr ⟨w, rfl⟩))⟩
    · exact absurd ((enabled_iff s (.command .C w)).1 he) hp
    · have hmicro := (runTurn_microStep_busy (s := { s with turns := [] }) hp).symm.trans ht
      obtain ⟨hrem, hlen⟩ := hconsumer (.inl rfl)
      exact .inr (.inl ⟨rfl, hrem, hlen, microStep_response (s := { s with turns := [] }) hp hmicro⟩)
    · exact .inl ⟨nofun, nofun, hother (.inl rfl)⟩
    · exact .inl ⟨nofun, nofun, hother (.inr (.inl rfl))⟩
    · exact .inr (.inr ⟨rfl, (hreset rfl).1⟩)

/-- From link `k` on the poll ends as R138 has it: a first state without it, and with no reset on the way one micro-step for each
byte left and the response with the last. -/
def pollEnds (states : Nat → State) (turns : Nat → Option Turn) (k : Nat) : Prop :=
  ∃ d, (states (k + d)).pollRem = 0 ∧ (∀ j < d, (states (k + j)).pollRem ≠ 0) ∧
    (turnCount turns (· == .reset) k d = 0 →
      turnCount turns (· == .microStep) k d = (states k).pollRem.toNat ∧
      ((states k).pollRem ≠ 0 → ∃ st, st ∈ [Status.new, .bad, .none] ∧
        (states (k + d)).response = some { port := .C, status := st, value := (states k).pollLen }))

/-- The first link counted by the turn it takes. -/
theorem turnCount_turn_succ (turns : Nat → Option Turn) (v : Turn) (k d : Nat) :
    turnCount turns (· == v) k (d + 1) = (if turns k = some v then 1 else 0) + turnCount turns (· == v) (k + 1) d := by
  rw [turnCount_succ]
  rcases turns k with _ | u <;> simp

section PollRun

variable {states : Nat → State} {turns : Nat → Option Turn} {k : Nat}

theorem pollEnds_of_idle (h : (states k).pollRem = 0) : pollEnds states turns k :=
  ⟨0, h, fun _ hj => absurd hj (Nat.not_lt_zero _), fun _ => ⟨by rw [h]; rfl, fun hne => absurd h hne⟩⟩

/-- One link before: `link_poll` in its three cases. -/
theorem pollEnds_of_succ (hr : isRun states turns) (hp : (states k).pollRem ≠ 0) (h : pollEnds states turns (k + 1)) :
    pollEnds states turns k := by
  obtain ⟨d, hdone, hbusy, hcount⟩ := h
  have hshift : ∀ j, k + 1 + j = k + (j + 1) := fun j => by omega
  refine ⟨d + 1, by rwa [← hshift], fun j hj => ?_, fun hreset => ?_⟩
  · cases j with
    | zero => exact hp
    | succ j =>
      rw [← hshift]
      exact hbusy j (Nat.lt_of_succ_lt_succ hj)
  · rw [turnCount_turn_succ] at hreset ⊢
    rw [← hshift d]
    obtain ⟨hmicro, hresponse⟩ := hcount (by omega)
    rcases link_poll (isRun_inv hr k).1 hp (hr.2 k) with ⟨-, hne, hrem, hlen, -, -⟩ | ⟨hu, hrem, hlen, hlast⟩ | ⟨hu, -⟩
    · rw [if_neg hne, hmicro, hrem, Nat.zero_add]
      rw [hrem, hlen] at hresponse
      exact ⟨rfl, hresponse⟩
    · have hpred := toNat_sub_one hp
      rw [if_pos hu, hmicro, hrem]
      refine ⟨by omega, fun _ => ?_⟩
      by_cases h0 : (states (k + 1)).pollRem = 0
      · have hd : d = 0 := by
          by_contra hd
          exact hbusy 0 (Nat.pos_of_ne_zero hd) h0
        subst d
        exact hlast h0
      · rw [← hlen]
        exact hresponse h0
    · rw [if_pos hu] at hreset
      omega

theorem pollEnds_of_le (hr : isRun states turns) {m : Nat} (hm : k ≤ m) (h : (states m).pollRem = 0) :
    pollEnds states turns k := by
  induction hm using Nat.decreasingInduction with
  | self => exact pollEnds_of_idle h
  | of_succ k _ ih =>
    by_cases hp : (states k).pollRem = 0
    · exact pollEnds_of_idle hp
    · exact pollEnds_of_succ hr hp ih

/-- A poll that never ends is never reset, and its count never rises. -/
theorem pollRem_antitone (hr : isRun states turns) (hbusy : ∀ m, k ≤ m → (states m).pollRem ≠ 0) {m j : Nat} (hm : k ≤ m)
    (hj : m ≤ j) : (states j).pollRem.toNat ≤ (states m).pollRem.toNat := by
  induction j, hj using Nat.le_induction with
  | base => exact le_refl _
  | succ j hj ih =>
    have hp := hbusy j (hm.trans hj)
    rcases link_poll (isRun_inv hr j).1 hp (hr.2 j) with ⟨-, -, hrem, -⟩ | ⟨-, hrem, -⟩ | ⟨-, h0⟩
    · rwa [hrem]
    · have := toNat_sub_one hp
      rw [hrem]
      omega
    · exact absurd h0 (hbusy (j + 1) (by omega))

/-- In a fair run a poll comes to an end: while it does not, the micro-step stays enabled, so it is taken again and again, and each
time takes one off the count. -/
theorem poll_ends (hr : isRun states turns) (hf : weaklyFair states turns) (k : Nat) :
    ∃ m, k ≤ m ∧ (states m).pollRem = 0 := by
  by_contra hnone
  have hbusy : ∀ m, k ≤ m → (states m).pollRem ≠ 0 := fun m hm h0 => hnone ⟨m, hm, h0⟩
  have hnever : ∀ n m, k ≤ m → (states m).pollRem.toNat ≠ n := by
    intro n
    induction n using Nat.strong_induction_on with
    | _ n ih =>
      intro m hm hn
      refine hf .microStep (by decide) ⟨m, fun j hj => ⟨?_, fun hturn => ?_⟩⟩
      · exact (enabled_iff (states j) .microStep).2 (hbusy j (hm.trans hj))
      · have hp := hbusy j (hm.trans hj)
        rcases link_poll (isRun_inv hr j).1 hp (hr.2 j) with ⟨-, hne, -⟩ | ⟨-, hrem, -⟩ | ⟨hu, -⟩
        · exact hne hturn
        · have hle := pollRem_antitone hr hbusy hm hj
          have hpred := toNat_sub_one hp
          rw [← hrem] at hpred
          exact ih _ (by omega) (j + 1) (by omega) rfl
        · rw [hturn] at hu
          cases hu
  exact hnever _ k (le_refl k) rfl

end PollRun

/-- Settles O57: the invariant bounds the poll in every state of a run, and fairness brings its end. -/
theorem everyPollCompletesInAFairRun : Obligations.EveryPollCompletesInAFairRun := by
  intro states turns k hr hf
  have h := (isRun_inv hr k).1
  obtain ⟨m, hm, h0⟩ := poll_ends hr hf k
  refine ⟨h.pollBound.1, fun hp => ⟨h.headC_ne_tail hp, ?_⟩, pollEnds_of_le hr hm h0⟩
  obtain ⟨t, ht, -⟩ := microStep_inv h hp
  exact ⟨t, ht⟩

end Sys2Proof.Machine

/-! SUPPORT. Proofs of the statements of `42_channel_decoder.md`: DECODE in its three cases, the two windows side by side, and the
packing digit by digit. -/

namespace Sys2Proof.Machine

/-! ## DECODE, case by case (R140; O41, O37) -/

theorem exec_decode_idxRange {s : State} {ch : Nat} (hp : s.pollRem = 0) (hc : ch > 15) :
    exec (.decode ch) s = .next (raiseFault .C (encode (.decode ch)) .idxRange s) :=
  (whenNotPolling_idle _ hp).trans (if_pos hc)

theorem exec_decode_noFrame {s : State} {ch : Nat} (hp : s.pollRem = 0) (hc : ch ≤ 15) (hv : s.vvalid = false) :
    exec (.decode ch) s = .next (raiseFault .C (encode (.decode ch)) .noFrame s) :=
  (whenNotPolling_idle _ hp).trans ((if_neg (Nat.not_lt.2 hc)).trans (if_pos hv))

theorem exec_decode_answers {s : State} {ch : Nat} {v : Word} (hp : s.pollRem = 0) (hc : ch ≤ 15) (hv : s.vvalid = true)
    (hx : extract ch s = .ok v) : exec (.decode ch) s = .next (respond .C .ok v s) := by
  refine (whenNotPolling_idle _ hp).trans ?_
  rw [if_neg (Nat.not_lt.2 hc), hv, if_neg (by decide), hx]

/-- Settles O41: the three cases, in the order of the two checks; the extraction of a channel 0..15 always has a value. -/
theorem decodeChecksTheIndexThenTheFrame : Obligations.DecodeChecksTheIndexThenTheFrame := by
  intro s ch hp
  refine ⟨exec_decode_idxRange hp, exec_decode_noFrame hp, fun hc hv => ?_⟩
  have hx := extract_eq (s := s) hc
  exact ⟨_, hx, exec_decode_answers hp hc hv hx⟩

/-- Settles O37: the extracted field as a number, and the frame kept byte by byte. -/
theorem decodeAnswersTheChannelField : Obligations.DecodeAnswersTheChannelField := by
  intro s ch hp hv hc
  refine ⟨⟨_, exec_decode_answers hp hc hv (extract_eq hc), ?_⟩, fun h j hj => ?_⟩
  · have h1 : byteOffset ch + 1 = 2 + 11 * ch / 8 := by unfold byteOffset; omega
    have h2 : byteOffset ch + 2 = 3 + 11 * ch / 8 := by unfold byteOffset; omega
    rw [h1, h2]
    cases s.cfg.chWindow with
    | w24 => exact field24_toNat ch _ _ _
    | w16 => exact field16_toNat ch _ _
  · have hlen : s.frameBytes.length = 25 := (h.frameKept hv).1
    rw [cell_of_byteAt (byteAt_of_frameBytes hlen hj), windowByte, List.getD_eq_getElem _ _ (by omega),
      List.getElem?_eq_getElem]

/-! ## The narrow window against the wide one (R144; O39) -/

/-- The narrow window is the low 16 bits of the wide one. -/
theorem window16_bit_eq_window24 (b0 b1 b2 : Byte) (k : Nat) :
    (window16 b0 b1).getLsbD k = ((window24 b0 b1 b2).getLsbD k && decide (k < 16)) := by
  by_cases h : k < 16
  · rw [window16_bit _ _ h, window24_bit _ _ _ (by omega), if_pos h, decide_eq_true h, Bool.and_true]
  · rw [BitVec.getLsbD_of_ge _ _ (Nat.not_lt.1 h), decide_eq_false h, Bool.and_false]

/-- For any channel the narrow field is the wide one without the bits past the narrow window's end. -/
theorem field16_bit_eq_field24 (ch : Nat) (b0 b1 b2 : Byte) (j : Nat) :
    (field16 ch b0 b1).getLsbD j = ((field24 ch b0 b1 b2).getLsbD j && decide (bitOffset ch + j < 16)) := by
  rw [field16_bit, field24_bit, window16_bit_eq_window24 b0 b1 b2, Bool.and_assoc]

/-- The mask of R144 for a channel: the bits it keeps of the wide field. -/
def narrowMask (ch : Nat) : Word :=
  if ch = 2 ∨ ch = 10 then 0x3FF#16 else if ch = 5 ∨ ch = 13 then 0x1FF#16 else 0x7FF#16

/-- The mask keeps, of the eleven bits, those inside the narrow window. -/
theorem narrowMask_bit {ch j : Nat} (hc : ch ≤ 15) (hj : j < 11) :
    (narrowMask ch).getLsbD j = decide (bitOffset ch + j < 16) := by
  have hall : ∀ ch ≤ 15, ∀ j < 11, (narrowMask ch).getLsbD j = decide (bitOffset ch + j < 16) := by decide
  exact hall ch hc j hj

/-- Settles O39, bit by bit: the masks are the bits that lie inside the narrow window. -/
theorem narrowWindowLosesOnlyTheNamedBits : Obligations.NarrowWindowLosesOnlyTheNamedBits := by
  intro ch b0 b1 b2 hc
  change _ = _ &&& narrowMask ch
  refine BitVec.eq_of_getLsbD_eq fun j _ => ?_
  rw [BitVec.getLsbD_and, field16_bit_eq_field24 ch b0 b1 b2]
  by_cases hj : j < 11
  · rw [narrowMask_bit hc hj]
  · rw [field24_bit, decide_eq_false hj, Bool.false_and, Bool.false_and, Bool.false_and]

/-! ## The packing and its inverse (R145; O40) -/

/-- The packing is positional: the channel values are the base 2^11 digits of `D`, channel 0 lowest. -/
theorem packed_eq_ofDigits (c : Nat → BitVec 11) : packed c = Nat.ofDigits (2 ^ 11) ((List.range 16).map fun i => (c i).toNat) := by
  rw [Nat.ofDigits_eq_sum_mapIdx, packed]
  refine congrArg List.sum (List.ext_getElem (by simp) fun i _ _ => ?_)
  simp [pow_mul]

/-- Digit `ch` of the packing is the value of channel `ch`. -/
theorem packed_digit (c : Nat → BitVec 11) {ch : Nat} (hc : ch ≤ 15) : packed c / 2 ^ (11 * ch) % 2 ^ 11 = (c ch).toNat := by
  have hdigits : ∀ d ∈ (List.range 16).map fun i => (c i).toNat, d < 2 ^ 11 := by
    intro d hd
    obtain ⟨i, -, rfl⟩ := List.mem_map.1 hd
    exact (c i).isLt
  rw [packed_eq_ofDigits, pow_mul, Nat.ofDigits_div_pow_eq_ofDigits_drop ch (by decide) _ hdigits,
    List.drop_eq_getElem_cons (by simp; omega), Nat.ofDigits_cons, Nat.add_mul_mod_self_left, List.getElem_map,
    List.getElem_range]
  exact Nat.mod_eq_of_lt (c ch).isLt

theorem packed_testBit (c : Nat → BitVec 11) {ch j : Nat} (hc : ch ≤ 15) (hj : j < 11) :
    (packed c).testBit (11 * ch + j) = (c ch).getLsbD j := by
  rw [BitVec.getLsbD, ← packed_digit c hc, Nat.testBit_mod_two_pow, decide_eq_true hj, Bool.true_and, Nat.testBit_div_two_pow,
    Nat.add_comm]

/-- Frame bits 8 to 183 of a frame whose channel bytes pack `D` are the bits of `D`. -/
theorem frameBit_of_packed {f : List Byte} {D q : Nat} (hf : ∀ m < 22, (windowByte f (1 + m)).toNat = D / 2 ^ (8 * m) % 256)
    (hq : q < 176) : frameBit f (8 + q) = D.testBit q := by
  rw [show 8 + q = 8 * 1 + q by rfl, frameBit_of_byte, BitVec.getLsbD, hf (q / 8) (by omega), show 256 = 2 ^ 8 by rfl,
    Nat.testBit_mod_two_pow, decide_eq_true (Nat.mod_lt q (by decide)), Bool.true_and, Nat.testBit_div_two_pow, Nat.mod_add_div]

/-- A channel but 2, 5, 10 and 13 begins early enough in its first byte to lie inside the narrow window (R144). -/
theorem bitOffset_le_five {ch : Nat} (hc : ch ≤ 15) (hch : ch ≠ 2 ∧ ch ≠ 5 ∧ ch ≠ 10 ∧ ch ≠ 13) : bitOffset ch ≤ 5 := by
  have hall : ∀ ch ≤ 15, ch ≠ 2 ∧ ch ≠ 5 ∧ ch ≠ 10 ∧ ch ≠ 13 → bitOffset ch ≤ 5 := by decide
  exact hall ch hc hch

/-- The answer's bits are frame bits (O38), these are the packing's, and the channels allowed lie inside their window. -/
theorem decode_value_of_packed {s t : State} {c : Nat → BitVec 11} {ch : Nat} {v : Word} (h : s.Inv) (hv : s.vvalid = true)
    (hc : ch ≤ 15) (hf : ∀ m < 22, (windowByte s.frameBytes (1 + m)).toNat = packed c / 2 ^ (8 * m) % 256)
    (hw : s.cfg.chWindow = .w24 ∨ (ch ≠ 2 ∧ ch ≠ 5 ∧ ch ≠ 10 ∧ ch ≠ 13)) (ht : exec (.decode ch) s = .next t)
    (hr : t.response = some { port := .C, status := .ok, value := v }) : v = (c ch).setWidth 16 := by
  refine BitVec.eq_of_getLsbD_eq fun j hj16 => ?_
  rw [decodeBitsAreFrameBits s t ch v h hv hc ht hr j, BitVec.getLsbD_setWidth, decide_eq_true hj16, Bool.true_and]
  by_cases hj : j < 11
  · have hinside : s.cfg.chWindow = .w24 ∨ 11 * ch % 8 + j ≤ 15 :=
      hw.imp_right fun hch => Nat.add_le_add (bitOffset_le_five hc hch) (Nat.le_of_lt_succ hj : j ≤ 10)
    rw [Nat.add_assoc, frameBit_of_packed hf (by omega), packed_testBit c hc hj, ← Bool.decide_or, decide_eq_true hinside,
      decide_eq_true hj, Bool.true_and, Bool.and_true]
  · rw [decide_eq_false hj, Bool.false_and, Bool.false_and, BitVec.getLsbD_of_ge _ _ (Nat.not_lt.1 hj)]

/-- Settles O40: DECODE answers a value (O37), and of a packed frame that value is the channel's. -/
theorem decodeInvertsThePacking : Obligations.DecodeInvertsThePacking := by
  intro s c ch h hp hv hc hf hw
  obtain ⟨v, ht, -⟩ := (decodeAnswersTheChannelField s ch hp hv hc).1
  rw [ht, decode_value_of_packed h hv hc hf hw ht rfl]

end Sys2Proof.Machine

/-! SUPPORT. Proof of the statement of `43_status.md`: RDSTAT by whether its selector has a status word, and the words field by field. -/

namespace Sys2Proof.Machine

theorem State.Inv.configWf {s : State} (h : s.Inv) : s.cfg.wf := by
  obtain ⟨hcfg, -⟩ := h
  exact hcfg

/-! ## RDSTAT, by whether the selector has a word (R150; O42) -/

theorem exec_rdstat_answers {s : State} {sel : Nat} {w : Word} (hp : s.pollRem = 0) (hw : statWord sel s = some w) :
    exec (.rdstat sel) s = .next (respond .C .ok w s) := by
  refine (whenNotPolling_idle _ hp).trans ?_
  rw [hw]

theorem exec_rdstat_illegal {s : State} {sel : Nat} (hp : s.pollRem = 0) (hw : statWord sel s = none) :
    exec (.rdstat sel) s = .next (raiseFault .C (encode (.rdstat sel)) .illegal s) := by
  refine (whenNotPolling_idle _ hp).trans ?_
  rw [hw]

theorem exists_statWord_of_le {sel : Nat} (s : State) (h : sel ≤ 8) : ∃ w, statWord sel s = some w := by
  rw [← Option.isSome_iff_exists, statWord_isSome, decide_eq_true h]

theorem statWord_eq_none_of_gt {sel : Nat} (s : State) (h : sel > 8) : statWord sel s = none := by
  rw [← Option.not_isSome_iff_eq_none, statWord_isSome, decide_eq_true_iff, Nat.not_le]
  exact h

/-- The word read is the one the table of R151 gives for the selector's number. -/
theorem statWord_read_eq {s : State} {sel k : Nat} {v w : Word} (hv : statWord sel s = some v) (hw : statWord k s = some w)
    (h : sel = k) : v = w := by
  rw [h, hw] at hv
  exact (Option.some.inj hv).symm

/-- Settles O42: up to 8 the selector has a word, whose fields are those of R151 to R154 (the invariant bounds `k`, so that it fits
its five bits); over 8 it has none, and the fault is ILLEGAL. -/
theorem rdstatReadsEachStatusWordOrIsIllegal : Obligations.RdstatReadsEachStatusWordOrIsIllegal := by
  intro s sel h hp
  refine ⟨fun hle => ?_, fun hgt => exec_rdstat_illegal hp (statWord_eq_none_of_gt s hgt)⟩
  obtain ⟨v, hv⟩ := exists_statWord_of_le s hle
  refine ⟨v, exec_rdstat_answers hp hv, statWord_read_eq hv rfl, statWord_read_eq hv rfl, statWord_read_eq hv rfl,
    statWord_read_eq hv rfl, statWord_read_eq hv rfl, fun h5 => ?asm, fun h6 => ?fault, statWord_read_eq hv rfl, fun h8 => ?config⟩
  case asm =>
    rw [statWord_read_eq hv (w := asmWord s) rfl h5, asmWord_toNat]
  case fault =>
    rw [statWord_read_eq hv (w := faultRecordWord s) rfl h6, faultRecordWord_toNat]
  case config =>
    rw [statWord_read_eq hv (w := configWord s.cfg) rfl h8, configWord_toNat h.configWf]

end Sys2Proof.Machine

/-! SUPPORT. Proofs of the statements of `60_exceptions.md`: a word the decode refuses, and a command step that answers FAULT. -/

namespace Sys2Proof.Machine

/-! ## A fault in a command step, from the decode or the command (R160, R161, R163; O8, O9) -/

/-- The next turn's word is issued, on P always and on C with no poll in progress (R21). -/
theorem step_issue {s : State} {p : Port} {w : Word} {ts : List Turn} (hts : s.turns = .command p w :: ts)
    (hp : p = .P ∨ s.pollRem = 0) : step s = issue p w { s with turns := ts } := by
  rw [step_turn hts]
  cases p with
  | P => rfl
  | C => exact runTurn_consumerWord_idle w (hp.resolve_left nofun)

theorem issue_refused {p : Port} {w : Word} {c : Cause} (s : State) (h : decodeAt p w = .error c) :
    issue p w s = .next (raiseFault p w c s) := by
  simp only [issue, h]

/-- With a fault recorded `fault_o` is 1 (R34). -/
@[simp] theorem raiseFault_faultO (p : Port) (w : Word) (c : Cause) (s : State) : (raiseFault p w c s).faultO = true :=
  bne_iff_ne.2 (causeBit_or_ne_zero s.faultCause c)

theorem causeCode_cases (c : Cause) :
    (c = .illegal ∧ Cause.code c = 1) ∨ (c = .wrongPort ∧ Cause.code c = 2) ∨ (c = .idxRange ∧ Cause.code c = 3) ∨
      (c = .noFrame ∧ Cause.code c = 4) := by
  cases c <;> decide

theorem causeCode_bounds (c : Cause) : 1 ≤ Cause.code c ∧ Cause.code c ≤ 4 := by
  cases c <;> decide

/-- Only DECODE and RDSTAT answer FAULT, each by raising the fault with its own word (R140, R150, R161). -/
theorem exec_fault {i : Instr} {s t : State} {p : Port} {v : Word} (h : exec i s = .next t)
    (hr : t.response = some { port := p, status := .fault, value := v }) :
    i.port = .C ∧ ∃ c, t = raiseFault .C (encode i) c s := by
  cases i with
  | push b => rcases execPush_next h with ⟨-, rfl⟩ | ⟨-, -, rfl⟩ <;> cases hr
  | pop => rcases execPop_next h with ⟨-, ⟨-, rfl⟩ | ⟨-, -, rfl⟩⟩ <;> cases hr
  | len =>
    obtain ⟨-, rfl⟩ := execLen_next h
    cases hr
  | poll => rcases execPoll_next h with ⟨-, ⟨-, rfl⟩ | ⟨-, rfl⟩⟩ <;> cases hr
  | decode ch =>
    obtain ⟨-, hfault | ⟨-, -, w, -, rfl⟩⟩ := execDecode_next h
    · exact ⟨rfl, hfault⟩
    · cases hr
  | rdstat sel =>
    obtain ⟨-, ⟨w, -, rfl⟩ | ⟨-, hfault⟩⟩ := execRdstat_next h
    · cases hr
    · exact ⟨rfl, _, hfault⟩

/-- A word that answers FAULT has raised a fault with that word on its own port: an accepted word is its command's (R85). -/
theorem issue_fault {p q : Port} {w v : Word} {s t : State} (h : issue p w s = .next t)
    (hr : t.response = some { port := q, status := .fault, value := v }) : ∃ c, t = raiseFault p w c s := by
  rcases issue_cases p w s with ⟨c, -, he⟩ | ⟨i, hi, he⟩ <;> rw [he] at h
  · cases h
    exact ⟨c, rfl⟩
  · obtain ⟨hC, hfault⟩ := exec_fault h hr
    obtain ⟨hword, -, hport⟩ := decodedWordIsTheCommandsWord p w i hi
    rwa [hword, ← hC, hport] at hfault

/-- Settles O8: the word is issued, and the decode's refusal raises the fault of its cause. -/
theorem refusedWordIsRecordedAndAnswered : Obligations.RefusedWordIsRecordedAndAnswered := by
  intro s p w c ts hts hp hc
  exact ⟨_, Cause.code c, (step_issue hts hp).trans (issue_refused _ hc), causeCode_cases c, rfl, raiseFault_faultO p w c _⟩

/-- Settles O9: whoever raised it, the fault is taken by `raiseFault`, whose answer is the code of its cause. -/
theorem faultingCommandChangesOnlyTheFaultRecord : Obligations.FaultingCommandChangesOnlyTheFaultRecord := by
  intro s t p w v ts hts hp ht hr
  obtain ⟨c, rfl⟩ := issue_fault ((step_issue hts hp).symm.trans ht) hr
  cases hr
  obtain ⟨hpos, hle⟩ := causeCode_bounds c
  exact ⟨Cause.code c, hpos, hle, rfl, rfl, raiseFault_faultO p w c _⟩

end Sys2Proof.Machine

/-! SUPPORT. Proofs of the statements of `70_reset_and_hazards.md`: the block's own steps without traffic, and the reset turn. -/

namespace Sys2Proof.Machine

/-! ## The block's own steps without traffic (R195, R106; O59) -/

/-- Without traffic each of the block's own steps takes from its work, and no other link adds to it, so the work bounds their
number. -/
theorem ownTurnCount_le_ownWork {states : Nat → State} {turns : Nat → Option Turn} {k : Nat} (hr : isRun states turns)
    (hq : quietFrom turns k) (d : Nat) : turnCount turns (ownSteps.contains ·) k d ≤ (states k).ownWork := by
  induction d generalizing k with
  | zero => exact Nat.zero_le _
  | succ d ih =>
    have hrest := ih (k := k + 1) fun m hm => hq m (Nat.le_of_succ_le hm)
    rw [turnCount_succ]
    split
    case isTrue hown =>
      obtain ⟨v, hv, hmem⟩ := (Option.any_eq_true _ _).1 hown
      have hless := link_own (isRun_inv hr k).1 (List.contains_iff_mem.1 hmem) (hv ▸ hr.2 k)
      omega
    case isFalse =>
      have hle := ownWork_antitone hr hq (le_refl k) (Nat.le_add_right k 1)
      omega

/-- Settles O59: the work bounds the own steps to come, and each lag is a distance in a ring of N positions. -/
theorem ownStepsAreBoundedWithoutTraffic : Obligations.OwnStepsAreBoundedWithoutTraffic := fun states _ k d hr hq =>
  ⟨ownTurnCount_le_ownWork hr hq d, rfl, Nat.le_sub_one_of_lt (lagH_lt (states k)), Nat.le_sub_one_of_lt (lagT_lt (states k))⟩

/-! ## The reset turn (R180, R181; O47) -/

/-- The reset step leads to the reset state of the block's configuration, with the turns to come kept and storage drawn anew
(log 6). -/
theorem resetStep_eq_resetOf (s : State) : resetStep s =
    { State.resetOf s.cfg with turns := s.turns, freeCount := s.freeCount, storageDraw := s.storageDraw + 1 } := rfl

/-- Settles O47: the turn's step is `resetStep`, whose state holds each reset value by definition. -/
theorem resetTurnGivesEveryElementItsResetValue : Obligations.ResetTurnGivesEveryElementItsResetValue := fun s ts hts =>
  ⟨resetStep { s with turns := ts }, step_turn hts, rfl, rfl, rfl, rfl, rfl, rfl, rfl, rfl, rfl, rfl, rfl, rfl, rfl, rfl, rfl, rfl,
    rfl, rfl, rfl, rfl, rfl, rfl, resetStep_eq_resetOf _⟩

end Sys2Proof.Machine
